-- ==== Sys2Proof/Word.lean ====
section
/-! DEFINITION. The widths the block fixes (00_scope.md R8) and the names of its units and instances. -/

namespace Sys2Proof

/-- One byte: a PWM register, or a byte of a command frame (R8, 30_encoding.md R90). -/
abbrev Byte := BitVec 8

/-- A 64-bit word: the step counter, a binary64 operand, RESULT, a time in nanoseconds (R8). -/
abbrev Word64 := BitVec 64

/-- An 8-bit register address of the PWM device (20_memory.md R61). -/
abbrev RegAddr := BitVec 8

/-- A timing value of a channel: 12 bits and the full-on/full-off bit 12 (20_memory.md R63). -/
abbrev Timing := BitVec 13

/-- One register write: the address and the byte (20_memory.md R60). -/
abbrev RegW := RegAddr × Byte

/-- A PWM channel number, 0..15 (20_memory.md R62). -/
abbrev Channel := Fin 16

/-- The three sub-blocks (00_scope.md R1, R2). -/
inductive UnitKind where
  | stepper
  | servo
  | qdec
deriving DecidableEq, Repr, Inhabited

/-- One addressed instance `UNIT[k]` (00_scope.md R11). -/
structure Target where
  kind : UnitKind
  inst : Nat
deriving DecidableEq, Repr, Inhabited

end Sys2Proof
end

