-- ==== Sys2Proof/Syntax.lean ====
section
/-! DEFINITION. The commands of the block: one constructor for each row of the opcode table (30_encoding.md R96). -/

namespace Sys2Proof

/-- Stepping modes, in the order of their encodings 0..3 (30_encoding.md R93). -/
inductive Mode where
  | singlePhase
  | doublePhase
  | halfStep
  | multiStep
deriving DecidableEq, Repr, Inhabited

/-- Direction, encodings 0 and 1 (30_encoding.md R93). -/
inductive Dir where
  | forward
  | reverse
deriving DecidableEq, Repr, Inhabited

/-- A command with its operands. `inst` is the header's INST field; an `f64` operand keeps its 64 bits as they arrive
(30_encoding.md R92, R94), and `n` of ST.STEP is the two's-complement word. -/
inductive Instr where
  | stSetmode (inst : Nat) (mode : Mode)
  | stSetspr (inst : Nat) (spr : BitVec 32)
  | stSetinterval (inst : Nat) (ms : Word64) (kill : Bool)
  | stOnestep (inst : Nat)
  | stOnestepdir (inst : Nat) (dir : Dir)
  | stStep (inst : Nat) (n : Word64)
  | stRotate (inst : Nat) (revs : Word64)
  | stGetstep (inst : Nat)
  | stStop (inst : Nat)
  | svSetlimits (inst : Nat) (min neutral max : Word64)
  | svSetrange (inst : Nat) (minX maxX : Word64)
  | svSetpw (inst : Nat) (ms : Word64)
  | svSetpos (inst : Nat) (x : Word64)
  | svGetpos (inst : Nat)
  | qdPoll (inst : Nat)
  | qdGetpos (inst : Nat)
  | qdGetderiv (inst : Nat) (window : Word64)
  | qdReset (inst : Nat)
deriving DecidableEq, Repr, Inhabited

/-- The instance a command addresses (30_encoding.md R90, R97). -/
def Instr.target : Instr → Target
  | .stSetmode k _ | .stSetspr k _ | .stSetinterval k _ _ | .stOnestep k | .stOnestepdir k _ | .stStep k _
  | .stRotate k _ | .stGetstep k | .stStop k => ⟨.stepper, k⟩
  | .svSetlimits k _ _ _ | .svSetrange k _ _ | .svSetpw k _ | .svSetpos k _ | .svGetpos k => ⟨.servo, k⟩
  | .qdPoll k | .qdGetpos k | .qdGetderiv k _ | .qdReset k => ⟨.qdec, k⟩

end Sys2Proof
end

