-- ==== Sys2Proof/WellFormed.lean ====
section
/-! DEFINITION. Which commands the header can carry. Operand ranges are in the types of Instr; the one check left is
the width of INST. Whether INST names a bound instance is a matter of the state (30_encoding.md R97, R99). -/

namespace Sys2Proof

/-- INST is the 4-bit field 11:8 of the header (30_encoding.md R90). -/
abbrev WellFormed (i : Instr) : Prop := i.target.inst < 16

end Sys2Proof
end

