-- ==== Sys2Proof/Decode.lean ====
section
/-! DEFINITION. The command encoding (30_encoding.md): the frame decoder, total on any bytes, and the encoder. -/

namespace Sys2Proof

/-- Little-endian value of a field (30_encoding.md R91). -/
def leNat : List Byte → Nat
  | [] => 0
  | b :: bs => b.toNat + 256 * leNat bs

/-- The `n` bytes of a field, least significant first (30_encoding.md R91). -/
def leBytes : Nat → Nat → List Byte
  | 0, _ => []
  | n + 1, v => BitVec.ofNat 8 v :: leBytes n (v / 256)

/-- Why a frame is no command of the block, from its bytes alone (30_encoding.md R99). -/
inductive DecodeError where
  /-- fewer than the two header bytes -/
  | noHeader
  /-- UNIT is 0 or 4..15 -/
  | reservedUnit
  /-- OP is not listed for its UNIT -/
  | reservedOp
  /-- the frame length differs from the row's total length -/
  | badLength
  /-- an enum or bool field holds a value outside R93 -/
  | badEnum
deriving DecidableEq, Repr

/-- UNIT, bits 15:12 of the header (30_encoding.md R90). -/
def headerUnit (h : Nat) : Nat := h / 4096 % 16

/-- INST, bits 11:8 of the header (30_encoding.md R90). -/
def headerInst (h : Nat) : Nat := h / 256 % 16

/-- OP, bits 7:0 of the header (30_encoding.md R90). -/
def headerOp (h : Nat) : Nat := h % 256

/-- Payload bytes of the row with this UNIT and OP (30_encoding.md R96). The length follows from the header alone (R95). -/
def payloadBytes (unit op : Nat) : Except DecodeError Nat :=
  match unit with
  | 1 =>
    match op with
    | 0x00 => .ok 1
    | 0x01 => .ok 4
    | 0x02 => .ok 9
    | 0x03 => .ok 0
    | 0x04 => .ok 1
    | 0x05 => .ok 8
    | 0x06 => .ok 8
    | 0x07 => .ok 0
    | 0x08 => .ok 0
    | _ => .error .reservedOp
  | 2 =>
    match op with
    | 0x00 => .ok 24
    | 0x01 => .ok 16
    | 0x02 => .ok 8
    | 0x03 => .ok 8
    | 0x04 => .ok 0
    | _ => .error .reservedOp
  | 3 =>
    match op with
    | 0x00 => .ok 0
    | 0x01 => .ok 0
    | 0x02 => .ok 8
    | 0x03 => .ok 0
    | _ => .error .reservedOp
  | _ => .error .reservedUnit

/-- `mode` field (30_encoding.md R93). -/
def modeOf : Nat → Except DecodeError Mode
  | 0 => .ok .singlePhase
  | 1 => .ok .doublePhase
  | 2 => .ok .halfStep
  | 3 => .ok .multiStep
  | _ => .error .badEnum

/-- `dir` field (30_encoding.md R93). -/
def dirOf : Nat → Except DecodeError Dir
  | 0 => .ok .forward
  | 1 => .ok .reverse
  | _ => .error .badEnum

/-- `kill` field (30_encoding.md R93). -/
def killOf : Nat → Except DecodeError Bool
  | 0 => .ok false
  | 1 => .ok true
  | _ => .error .badEnum

/-- The payload field of `len` bytes at byte `off` (30_encoding.md R91). -/
def field (payload : List Byte) (off len : Nat) : Nat := leNat ((payload.drop off).take len)

/-- An 8-byte payload field: an `f64` or `i64` operand (30_encoding.md R92). -/
def field64 (payload : List Byte) (off : Nat) : Word64 := BitVec.ofNat 64 (field payload off 8)

/-- The command of a row, from a payload of the row's length (30_encoding.md R91, R96). -/
def decodePayload (unit op inst : Nat) (p : List Byte) : Except DecodeError Instr :=
  match unit with
  | 1 =>
    match op with
    | 0x00 => (modeOf (field p 0 1)).map (Instr.stSetmode inst)
    | 0x01 => .ok (.stSetspr inst (BitVec.ofNat 32 (field p 0 4)))
    | 0x02 => (killOf (field p 8 1)).map (Instr.stSetinterval inst (field64 p 0))
    | 0x03 => .ok (.stOnestep inst)
    | 0x04 => (dirOf (field p 0 1)).map (Instr.stOnestepdir inst)
    | 0x05 => .ok (.stStep inst (field64 p 0))
    | 0x06 => .ok (.stRotate inst (field64 p 0))
    | 0x07 => .ok (.stGetstep inst)
    | 0x08 => .ok (.stStop inst)
    | _ => .error .reservedOp
  | 2 =>
    match op with
    | 0x00 => .ok (.svSetlimits inst (field64 p 0) (field64 p 8) (field64 p 16))
    | 0x01 => .ok (.svSetrange inst (field64 p 0) (field64 p 8))
    | 0x02 => .ok (.svSetpw inst (field64 p 0))
    | 0x03 => .ok (.svSetpos inst (field64 p 0))
    | 0x04 => .ok (.svGetpos inst)
    | _ => .error .reservedOp
  | 3 =>
    match op with
    | 0x00 => .ok (.qdPoll inst)
    | 0x01 => .ok (.qdGetpos inst)
    | 0x02 => .ok (.qdGetderiv inst (field64 p 0))
    | 0x03 => .ok (.qdReset inst)
    | _ => .error .reservedOp
  | _ => .error .reservedUnit

/-- Decode one whole frame (30_encoding.md R90, R95, R99). An INST that names no bound instance is no matter of the frame
alone: the command's meaning finds it illegal. -/
def decode : List Byte → Except DecodeError Instr
  | lo :: hi :: payload =>
    let h := lo.toNat + 256 * hi.toNat
    match payloadBytes (headerUnit h) (headerOp h) with
    | .error e => .error e
    | .ok n =>
      if payload.length = n then decodePayload (headerUnit h) (headerOp h) (headerInst h) payload
      else .error .badLength
  | _ => .error .noHeader

/-- The instance a frame's header addresses, legal or not (30_encoding.md R90, R97). -/
def frameTarget : List Byte → Option Target
  | lo :: hi :: _ =>
    let h := lo.toNat + 256 * hi.toNat
    match headerUnit h with
    | 1 => some ⟨.stepper, headerInst h⟩
    | 2 => some ⟨.servo, headerInst h⟩
    | 3 => some ⟨.qdec, headerInst h⟩
    | _ => none
  | _ => none

/-! The encoder (30_encoding.md R90 to R96). -/

def Mode.code : Mode → Nat
  | .singlePhase => 0
  | .doublePhase => 1
  | .halfStep => 2
  | .multiStep => 3

def Dir.code : Dir → Nat
  | .forward => 0
  | .reverse => 1

/-- The OP byte of a command's row (30_encoding.md R96). -/
def Instr.op : Instr → Nat
  | .stSetmode _ _ => 0x00
  | .stSetspr _ _ => 0x01
  | .stSetinterval _ _ _ => 0x02
  | .stOnestep _ => 0x03
  | .stOnestepdir _ _ => 0x04
  | .stStep _ _ => 0x05
  | .stRotate _ _ => 0x06
  | .stGetstep _ => 0x07
  | .stStop _ => 0x08
  | .svSetlimits _ _ _ _ => 0x00
  | .svSetrange _ _ _ => 0x01
  | .svSetpw _ _ => 0x02
  | .svSetpos _ _ => 0x03
  | .svGetpos _ => 0x04
  | .qdPoll _ => 0x00
  | .qdGetpos _ => 0x01
  | .qdGetderiv _ _ => 0x02
  | .qdReset _ => 0x03

def UnitKind.code : UnitKind → Nat
  | .stepper => 1
  | .servo => 2
  | .qdec => 3

/-- The payload of a command (30_encoding.md R91, R96). -/
def Instr.payload : Instr → List Byte
  | .stSetmode _ m => leBytes 1 m.code
  | .stSetspr _ v => leBytes 4 v.toNat
  | .stSetinterval _ ms kill => leBytes 8 ms.toNat ++ leBytes 1 kill.toNat
  | .stOnestepdir _ d => leBytes 1 d.code
  | .stStep _ n => leBytes 8 n.toNat
  | .stRotate _ r => leBytes 8 r.toNat
  | .svSetlimits _ a b c => leBytes 8 a.toNat ++ (leBytes 8 b.toNat ++ leBytes 8 c.toNat)
  | .svSetrange _ a b => leBytes 8 a.toNat ++ leBytes 8 b.toNat
  | .svSetpw _ ms => leBytes 8 ms.toNat
  | .svSetpos _ x => leBytes 8 x.toNat
  | .qdGetderiv _ w => leBytes 8 w.toNat
  | .stOnestep _ | .stGetstep _ | .stStop _ | .svGetpos _ | .qdPoll _ | .qdGetpos _ | .qdReset _ => []

/-- The header of a command (30_encoding.md R90). -/
def Instr.header (i : Instr) : Nat := i.target.kind.code * 4096 + i.target.inst * 256 + i.op

/-- The frame of a well-formed command: header, low byte first, then the payload (30_encoding.md R90, R91). -/
def encode (i : Instr) : List Byte := leBytes 2 i.header ++ i.payload

/-! The opcode table's words. -/

/-- The frame whose first `nbits` bits are those of `w`, every further bit of it 0: as long as the header's row says. -/
def frameOfTableWord (nbits w : Nat) : List Byte :=
  let v := w % 2 ^ nbits
  let body : Nat :=
    match payloadBytes (headerUnit v) (headerOp v) with
    | .ok n => n
    | .error _ => 0
  leBytes (max (2 + body) ((nbits + 7) / 8)) v

/-- The command the decoder reads from an instruction whose bits are `w`, numbered as the opcode table numbers them. -/
def decodeTableWord (nbits w : Nat) : Option Instr :=
  match decode (frameOfTableWord nbits w) with
  | .ok i => some i
  | .error _ => none

end Sys2Proof
end

