-- ==== Sys2Proof/Config.lean ====
section
/-! DEFINITION. The launch parameters of 00_scope.md R7 as plain data, the choices of the outside world, and the values
the spec leaves open, as constants with no body. -/

namespace Sys2Proof

/-- `INDEX_CONV` (40_stepper.md R125). -/
inductive IndexConv where
  | floorMod
  | absLegacy
deriving DecidableEq, Repr, Inhabited

/-- `NUMERIC` (00_scope.md R7, R13; 92_eei_decisions.md D4). -/
inductive Numeric where
  | exact
  | binary64
deriving DecidableEq, Repr, Inhabited

/-- `INVALID_POLICY` (42_quadrature.md R225). -/
inductive InvalidPolicy where
  | hold
  | resync
deriving DecidableEq, Repr, Inhabited

/-- The (ON, OFF) pair of a direction level (20_memory.md R68). -/
structure Level where
  on : Timing
  off : Timing
deriving DecidableEq, Repr, Inhabited

/-- The three channels of a coil (10_state.md R29). -/
structure Coil where
  pwm : Channel
  in1 : Channel
  in2 : Channel
deriving DecidableEq, Repr, Inhabited

/-- The two coils of a stepper (10_state.md R29). -/
structure Coils where
  a : Coil
  b : Coil
deriving DecidableEq, Repr, Inhabited

/-- `MICROSTEP_CURVE`: the seven open breakpoints C[1..7]; C[0] = 0 and C[8] = 4095 are fixed (40_stepper.md R126). -/
structure Curve where
  c1 : BitVec 12
  c2 : BitVec 12
  c3 : BitVec 12
  c4 : BitVec 12
  c5 : BitVec 12
  c6 : BitVec 12
  c7 : BitVec 12
deriving DecidableEq, Repr, Inhabited

/-- A servo's operating limits in milliseconds (10_state.md R31, R32). -/
structure Limits where
  min : Rat
  neutral : Rat
  max : Rat
deriving DecidableEq, Repr, Inhabited

/-- The launch parameters (00_scope.md R7). `qdecPins` has one (PIN_A, PIN_B) pair per decoder, so QDEC_COUNT is its
length (log 23). FREQ_HZ is an input, not a parameter of this record. -/
structure Params where
  indexConv : IndexConv
  numeric : Numeric
  invalidPolicy : InvalidPolicy
  curve : Curve
  sm1 : Coils
  sm2 : Coils
  servoChans : List Channel
  regBase : RegAddr
  allcallBase : RegAddr
  levelHigh : Level
  levelLow : Level
  devAddr : BitVec 7
  servoLimits : Limits
  posBits : Nat
  countsPerUnit : Rat
  pollIntervalNs : Nat
  ringSize : Nat
  qdecPins : List (Nat × Nat)
deriving DecidableEq, Repr, Inhabited

/-- The outcome of one register write: `ok`, or `BusError` with the byte lost or landed (20_memory.md R60). -/
inductive BusDraw where
  | ok
  | errorLost
  | errorLanded
deriving DecidableEq, Repr, Inhabited

/-- One move of the outside world or of the scheduler (10_state.md R20, 60_exceptions.md R300, R301; log 9). -/
inductive Event where
  /-- the host sends a frame, and no other agent moves until that command ends or can go no further -/
  | frame (bytes : List Byte)
  /-- the host sends a frame; the addressed instance takes it up on a later turn -/
  | send (bytes : List Byte)
  /-- the addressed instance takes its next atomic action -/
  | turn (who : Target)
  /-- the decoder agent polls by itself (42_quadrature.md R229) -/
  | poll (d : Nat)
  /-- the host requests shutdown (60_exceptions.md R300) -/
  | shutdown
  /-- the host configures the frequency through the register bank (60_exceptions.md R301) -/
  | setFreq (hz : Rat)
  /-- another user of the PWM device writes a register (60_exceptions.md R301) -/
  | outsideWrite (addr : RegAddr) (byte : Byte)
  /-- another unit on the PWM device sends the all-stop (10_state.md R20, 30_encoding.md R98; log 18) -/
  | outsideAllStop
deriving DecidableEq, Repr, Inhabited

/-! Free values: constants with no body. An input is drawn from these once its script in the state is used up. -/

/-- FREE: the scheduler's and the host's n-th move (log 9). -/
opaque Config.nextEvent : Nat → Event

/-- FREE: the byte PWM register `a` holds at launch (70_reset_and_hazards.md R312; log 5). -/
opaque Config.resetByte : Nat → Byte

/-- FREE: the outcome of the n-th register write (20_memory.md R60; log 7). -/
opaque Config.busDraw : Nat → BusDraw

/-- FREE: the level of input `pin` at the n-th line read (42_quadrature.md R221; log 8). -/
opaque Config.lineLevel (pin n : Nat) : Bool

/-- FREE: what the n-th read of the time source would answer but for monotonicity (60_exceptions.md R290; log 8). -/
opaque Config.timeDraw : Nat → Word64

/-- FREE: the pulse width where BINARY64 arithmetic yields no number (log 14). -/
opaque Config.unstatedWidth : Nat → Rat

/-- FREE: the sample where BINARY64 arithmetic yields no rational (log 21). -/
opaque Config.unstatedSample : Nat → Rat

/-- FREE: sign and payload of a RESULT that is not a number (log 15). -/
opaque Config.nanBits : Nat → Word64

/-! OPEN parameters of 00_scope.md R7 (log 2). -/

opaque Config.microstepCurve : Curve
opaque Config.devAddr : BitVec 7
opaque Config.freqHz : Rat
opaque Config.servoLimits : Limits
opaque Config.countsPerUnit : Rat
opaque Config.pollIntervalNs : Nat
opaque Config.ringSize : Nat
opaque Config.pinA : Nat
opaque Config.pinB : Nat

end Sys2Proof
end

