-- ==== Sys2Proof/Machine/Launch.lean ====
section
/-! DEFINITION. What happens once, at launch, before any command: which parameter values are legal (00_scope.md R7) and
which claims of logical names bind an instance (60_exceptions.md R296 to R298). -/

namespace Sys2Proof.Machine

/-! Parameters. -/

/-- 0 ≤ C[1] ≤ … ≤ C[7] ≤ 4095 (40_stepper.md R126); another curve is refused (93_implementation_defined.md). -/
def curveRises (c : Curve) : Bool :=
  c.c1 ≤ c.c2 && c.c2 ≤ c.c3 && c.c3 ≤ c.c4 && c.c4 ≤ c.c5 && c.c5 ≤ c.c6 && c.c6 ≤ c.c7

/-- 0 < min < neutral < max (10_state.md R32, 41_servo.md R181). -/
def limitsOrdered (l : Limits) : Bool := 0 < l.min && l.min < l.neutral && l.neutral < l.max

/-- FREQ_HZ lies in [24, 1526] (00_scope.md R7, 41_servo.md R180). -/
def freqLegal (hz : Rat) : Bool := 24 ≤ hz && hz ≤ 1526

/-- The ranges 00_scope.md R7 gives the parameters. -/
def paramsLegal (p : Params) : Bool :=
  curveRises p.curve && limitsOrdered p.servoLimits && 0x40 ≤ p.devAddr && p.devAddr ≤ 0x77
    && p.servoChans.length = 16 && 1 ≤ p.posBits && 0 < p.countsPerUnit && 1 ≤ p.ringSize && p.qdecPins.length ≤ 16

/-- The default CHANNEL_MAP row of "SM1" (20_memory.md R66). -/
def defaultSm1 : Coils := ⟨⟨8, 10, 9⟩, ⟨13, 11, 12⟩⟩

/-- The default CHANNEL_MAP row of "SM2" (20_memory.md R66). -/
def defaultSm2 : Coils := ⟨⟨2, 4, 3⟩, ⟨7, 5, 6⟩⟩

/-- The default CHANNEL_MAP of the servos: servo j on channel j (20_memory.md R66). -/
def defaultServoChans : List Channel := [0, 1, 2, 3, 4, 5, 6, 7, 8, 9, 10, 11, 12, 13, 14, 15]

/-- The non-normative example curve of 40_stepper.md R126. The model assumes it nowhere: it only shows that a legal curve exists. -/
def exampleCurve : Curve := ⟨799, 1567, 2275, 2896, 3405, 3783, 4016⟩

/-- The parameters of a launch: R7's defaults, and for each OPEN parameter the constant of Config, which may be any legal
value (log 2, log 3). Where the constant is not legal another legal value stands, so nothing but legality is known. -/
def launchParams : Params where
  indexConv := .floorMod
  numeric := .exact
  invalidPolicy := .hold
  curve := if curveRises Config.microstepCurve then Config.microstepCurve else exampleCurve
  sm1 := defaultSm1
  sm2 := defaultSm2
  servoChans := defaultServoChans
  regBase := 0x06
  allcallBase := 0xFA
  levelHigh := ⟨4096, 0⟩
  levelLow := ⟨0, 4096⟩
  devAddr := if 0x40 ≤ Config.devAddr && Config.devAddr ≤ 0x77 then Config.devAddr else 0x40
  servoLimits := if limitsOrdered Config.servoLimits then Config.servoLimits else ⟨1, 3 / 2, 2⟩
  posBits := 32
  countsPerUnit := if 0 < Config.countsPerUnit then Config.countsPerUnit else 1
  pollIntervalNs := Config.pollIntervalNs
  ringSize := if 1 ≤ Config.ringSize then Config.ringSize else 1
  qdecPins := [(Config.pinA, Config.pinB)]

/-- FREQ_HZ at launch: any legal value (log 17). -/
def launchFreq : Rat := if freqLegal Config.freqHz then Config.freqHz else 50

/-! Binding. -/

/-- One claim of a logical name at launch. DC claims come from the DC driver outside the block (R296). -/
inductive Claim where
  | dc (name : String)
  | stepper (name : String)
  | servo (name : String)
deriving DecidableEq, Repr

/-- How a claim ended (60_exceptions.md R296, R297). -/
inductive ClaimOutcome where
  | bound
  | invalidChannelName
  | alreadyAllocated
  | channelConflict
deriving DecidableEq, Repr

/-- Which numbers of each kind are claimed: DC 0..3 for "M1".."M4", stepper 0..1, servo 0..15. -/
structure Bindings where
  dc : List Nat
  stepper : List Nat
  servo : List Nat
deriving DecidableEq, Repr

def Bindings.none : Bindings := ⟨[], [], []⟩

def dcNames : List String := ["M1", "M2", "M3", "M4"]

def stepperNames : List String := ["SM1", "SM2"]

def servoNames : List String :=
  ["S01", "S02", "S03", "S04", "S05", "S06", "S07", "S08", "S09", "S10", "S11", "S12", "S13", "S14", "S15", "S16"]

/-- One atomic claim: an unknown name, then a repeat, then (between DC motors and steppers only) a conflict on the shared
channels, "M1"/"M2" with "SM1" and "M3"/"M4" with "SM2", checked from either side (R296, R297). That an unknown name of a DC motor ends
as one of a stepper or a servo does is the model's (DESIGN CHOICE, log 30). -/
def claim (c : Claim) (b : Bindings) : ClaimOutcome × Bindings :=
  match c with
  | .dc name =>
    match dcNames.idxOf? name with
    | none => (.invalidChannelName, b)
    | some n =>
      if n ∈ b.dc then (.alreadyAllocated, b)
      else if n / 2 ∈ b.stepper then (.channelConflict, b)
      else (.bound, { b with dc := n :: b.dc })
  | .stepper name =>
    match stepperNames.idxOf? name with
    | none => (.invalidChannelName, b)
    | some k =>
      if k ∈ b.stepper then (.alreadyAllocated, b)
      else if 2 * k ∈ b.dc ∨ 2 * k + 1 ∈ b.dc then (.channelConflict, b)
      else (.bound, { b with stepper := k :: b.stepper })
  | .servo name =>
    match servoNames.idxOf? name with
    | none => (.invalidChannelName, b)
    | some j =>
      if j ∈ b.servo then (.alreadyAllocated, b)
      else (.bound, { b with servo := j :: b.servo })

/-- The claims of a launch in their order. A claim that fails binds nothing; no claim is ever undone (R298). -/
def claimAll : List Claim → Bindings → List ClaimOutcome × Bindings
  | [], b => ([], b)
  | c :: cs, b =>
    let r := claim c b
    let rest := claimAll cs r.2
    (r.1 :: rest.1, rest.2)

/-- The claims behind State.reset: the set every vector of 95_test_vectors.md binds, in which no two instances share a
channel (70_reset_and_hazards.md R323; log 1). -/
def launchClaims : List Claim :=
  [.stepper "SM1", .stepper "SM2", .servo "S01", .servo "S02", .servo "S15", .servo "S16"]

/-- What `launchClaims` binds. -/
def launchBindings : Bindings := (claimAll launchClaims Bindings.none).2

end Sys2Proof.Machine
end

