-- ==== Sys2Proof/Machine/Memory.lean ====
section
/-! DEFINITION. The register file of the PWM device (20_memory.md R61): the block's one outward address space, 256 byte
registers, as a list of cells in canonical form. Each register holds a byte from launch on, which the block does not know
before a write (70_reset_and_hazards.md R312; log 5). -/

namespace Sys2Proof.Machine

/-- Cells, their addresses strictly rising. All 256 registers are listed; an unlisted address lies outside the address
space and has no value, so no cell can equal what an unlisted address reads as. -/
abbrev Memory := List Host.Cell

/-- What register `a` holds; none for an address outside the address space. -/
def Memory.read : Memory → Nat → Option Byte
  | [], _ => none
  | c :: m, a => if c.1 = a then some c.2 else Memory.read m a

/-- Write one register, keeping the canonical form. -/
def Memory.write : Memory → Nat → Byte → Memory
  | [], a, b => [(a, b)]
  | c :: m, a, b =>
    if a < c.1 then (a, b) :: c :: m
    else if c.1 = a then (a, b) :: m
    else c :: Memory.write m a b

/-- The canonical form: each of the device's 256 registers once, in order. -/
def Memory.wf (m : Memory) : Bool := m.map Prod.fst = List.range 256

/-- The registers at launch: any bytes (R312; log 5). It is irreducible so that comparing two states does not write them out. -/
@[irreducible] def Memory.initial : Memory := (List.range 256).map fun a => (a, Config.resetByte a)

/-- Write the same byte to each of several registers. It is irreducible so that comparing two states does not run it. -/
@[irreducible] def Memory.writeAll (as : List RegAddr) (b : Byte) (m : Memory) : Memory :=
  as.foldl (fun m a => Memory.write m a.toNat b) m

end Sys2Proof.Machine
end

