-- ==== Sys2Proof/Machine/State.lean ====
section
/-! DEFINITION. Everything the spec gives the block (10_state.md), as plain data, the reset state, and the reasons a step
can stop. -/

namespace Sys2Proof.Machine

/-- The status codes 0..7 of 60_exceptions.md R270. Codes 8..255 are never written. -/
inductive Status where
  | ok
  | rangeError
  | configurationError
  | busError
  | timingError
  | noValue
  | zeroInterval
  | illegalCommand
deriving DecidableEq, Repr, Inhabited

/-- A command as it waits at its instance (20_memory.md R77): a legal frame's command, or an illegal frame (log 11). -/
inductive Job where
  | command (i : Instr)
  | illegal
deriving DecidableEq, Repr

/-- What every instance holds for its commands: the response fields STATUS and RESULT (10_state.md R21), whether a getter
has written RESULT, and the commands waiting behind the one in flight, oldest first (20_memory.md R77). -/
structure Ctl where
  status : Status
  result : Word64
  resultWritten : Bool
  waiting : List Job
deriving DecidableEq, Repr

/-- `ST[k].RUN` (10_state.md R30): idle, or the steps still to issue and the time the current step started at, none before
the first step of a run has read it (40_stepper.md R137). -/
inductive Run where
  | idle
  | running (remaining : Nat) (t0 : Option Word64)
deriving DecidableEq, Repr

/-- What a stepper command in flight still has to do (20_memory.md R74). -/
inductive StepperFlight where
  /-- at the head of ST.STEP's loop (40_stepper.md R137) -/
  | stepping
  /-- register writes still to issue; `paced` if a paced step's deadline check follows them, else the command ends OK -/
  | writing (todo : List RegW) (paced : Bool)
  /-- asleep until the time source reaches `wakeAt` (60_exceptions.md R291) -/
  | sleeping (wakeAt : Nat)
  /-- the all-stop is still to be sent, then the command ends with `st` (60_exceptions.md R273) -/
  | stopping (st : Status)
  /-- the all-stop is sent, and the command has still to end with `st` (20_memory.md R75; 40_stepper.md R141) -/
  | ending (st : Status)
deriving DecidableEq, Repr

/-- What a servo command in flight still has to do. -/
inductive ServoFlight where
  /-- register writes still to issue, and the position to commit after them (41_servo.md R186) -/
  | writing (todo : List RegW) (pos : Option Rat)
  /-- the all-stop is still to be sent, then the command ends with `st` -/
  | stopping (st : Status)
  /-- the all-stop is sent, and the command has still to end with `st` (20_memory.md R75) -/
  | ending (st : Status)
deriving DecidableEq, Repr

/-- Stepper sequencer `ST[k]` (10_state.md R22 to R30). -/
structure Stepper where
  mode : Mode
  step : Word64
  dir : Dir
  interval : Rat
  kill : Bool
  spr : Option (BitVec 32)
  run : Run
  coils : Coils
  ctl : Ctl
  flight : Option StepperFlight
deriving DecidableEq, Repr

/-- Servo positioner `SV[j]` (10_state.md R31 to R35). -/
structure Servo where
  limits : Limits
  minX : Rat
  maxX : Rat
  pos : Option Rat
  ch : Channel
  ctl : Ctl
  flight : Option ServoFlight
deriving DecidableEq, Repr

/-- One sample of the readout ring (10_state.md R36). -/
structure Sample where
  t : Word64
  v : Rat
deriving DecidableEq, Repr

/-- Quadrature decoder `QD[d]` with its readout buffer `RO[d]` (10_state.md R36 to R43). `pos` is the signed value of the
POS_BITS-bit counter. -/
structure Qdec where
  gray : BitVec 2
  pos : Int
  lastT : Option Word64
  lastPos : Option Int
  ring : List Sample
  head : Nat
  count : Nat
  offset : Rat
  pinA : Nat
  pinB : Nat
  ctl : Ctl
deriving DecidableEq, Repr

/-- Choices of the outside still to come: the scripted ones, then free ones, `used` counting all drawn so far (log 7). -/
structure Tape (α : Type) where
  script : List α
  used : Nat
deriving DecidableEq, Repr

/-- One register write as it left the block: device address, register, byte and outcome (20_memory.md R60). -/
structure PortWrite where
  dev : BitVec 7
  addr : RegAddr
  byte : Byte
  outcome : BusDraw
deriving DecidableEq, Repr

/-- What the host is handed when a command ends (60_exceptions.md R301): the instance, none for a frame that names no
bound one, its STATUS, and its RESULT once a getter has written it (10_state.md R21). -/
structure Answer where
  target : Option Target
  status : Status
  result : Option Word64
deriving DecidableEq, Repr

/-- What the instances share: the register bank port, the time source, the other inputs, and the record of what came out. -/
structure World where
  /-- the PWM device's registers (20_memory.md R61) -/
  regs : Memory
  /-- every register write issued, oldest first (log 24) -/
  log : List PortWrite
  /-- every answer given to the host, oldest first (log 24) -/
  answers : List Answer
  /-- the latest time any `Now()` answered or any `Sleep` reached (60_exceptions.md R290, R291) -/
  clock : Word64
  /-- FREQ_HZ as configured now (10_state.md R44) -/
  freqHz : Rat
  /-- outcomes of the register writes to come (20_memory.md R60) -/
  bus : Tape BusDraw
  /-- levels of the line reads to come, line A then line B at each poll (42_quadrature.md R221) -/
  lines : Tape Bool
  /-- answers of the time source to come (60_exceptions.md R290) -/
  time : Tape Word64
  /-- how many unstated values have been drawn (log 14) -/
  fresh : Nat
deriving DecidableEq, Repr

/-- The whole block: `st` holds "SM1" and "SM2", `sv` "S01" to "S16" (`none` where not bound), `qd` the decoders. -/
structure State where
  params : Params
  st : List (Option Stepper)
  sv : List (Option Servo)
  qd : List Qdec
  world : World
  /-- the moves of the host and the scheduler to come (log 9) -/
  events : Tape Event
  /-- shutdown has halted every agent (60_exceptions.md R300) -/
  halted : Bool
deriving DecidableEq, Repr

/-- Why a step stops. -/
inductive Fault where
  /-- Raised by exec and step after a shutdown: every agent is stuck for good (60_exceptions.md R300,
  93_implementation_defined.md). Safe: the block makes no further step either. -/
  | halted
deriving DecidableEq, Repr

/-- Why a step has no meaning. -/
inductive Refusal where
  /-- Raised by exec for a command without a meaning in this model; none is left. Safe. -/
  | notModelled (mnemonic : String)
  /-- Raised by step for a turn or poll of an agent that does not exist (10_state.md R20). Safe: no such move exists. -/
  | noSuchAgent
  /-- Raised by step when the host would set FREQ_HZ outside [24, 1526]; the host has no such move
  (93_implementation_defined.md, 60_exceptions.md R301). Safe. -/
  | freqOutOfRange
  /-- Raised by step when another user would write a bound channel's register or an all-channels register; the host has no
  such move (60_exceptions.md R301, 70_reset_and_hazards.md R323). Safe. -/
  | boundChannelWrite
deriving DecidableEq, Repr

/-! Reset (70_reset_and_hazards.md R310, R311). -/

/-- Response fields at reset: STATUS OK; RESULT unspecified, here 0 and not to be read (10_state.md R21; log 4). -/
def Ctl.reset : Ctl := ⟨.ok, 0, false, []⟩

/-- 10_state.md R23 to R30. -/
def Stepper.reset (c : Coils) : Stepper where
  mode := .singlePhase
  step := 0
  dir := .forward
  interval := 0
  kill := false
  spr := none
  run := .idle
  coils := c
  ctl := Ctl.reset
  flight := none

/-- 10_state.md R32 to R35. -/
def Servo.reset (l : Limits) (ch : Channel) : Servo where
  limits := l
  minX := 0
  maxX := 1
  pos := none
  ch := ch
  ctl := Ctl.reset
  flight := none

/-- 10_state.md R37 to R42; no entry of the ring is valid (log 20). -/
def Qdec.reset (ringSize : Nat) (pins : Nat × Nat) : Qdec where
  gray := 0
  pos := 0
  lastT := none
  lastPos := none
  ring := List.replicate ringSize ⟨0, 0⟩
  head := 0
  count := 0
  offset := 0
  pinA := pins.1
  pinB := pins.2
  ctl := Ctl.reset

/-- The world at launch: no register write yet, and nothing known of the registers and the inputs to come. -/
def World.reset (freq : Rat) : World where
  regs := Memory.initial
  log := []
  answers := []
  clock := 0
  freqHz := freq
  bus := ⟨[], 0⟩
  lines := ⟨[], 0⟩
  time := ⟨[], 0⟩
  fresh := 0

/-- The block right after launch with these parameters, configured frequency and bindings: each bound instance in its
reset state (70_reset_and_hazards.md R310, R316). Reset writes no register (R312). -/
def State.launch (p : Params) (freq : Rat) (b : Bindings) : State where
  params := p
  st := [if 0 ∈ b.stepper then some (Stepper.reset p.sm1) else none,
    if 1 ∈ b.stepper then some (Stepper.reset p.sm2) else none]
  sv := (List.range 16).map fun j =>
    if j ∈ b.servo then some (Servo.reset p.servoLimits (p.servoChans.getD j 0)) else none
  qd := p.qdecPins.map (Qdec.reset p.ringSize)
  world := World.reset freq
  events := ⟨[], 0⟩
  halted := false

/-- A launch with illegal parameters does not happen (93_implementation_defined.md: refused). -/
def State.launchChecked (p : Params) (freq : Rat) (cs : List Claim) : Option State :=
  if paramsLegal p && freqLegal freq then some (State.launch p freq (claimAll cs Bindings.none).2) else none

/-- The machine right after reset: R7's parameters, and the instances log 1 names. -/
def State.reset : State := State.launch launchParams launchFreq launchBindings

end Sys2Proof.Machine
end

