-- ==== Sys2Proof/Machine/Flags.lean ====
section
/-! DEFINITION. The block has no condition flags but STATUS (10_state.md R45). This file gives STATUS its 8-bit codes. -/

namespace Sys2Proof.Machine

/-- The 8-bit code of a status (60_exceptions.md R270). -/
def Status.code : Status → BitVec 8
  | .ok => 0
  | .rangeError => 1
  | .configurationError => 2
  | .busError => 3
  | .timingError => 4
  | .noValue => 5
  | .zeroInterval => 6
  | .illegalCommand => 7

/-- The STATUS byte of an instance as the host reads it (10_state.md R21). -/
def Ctl.statusByte (c : Ctl) : BitVec 8 := c.status.code

/-- RESULT as the host may read it: not before a getter has written it (10_state.md R21, 93_implementation_defined.md). -/
def Ctl.readResult (c : Ctl) : Option Word64 := if c.resultWritten then some c.result else none

/-- STATUS and RESULT after a command ends: RESULT changes only where the command returns a value (10_state.md R21). -/
def Ctl.ended (c : Ctl) (st : Status) (res : Option Word64) : Ctl :=
  { c with status := st, result := res.getD c.result, resultWritten := res.isSome || c.resultWritten }

end Sys2Proof.Machine
end

