-- ==== Sys2Proof/Machine/Binary64.lean ====
section
/-! DEFINITION. IEEE 754 binary64 (00_scope.md R13): the value of a 64-bit operand, and the conversion of a rational to
the nearest binary64, ties to even. -/

namespace Sys2Proof.Machine

/-- The value of a binary64 operand, or the outcome of an operation on such values: a rational, an infinity, or no number. -/
inductive Num where
  | fin (q : Rat)
  | inf (neg : Bool)
  | nan
deriving DecidableEq, Repr, Inhabited

/-- `±m · 2^e` as a rational. -/
def Binary64.scaled (neg : Bool) (m : Nat) (e : Int) : Rat :=
  let n : Int := if neg then -(m : Int) else m
  if 0 ≤ e then mkRat (n * 2 ^ e.toNat) 1 else mkRat n (2 ^ (-e).toNat)

/-- The biased exponent field, bits 62:52. -/
def Binary64.expo (b : Word64) : Nat := b.toNat / 2 ^ 52 % 2048

/-- The fraction field, bits 51:0. -/
def Binary64.frac (b : Word64) : Nat := b.toNat % 2 ^ 52

/-- The sign, bit 63. -/
def Binary64.neg (b : Word64) : Bool := b.msb

/-- The exact value of a binary64 word (00_scope.md R13). -/
def Binary64.value (b : Word64) : Num :=
  if Binary64.expo b = 2047 then (if Binary64.frac b = 0 then .inf (Binary64.neg b) else .nan)
  else if Binary64.expo b = 0 then .fin (Binary64.scaled (Binary64.neg b) (Binary64.frac b) (-1074))
  else .fin (Binary64.scaled (Binary64.neg b) (2 ^ 52 + Binary64.frac b) ((Binary64.expo b : Int) - 1075))

/-- `a / b` rounded to the nearest natural number, ties to even. -/
def Binary64.divNearestEven (a b : Nat) : Nat :=
  if 2 * (a % b) < b then a / b
  else if b < 2 * (a % b) then a / b + 1
  else if a / b % 2 = 0 then a / b
  else a / b + 1

/-- The largest `e` with `2^e ≤ n/d`, for positive `n` and `d`. -/
def Binary64.exponent (n d : Nat) : Int :=
  let e : Int := (Nat.log2 n : Int) - (Nat.log2 d : Int)
  if d * 2 ^ e.toNat ≤ n * 2 ^ (-e).toNat then e else e - 1

/-- Exponent and fraction fields, as one number, of the binary64 nearest to `n/d`; from the largest finite value's upper
half-unit on, those of infinity. -/
def Binary64.magnitude (n d : Nat) : Nat :=
  let e := max (Binary64.exponent n d) (-1022)
  let m := Binary64.divNearestEven (n * 2 ^ (52 - e).toNat) (d * 2 ^ (e - 52).toNat)
  min ((e + 1022).toNat * 2 ^ 52 + m) (2047 * 2 ^ 52)

/-- `to_binary64`: round to nearest, ties to even (00_scope.md R13). -/
def Binary64.ofRat (q : Rat) : Word64 :=
  if q.num = 0 then 0
  else BitVec.ofNat 64 ((if q.num < 0 then 2 ^ 63 else 0) + Binary64.magnitude q.num.natAbs q.den)

/-- The word of a result: a rational is rounded, an infinity is its own word, and for no number the sign and payload are
free (log 15). -/
def Binary64.ofNum (free : Word64) : Num → Word64
  | .fin q => Binary64.ofRat q
  | .inf false => 0x7FF0000000000000
  | .inf true => 0xFFF0000000000000
  | .nan => free ||| 0x7FF8000000000000

end Sys2Proof.Machine
end

