-- ==== Sys2Proof/Machine/Numeric.lean ====
section
/-! DEFINITION. The arithmetic of the real-valued formulas (00_scope.md R10, R13). Under `NUMERIC = EXACT` every operation
on rationals is exact; under `BINARY64` the exact outcome of every operation is rounded to binary64 (92_eei_decisions.md
D4; log 14). -/

namespace Sys2Proof.Machine

/-- `round(x) = floor(x + 1/2)` (00_scope.md R10). -/
def roundHalfUp (q : Rat) : Int := (q + 1 / 2).floor

/-- The sign of a nonzero number or an infinity: true for negative. -/
def Num.isNeg : Num → Bool
  | .fin q => q < 0
  | .inf s => s
  | .nan => false

/-- Apply the rounding of the arithmetic in force to the exact outcome of one operation. -/
def Num.settle : Numeric → Num → Num
  | .exact, x => x
  | .binary64, .fin q => Binary64.value (Binary64.ofRat q)
  | .binary64, x => x

def Num.neg : Num → Num
  | .fin q => .fin (-q)
  | .inf s => .inf (!s)
  | .nan => .nan

def Num.addExact : Num → Num → Num
  | .fin a, .fin b => .fin (a + b)
  | .fin _, .inf s => .inf s
  | .inf s, .fin _ => .inf s
  | .inf s, .inf t => if s = t then .inf s else .nan
  | _, _ => .nan

def Num.mulExact : Num → Num → Num
  | .fin a, .fin b => .fin (a * b)
  | .fin a, .inf s => if a = 0 then .nan else .inf (xor (decide (a < 0)) s)
  | .inf s, .fin b => if b = 0 then .nan else .inf (xor s (decide (b < 0)))
  | .inf s, .inf t => .inf (xor s t)
  | _, _ => .nan

def Num.divExact : Num → Num → Num
  | .fin a, .fin b =>
    if b = 0 then (if a = 0 then .nan else .inf (decide (a < 0))) else .fin (a / b)
  | .fin _, .inf _ => .fin 0
  | .inf s, .fin b => .inf (xor s (decide (b < 0)))
  | _, _ => .nan

def Num.add (m : Numeric) (a b : Num) : Num := Num.settle m (Num.addExact a b)

def Num.sub (m : Numeric) (a b : Num) : Num := Num.settle m (Num.addExact a (Num.neg b))

def Num.mul (m : Numeric) (a b : Num) : Num := Num.settle m (Num.mulExact a b)

def Num.div (m : Numeric) (a b : Num) : Num := Num.settle m (Num.divExact a b)

/-- `a < b`, exact on rationals (00_scope.md R10); no number compares with nothing. -/
def Num.lt : Num → Num → Bool
  | .fin a, .fin b => a < b
  | .fin _, .inf s => !s
  | .inf s, .fin _ => s
  | .inf s, .inf t => s && !t
  | _, _ => false

/-- The rational, or a free one where the operation yielded none. -/
def Num.ratOr (free : Rat) : Num → Rat
  | .fin q => q
  | .inf _ => free
  | .nan => free

end Sys2Proof.Machine
end

