-- ==== Sys2Proof/Machine/Operands.lean ====
section
/-! DEFINITION. How a command's operands are read (30_encoding.md R92, R94; 00_scope.md R13). -/

namespace Sys2Proof.Machine

/-- An `f64` operand as an exact rational; none for NaN and the infinities, which are never converted (00_scope.md R13). -/
def realOperand (b : Word64) : Option Rat :=
  match Binary64.value b with
  | .fin q => some q
  | .inf _ => none
  | .nan => none

/-- An `i64` operand as a signed integer (30_encoding.md R94). -/
def intOperand (n : Word64) : Int := n.toInt

/-- Whether an integer fits `i64` (40_stepper.md R143). -/
def fitsI64 (n : Int) : Bool := -(2 ^ 63) ≤ n && n ≤ 2 ^ 63 - 1

end Sys2Proof.Machine
end

