-- ==== Sys2Proof/Machine/Ops.lean ====
section
/-! DEFINITION. The operations every unit shares: drawing inputs, the register write port with its channel writes and
all-stop (20_memory.md), time (60_exceptions.md R290, R291), and how a command ends (R270, R273). The block has no traps
(R271): what stands here in their place is the one way a command reports an error. -/

namespace Sys2Proof.Machine

/-! Inputs. -/

/-- The next choice of the outside: the next scripted one, else a free one (log 7). -/
def Tape.next {α : Type} (free : Nat → α) (t : Tape α) : α :=
  match t.script with
  | a :: _ => a
  | [] => free t.used

/-- The tape once its next choice is taken. -/
def Tape.rest {α : Type} (t : Tape α) : Tape α := ⟨t.script.tail, t.used + 1⟩

/-- The n-th choice to come, counting from 0. -/
def Tape.peek {α : Type} (free : Nat → α) (t : Tape α) (n : Nat) : α := (t.script[n]?).getD (free (t.used + n))

/-! The register bank port (20_memory.md). -/

/-- The address of channel ch's ON-low register (R65). -/
def chanAddr (p : Params) (ch : Channel) : RegAddr := p.regBase + 4 * BitVec.ofNat 8 ch.val

/-- The low byte of a timing value, `v[7:0]` (R63). -/
def timingLow (v : Timing) : Byte := v.extractLsb' 0 8

/-- The high byte of a timing value, `v[12:8]` (R63). -/
def timingHigh (v : Timing) : Byte := (v.extractLsb' 8 5).zeroExtend 8

/-- The four register writes of one `ChannelWrite`, in their order (R63, R64). -/
def channelWrites (p : Params) (ch : Channel) (on off : Timing) : List RegW :=
  let base := chanAddr p ch
  [(base, timingLow on), (base + 1, timingHigh on), (base + 2, timingLow off), (base + 3, timingHigh off)]

/-- The channel write that drives a direction channel to a level (R68). -/
def levelWrites (p : Params) (ch : Channel) (l : Level) : List RegW := channelWrites p ch l.on l.off

/-- What the next register write will meet. -/
def World.busNext (w : World) : BusDraw := w.bus.next Config.busDraw

/-- Whether a register write with this outcome changes the register: a failed one may or may not (R60). -/
def landed : BusDraw → Bool
  | .ok => true
  | .errorLost => false
  | .errorLanded => true

/-- The world after one `RegWrite` (R60, R69), whatever its outcome, which is `w.busNext`. -/
def World.regWrite (p : Params) (r : RegW) (w : World) : World :=
  { w with
    regs := if landed w.busNext then Memory.write w.regs r.1.toNat r.2 else w.regs
    log := w.log ++ [⟨p.devAddr, r.1, r.2, w.busNext⟩]
    bus := w.bus.rest }

/-- The four all-channels registers, ascending (R70). -/
def allStopAddrs (p : Params) : List RegAddr :=
  [p.allcallBase, p.allcallBase + 1, p.allcallBase + 2, p.allcallBase + 3]

/-- Every register an all-stop sets to 0: the four all-channels registers, and behind each the same register of all sixteen
channels, so that every output is off (R70, R275; log 6). -/
def allStopReach (p : Params) : List RegAddr :=
  [(0 : RegAddr), 1, 2, 3].flatMap fun k =>
    (p.allcallBase + k) :: (List.range 16).map fun ch => p.regBase + 4 * BitVec.ofNat 8 ch + k

/-- `AllStop()`: one request to the port, which completes without a BusError (R70; log 6). -/
def World.allStop (p : Params) (w : World) : World :=
  { w with
    regs := Memory.writeAll (allStopReach p) 0 w.regs
    log := w.log ++ (allStopAddrs p).map fun a => ⟨p.devAddr, a, 0, .ok⟩ }

/-- Issue register writes in order, up to and including the first that fails (R63, 60_exceptions.md R273). The answer says
whether all of them were accepted. -/
def issueWrites (p : Params) : List RegW → World → Bool × World
  | [], w => (true, w)
  | r :: rs, w => if w.busNext = .ok then issueWrites p rs (w.regWrite p r) else (false, w.regWrite p r)

/-! Time. -/

/-- What `Now()` answers: any time not before the last one (60_exceptions.md R290). -/
def World.nowValue (w : World) : Word64 :=
  let t := w.time.next Config.timeDraw
  if w.clock ≤ t then t else w.clock

/-- The world once `Now()` has been read. -/
def World.afterNow (w : World) : World := { w with clock := w.nowValue, time := w.time.rest }

/-- The world once a `Sleep` that ends at `wakeAt` has returned: no later `Now()` answers less (60_exceptions.md R291; log 13). -/
def World.wake (wakeAt : Nat) (w : World) : World :=
  { w with clock := if w.clock.toNat ≤ wakeAt then BitVec.ofNat 64 wakeAt else w.clock }

/-- A `Sleep` can return only if the 64-bit time source can reach its end (60_exceptions.md R290, R291; log 13). -/
def canWake (wakeAt : Nat) : Bool := wakeAt < 2 ^ 64

/-! Lines. -/

/-- The level `ReadLine(pin)` reads now (42_quadrature.md R221). -/
def World.lineNext (pin : Nat) (w : World) : Bool := w.lines.next (Config.lineLevel pin)

/-- The world once a line has been read. -/
def World.afterLine (w : World) : World := { w with lines := w.lines.rest }

/-! How a command ends. -/

/-- The response the host is handed (60_exceptions.md R301). -/
def World.answer (who : Option Target) (c : Ctl) (w : World) : World :=
  { w with answers := w.answers ++ [⟨who, c.status, c.readResult⟩] }

/-- An illegal frame that names no bound instance ends with ILLEGAL_COMMAND and nothing else (30_encoding.md R99; log 11). -/
def World.answerNobody (w : World) : World :=
  { w with answers := w.answers ++ [⟨none, .illegalCommand, none⟩] }

/-- A stepper's command ends with `st`, returning `res` if a value: `raise` and `return` of 00_scope.md R12. -/
def Stepper.finish (k : Nat) (st : Status) (res : Option Word64) (x : Stepper) (w : World) : Stepper × World :=
  let c := x.ctl.ended st res
  ({ x with ctl := c, flight := none }, w.answer (some ⟨.stepper, k⟩) c)

/-- A servo's command ends. -/
def Servo.finish (j : Nat) (st : Status) (res : Option Word64) (x : Servo) (w : World) : Servo × World :=
  let c := x.ctl.ended st res
  ({ x with ctl := c, flight := none }, w.answer (some ⟨.servo, j⟩) c)

/-- A decoder's command ends. -/
def Qdec.finish (d : Nat) (st : Status) (res : Option Word64) (x : Qdec) (w : World) : Qdec × World :=
  let c := x.ctl.ended st res
  ({ x with ctl := c }, w.answer (some ⟨.qdec, d⟩) c)

/-! Instances. -/

/-- The bound stepper `ST[k]`, if any (30_encoding.md R97). -/
def State.stepper (s : State) (k : Nat) : Option Stepper := (s.st[k]?).getD none

/-- The bound servo `SV[j]`, if any (30_encoding.md R97). -/
def State.servo (s : State) (j : Nat) : Option Servo := (s.sv[j]?).getD none

/-- The decoder `QD[d]`, if any (30_encoding.md R97). -/
def State.qdec (s : State) (d : Nat) : Option Qdec := s.qd[d]?

def State.putStepper (s : State) (k : Nat) (r : Stepper × World) : State :=
  { s with st := s.st.set k (some r.1), world := r.2 }

def State.putServo (s : State) (j : Nat) (r : Servo × World) : State :=
  { s with sv := s.sv.set j (some r.1), world := r.2 }

def State.putQdec (s : State) (d : Nat) (r : Qdec × World) : State :=
  { s with qd := s.qd.set d r.1, world := r.2 }

/-- A frame that names no bound instance (30_encoding.md R97, R99). -/
def State.noInstance (s : State) : State := { s with world := s.world.answerNobody }

/-- An instance is free to start a command when none is in flight there and none waits (20_memory.md R77). -/
def Stepper.free (x : Stepper) : Bool := x.flight.isNone && x.ctl.waiting.isEmpty

def Servo.free (x : Servo) : Bool := x.flight.isNone && x.ctl.waiting.isEmpty

/-- A decoder's commands end in the action that starts them, so none is ever in flight between two actions. -/
def Qdec.free (x : Qdec) : Bool := x.ctl.waiting.isEmpty

/-- A command that must wait goes behind those already waiting (20_memory.md R77). -/
def Ctl.enqueue (c : Ctl) (j : Job) : Ctl := { c with waiting := c.waiting ++ [j] }

end Sys2Proof.Machine
end

