-- ==== Sys2Proof/Machine/Quadrature.lean ====
section
/-! DEFINITION. The quadrature position decoder and its readout buffer (42_quadrature.md): the poll, the ring, and the meaning of
each QD command. Every action of a decoder is atomic (20_memory.md R76). -/

namespace Sys2Proof.Machine

/-! The poll. -/

/-- The observed Gray state `g(a, b)` (R220). -/
def observed (a b : Bool) : BitVec 2 :=
  match a, b with
  | false, false => 0
  | true, false => 1
  | true, true => 2
  | false, true => 3

/-- `wrap_POS_BITS`: the POS_BITS-bit two's-complement value congruent to n (00_scope.md R9, R226). -/
def wrapPos (p : Params) (n : Int) : Int := n.bmod (2 ^ p.posBits)

/-- GRAY and POS after observing state o (R222 to R225). Sums of 2-bit words are modulo 4. -/
def Qdec.observe (p : Params) (o : BitVec 2) (x : Qdec) : Qdec :=
  if o = x.gray + 1 then { x with gray := o, pos := wrapPos p (x.pos + 1) }
  else if o = x.gray + 3 then { x with gray := o, pos := wrapPos p (x.pos - 1) }
  else if o = x.gray then x
  else
    match p.invalidPolicy with
    | .hold => x
    | .resync => { x with gray := o }

/-- Whether a poll at time t pushes a sample (R222, R228). The time difference is subtracted exactly (DESIGN CHOICE, log 29). -/
def Qdec.pushes (p : Params) (t : Word64) (x : Qdec) : Bool :=
  match x.lastT with
  | none => true
  | some t0 => x.lastPos ≠ some x.pos || (p.pollIntervalNs : Int) ≤ (t.toNat : Int) - (t0.toNat : Int)

/-- `signed(POS) / COUNTS_PER_UNIT` (R222, R228). COUNTS_PER_UNIT enters exactly, binary64 value or not (DESIGN CHOICE, log 28). -/
def sampleNum (p : Params) (pos : Int) : Num := Num.div p.numeric (.fin pos) (.fin p.countsPerUnit)

/-- The pushed value; where BINARY64 arithmetic yields no rational it is free (log 21). -/
def sampleValue (p : Params) (pos : Int) (w : World) : Rat :=
  Num.ratOr (Config.unstatedSample w.fresh) (sampleNum p pos)

/-- Whether an outcome is a rational. -/
def Num.isFin : Num → Bool
  | .fin _ => true
  | .inf _ => false
  | .nan => false

/-- The world once a pushed value is computed. -/
def World.afterSample (p : Params) (pos : Int) (w : World) : World :=
  { w with fresh := if (sampleNum p pos).isFin then w.fresh else w.fresh + 1 }

/-- `Push(t, v)` (R227). -/
def Qdec.push (p : Params) (e : Sample) (x : Qdec) : Qdec :=
  { x with
    ring := x.ring.set x.head e
    head := (x.head + 1) % p.ringSize
    count := min (x.count + 1) p.ringSize }

/-- The second half of `Poll()`, after the lines: the time, and the push if one is due (R222). -/
def Qdec.publish (p : Params) (x : Qdec) (w : World) : Qdec × World :=
  let t := w.nowValue
  if x.pushes p t then
    ({ x.push p ⟨t, sampleValue p x.pos w.afterNow⟩ with lastT := some t, lastPos := some x.pos },
      w.afterNow.afterSample p x.pos)
  else (x, w.afterNow)

/-- `Poll()` (R222): line A, then line B (R221), then the transition, then the push. -/
def Qdec.poll (p : Params) (x : Qdec) (w : World) : Qdec × World :=
  let a := w.lineNext x.pinA
  let b := w.afterLine.lineNext x.pinB
  (x.observe p (observed a b)).publish p w.afterLine.afterLine

/-! The ring (10_state.md R41). -/

/-- The ring index `back` places before HEAD, modulo RING_SIZE. -/
def ringIndex (p : Params) (x : Qdec) (back : Nat) : Nat :=
  (((x.head : Int) - (back : Int)) % (p.ringSize : Int)).toNat

/-- The sample pushed `back` pushes ago, 1 for the newest. -/
def Qdec.sample (p : Params) (x : Qdec) (back : Nat) : Sample := x.ring.getD (ringIndex p x back) ⟨0, 0⟩

def Qdec.newest (p : Params) (x : Qdec) : Sample := x.sample p 1

def Qdec.oldest (p : Params) (x : Qdec) : Sample := x.sample p x.count

/-- The valid samples, newest first. -/
def Qdec.samples (p : Params) (x : Qdec) : List Sample := (List.range x.count).map fun k => x.sample p (k + 1)

/-- `thr = now − window · 10^9` (R232). -/
def derivThreshold (p : Params) (now : Word64) (window : Rat) : Num :=
  Num.sub p.numeric (.fin now.toNat) (Num.mul p.numeric (.fin window) (.fin (10 ^ 9)))

/-- The newest sample older than the threshold, else the oldest (R232). -/
def Qdec.derivBase (p : Params) (now : Word64) (window : Rat) (x : Qdec) : Sample :=
  ((x.samples p).find? fun e => Num.lt (.fin e.t.toNat) (derivThreshold p now window)).getD (x.oldest p)

/-- `(newest.v − sel.v) · 10^9 / dt` (R232). The time difference `dt` enters as an exact integer (DESIGN CHOICE, log 29). -/
def derivative (p : Params) (newest sel : Rat) (dt : Int) : Num :=
  Num.div p.numeric (Num.mul p.numeric (Num.sub p.numeric (.fin newest) (.fin sel)) (.fin (10 ^ 9))) (.fin dt)

/-! The start of each command, which is also its end. -/

/-- R234. -/
def Qdec.startPoll (p : Params) (d : Nat) (x : Qdec) (w : World) : Qdec × World :=
  let r := x.poll p w
  Qdec.finish d .ok none r.1 r.2

/-- R231. -/
def Qdec.startGetpos (p : Params) (d : Nat) (x : Qdec) (w : World) : Qdec × World :=
  if x.count = 0 then Qdec.finish d .noValue none x w
  else
    Qdec.finish d .ok
      (some (Binary64.ofNum (Config.nanBits w.fresh) (Num.sub p.numeric (.fin (x.newest p).v) (.fin x.offset)))) x w

/-- R232. The time source is read only once the window and the ring have passed their checks. `now − sel.t` is subtracted exactly
(DESIGN CHOICE, log 29). -/
def Qdec.startGetderiv (p : Params) (d : Nat) (window : Word64) (x : Qdec) (w : World) : Qdec × World :=
  match realOperand window with
  | none => Qdec.finish d .rangeError none x w
  | some q =>
    if q < 0 then Qdec.finish d .rangeError none x w
    else if x.count = 0 then Qdec.finish d .noValue none x w
    else
      let sel := x.derivBase p w.nowValue q
      let dt : Int := (w.nowValue.toNat : Int) - (sel.t.toNat : Int)
      if dt ≤ 0 then Qdec.finish d .zeroInterval none x w.afterNow
      else
        Qdec.finish d .ok
          (some (Binary64.ofNum (Config.nanBits w.fresh) (derivative p (x.newest p).v sel.v dt))) x w.afterNow

/-- R233. -/
def Qdec.startReset (p : Params) (d : Nat) (x : Qdec) (w : World) : Qdec × World :=
  Qdec.finish d .ok none { x with offset := if 0 < x.count then (x.newest p).v else x.offset } w

/-- How a command that waited starts (20_memory.md R77). The commands of other units never wait here. -/
def Qdec.startJob (p : Params) (d : Nat) (j : Job) (x : Qdec) (w : World) : Qdec × World :=
  match j with
  | .illegal => Qdec.finish d .illegalCommand none x w
  | .command i =>
    match i with
    | .qdPoll _ => Qdec.startPoll p d x w
    | .qdGetpos _ => Qdec.startGetpos p d x w
    | .qdGetderiv _ window => Qdec.startGetderiv p d window x w
    | .qdReset _ => Qdec.startReset p d x w
    | .stSetmode _ _ | .stSetspr _ _ | .stSetinterval _ _ _ | .stOnestep _ | .stOnestepdir _ _ | .stStep _ _
    | .stRotate _ _ | .stGetstep _ | .stStop _ | .svSetlimits _ _ _ _ | .svSetrange _ _ _ | .svSetpw _ _
    | .svSetpos _ _ | .svGetpos _ => (x, w)

/-- One atomic action: the oldest waiting command, whole. -/
def Qdec.turn (p : Params) (d : Nat) (x : Qdec) (w : World) : Qdec × World :=
  match x.ctl.waiting with
  | [] => (x, w)
  | j :: js => Qdec.startJob p d j { x with ctl := { x.ctl with waiting := js } } w

/-! The meanings. -/

/-- A command to decoder d: illegal where there is none (30_encoding.md R97, R99), behind those before it where some wait
(20_memory.md R77), else run. After shutdown nothing runs. -/
def qdecCommand (d : Nat) (i : Instr) (start : Params → Qdec → World → Qdec × World) (s : State) :
    Host.Outcome State Fault Refusal :=
  if s.halted then .fault .halted
  else
    match s.qdec d with
    | none => .next s.noInstance
    | some x =>
      .next (s.putQdec d
        (if x.free then start s.params x s.world else ({ x with ctl := x.ctl.enqueue (.command i) }, s.world)))

/-- QD.POLL (R234). -/
def execQdPoll (d : Nat) (s : State) : Host.Outcome State Fault Refusal :=
  qdecCommand d (.qdPoll d) (fun p => Qdec.startPoll p d) s

/-- QD.GETPOS (R231). -/
def execQdGetpos (d : Nat) (s : State) : Host.Outcome State Fault Refusal :=
  qdecCommand d (.qdGetpos d) (fun p => Qdec.startGetpos p d) s

/-- QD.GETDERIV (R232). -/
def execQdGetderiv (d : Nat) (window : Word64) (s : State) : Host.Outcome State Fault Refusal :=
  qdecCommand d (.qdGetderiv d window) (fun p => Qdec.startGetderiv p d window) s

/-- QD.RESET (R233). -/
def execQdReset (d : Nat) (s : State) : Host.Outcome State Fault Refusal :=
  qdecCommand d (.qdReset d) (fun p => Qdec.startReset p d) s

end Sys2Proof.Machine
end

