-- ==== Sys2Proof/Machine/Servo.lean ====
section
/-! DEFINITION. The servo pulse-width positioner (41_servo.md): the start of each command, the atomic actions of a command in
flight, running one to its end, and the meaning of each SV command. -/

namespace Sys2Proof.Machine

/-! Formulas. -/

/-- `period = 1000 / FREQ_HZ` milliseconds (R180). FREQ_HZ enters exactly, binary64 value or not (DESIGN CHOICE, log 28). -/
def servoPeriod (p : Params) (freq : Rat) : Num := Num.div p.numeric (.fin 1000) (.fin freq)

/-- `duty(ms) = max(0, round((ms / period) · 4095))` (R183). The product is a finite number wherever ms ≤ period, which is
checked before (R184). -/
def servoDuty (p : Params) (freq ms : Rat) : Timing :=
  match Num.mul p.numeric (Num.div p.numeric (.fin ms) (servoPeriod p freq)) (.fin 4095) with
  | .fin q => BitVec.ofInt 13 (max 0 (roundHalfUp q))
  | .inf _ => 0
  | .nan => 0

/-- The line through (MINX, MAXPW) and (MAXX, MINPW), before clamping (R186). The limits of SERVO_LIMITS_DEFAULT enter exactly,
binary64 values or not (DESIGN CHOICE, log 28). -/
def servoLine (p : Params) (v : Servo) (x : Rat) : Num :=
  Num.add p.numeric (.fin v.limits.max)
    (Num.div p.numeric
      (Num.mul p.numeric (Num.sub p.numeric (.fin x) (.fin v.minX))
        (Num.sub p.numeric (.fin v.limits.min) (.fin v.limits.max)))
      (Num.sub p.numeric (.fin v.maxX) (.fin v.minX)))

/-- `min(max(pw, MINPW), MAXPW)` (R186). A pulse width that BINARY64 arithmetic does not yield is free, and clamped all the
same (log 14). -/
def clampWidth (l : Limits) (free : Rat) : Num → Rat
  | .fin q => min (max q l.min) l.max
  | .inf true => min l.min l.max
  | .inf false => l.max
  | .nan => min (max free l.min) l.max

/-- Whether a formula's outcome is no number. -/
def Num.isNan : Num → Bool
  | .fin _ => false
  | .inf _ => false
  | .nan => true

/-- The pulse width of position x (R186). -/
def servoWidth (p : Params) (v : Servo) (x : Rat) (w : World) : Rat :=
  clampWidth v.limits (Config.unstatedWidth w.fresh) (servoLine p v x)

/-- The world once the pulse width is computed: a free value, where one was needed, is not drawn again (log 14). -/
def World.afterWidth (p : Params) (v : Servo) (x : Rat) (w : World) : World :=
  { w with fresh := if (servoLine p v x).isNan then w.fresh + 1 else w.fresh }

/-! Running a command in flight to its end. -/

/-- The end of a command whose writes were all accepted: SV.SETPOS commits its position (R186). -/
def Servo.commit (j : Nat) (pos : Option Rat) (x : Servo) (w : World) : Servo × World :=
  Servo.finish j .ok none { x with pos := if pos.isSome then pos else x.pos } w

/-- Run the command in flight, if any, to its end, no other agent moving meanwhile. -/
def Servo.complete (p : Params) (j : Nat) (x : Servo) (w : World) : Servo × World :=
  match x.flight with
  | none => (x, w)
  | some (.writing todo pos) =>
    let r := issueWrites p todo w
    if r.1 then Servo.commit j pos x r.2 else Servo.finish j .busError none x (r.2.allStop p)
  | some (.stopping st) => Servo.finish j st none x (w.allStop p)
  | some (.ending st) => Servo.finish j st none x w

/-! The start of each command: everything before its first register write. -/

/-- R181. -/
def Servo.startSetlimits (j : Nat) (mn ne mx : Word64) (x : Servo) (w : World) : Servo × World :=
  match realOperand mn, realOperand ne, realOperand mx with
  | some a, some b, some c =>
    if 0 < a ∧ a < b ∧ b < c then Servo.finish j .ok none { x with limits := ⟨a, b, c⟩ } w
    else Servo.finish j .rangeError none x w
  | _, _, _ => Servo.finish j .rangeError none x w

/-- R182. -/
def Servo.startSetrange (j : Nat) (mn mx : Word64) (x : Servo) (w : World) : Servo × World :=
  match realOperand mn, realOperand mx with
  | some a, some b =>
    if a < b then Servo.finish j .ok none { x with minX := a, maxX := b } w else Servo.finish j .rangeError none x w
  | _, _ => Servo.finish j .rangeError none x w

/-- `SetPwBody` (R184): the checks against the limits and the period, then the channel write ON = 0, OFF = duty (R190). -/
def Servo.startWidth (p : Params) (j : Nat) (ms : Rat) (pos : Option Rat) (x : Servo) (w : World) : Servo × World :=
  if ms < x.limits.min ∨ x.limits.max < ms then Servo.finish j .rangeError none x w
  else if Num.lt (servoPeriod p w.freqHz) (.fin ms) then Servo.finish j .rangeError none x w
  else ({ x with flight := some (.writing (channelWrites p x.ch 0 (servoDuty p w.freqHz ms)) pos) }, w)

/-- R184. -/
def Servo.startSetpw (p : Params) (j : Nat) (ms : Word64) (x : Servo) (w : World) : Servo × World :=
  match realOperand ms with
  | none => Servo.finish j .rangeError none x w
  | some q => Servo.startWidth p j q none x w

/-- R186. -/
def Servo.startSetpos (p : Params) (j : Nat) (pos : Word64) (x : Servo) (w : World) : Servo × World :=
  match realOperand pos with
  | none => Servo.finish j .rangeError none x w
  | some q =>
    if q < x.minX ∨ x.maxX < q then Servo.finish j .rangeError none x w
    else Servo.startWidth p j (servoWidth p x q w) (some q) x (w.afterWidth p x q)

/-- R188. -/
def Servo.startGetpos (j : Nat) (x : Servo) (w : World) : Servo × World :=
  match x.pos with
  | none => Servo.finish j .noValue none x w
  | some q => Servo.finish j .ok (some (Binary64.ofRat q)) x w

/-- How a command that waited starts (20_memory.md R77). The commands of other units never wait here. -/
def Servo.startJob (p : Params) (k : Nat) (j : Job) (x : Servo) (w : World) : Servo × World :=
  match j with
  | .illegal => Servo.finish k .illegalCommand none x w
  | .command i =>
    match i with
    | .svSetlimits _ a b c => Servo.startSetlimits k a b c x w
    | .svSetrange _ a b => Servo.startSetrange k a b x w
    | .svSetpw _ ms => Servo.startSetpw p k ms x w
    | .svSetpos _ q => Servo.startSetpos p k q x w
    | .svGetpos _ => Servo.startGetpos k x w
    | .stSetmode _ _ | .stSetspr _ _ | .stSetinterval _ _ _ | .stOnestep _ | .stOnestepdir _ _ | .stStep _ _
    | .stRotate _ _ | .stGetstep _ | .stStop _ | .qdPoll _ | .qdGetpos _ | .qdGetderiv _ _ | .qdReset _ => (x, w)

/-- One atomic action (20_memory.md R74). Other agents may move between the all-stop and the end of the command (R75). -/
def Servo.turn (p : Params) (j : Nat) (x : Servo) (w : World) : Servo × World :=
  match x.flight with
  | none =>
    match x.ctl.waiting with
    | [] => (x, w)
    | job :: rest => Servo.startJob p j job { x with ctl := { x.ctl with waiting := rest } } w
  | some (.writing (r :: rs) pos) =>
    if w.busNext = .ok then ({ x with flight := some (.writing rs pos) }, w.regWrite p r)
    else ({ x with flight := some (.stopping .busError) }, w.regWrite p r)
  | some (.writing [] pos) => Servo.commit j pos x w
  | some (.stopping st) => ({ x with flight := some (.ending st) }, w.allStop p)
  | some (.ending st) => Servo.finish j st none x w

/-! The meanings. -/

/-- A command to servo j: illegal where none is bound (30_encoding.md R97, R99), behind those before it where the instance
is not free (20_memory.md R77), else started and run to its end. After shutdown nothing runs. -/
def servoCommand (j : Nat) (i : Instr) (start : Params → Servo → World → Servo × World) (s : State) :
    Host.Outcome State Fault Refusal :=
  if s.halted then .fault .halted
  else
    match s.servo j with
    | none => .next s.noInstance
    | some x =>
      .next (s.putServo j
        (if x.free then
          let r := start s.params x s.world
          Servo.complete s.params j r.1 r.2
        else ({ x with ctl := x.ctl.enqueue (.command i) }, s.world)))

/-- SV.SETLIMITS (R181). -/
def execSvSetlimits (j : Nat) (mn ne mx : Word64) (s : State) : Host.Outcome State Fault Refusal :=
  servoCommand j (.svSetlimits j mn ne mx) (fun _ => Servo.startSetlimits j mn ne mx) s

/-- SV.SETRANGE (R182). -/
def execSvSetrange (j : Nat) (mn mx : Word64) (s : State) : Host.Outcome State Fault Refusal :=
  servoCommand j (.svSetrange j mn mx) (fun _ => Servo.startSetrange j mn mx) s

/-- SV.SETPW (R184). -/
def execSvSetpw (j : Nat) (ms : Word64) (s : State) : Host.Outcome State Fault Refusal :=
  servoCommand j (.svSetpw j ms) (fun p => Servo.startSetpw p j ms) s

/-- SV.SETPOS (R186). -/
def execSvSetpos (j : Nat) (q : Word64) (s : State) : Host.Outcome State Fault Refusal :=
  servoCommand j (.svSetpos j q) (fun p => Servo.startSetpos p j q) s

/-- SV.GETPOS (R188). -/
def execSvGetpos (j : Nat) (s : State) : Host.Outcome State Fault Refusal :=
  servoCommand j (.svGetpos j) (fun _ => Servo.startGetpos j) s

end Sys2Proof.Machine
end

