-- ==== Sys2Proof/Machine/Tables.lean ====
section
/-! DEFINITION. The stepper's coil-energization tables and the register writes of one entry (40_stepper.md R120 to R128). -/

namespace Sys2Proof.Machine

/-- Table length `L(mode)` (R120). -/
def tableLength : Mode → Nat
  | .singlePhase => 4
  | .doublePhase => 4
  | .halfStep => 8
  | .multiStep => 32

/-- The table index `idx(s, M)` (R125). -/
def tableIndex (conv : IndexConv) (m : Mode) (s : Int) : Nat :=
  match conv with
  | .floorMod => ((s - 1) % (tableLength m : Int)).toNat
  | .absLegacy => (s - 1).natAbs % tableLength m

/-- A coil's polarity: which way its current flows (R121). -/
inductive Polarity where
  | plus
  | minus
deriving DecidableEq, Repr

/-- One table entry: polarity and duty of coil A and of coil B. -/
structure Entry where
  polA : Polarity
  dutyA : Timing
  polB : Polarity
  dutyB : Timing
deriving DecidableEq, Repr

/-- The quadrant polarity table `P4` (R121). -/
def quadrant : Nat → Polarity × Polarity
  | 0 => (.plus, .plus)
  | 1 => (.minus, .plus)
  | 2 => (.minus, .minus)
  | _ => (.plus, .minus)

/-- `C[k]` of MICROSTEP_CURVE, with C[0] = 0 and C[8] = 4095 fixed (R126). -/
def curveAt (c : Curve) : Nat → Timing
  | 0 => 0
  | 1 => c.c1.zeroExtend 13
  | 2 => c.c2.zeroExtend 13
  | 3 => c.c3.zeroExtend 13
  | 4 => c.c4.zeroExtend 13
  | 5 => c.c5.zeroExtend 13
  | 6 => c.c6.zeroExtend 13
  | 7 => c.c7.zeroExtend 13
  | _ => 4095

/-- The duty of coils A and B at entry i (R122, R123, R124, R126). -/
def dutyPair (c : Curve) (m : Mode) (i : Nat) : Timing × Timing :=
  match m with
  | .singlePhase => if i % 2 = 0 then (4095, 0) else (0, 4095)
  | .doublePhase => (4095, 4095)
  | .halfStep =>
    if i % 2 = 1 then (4095, 4095)
    else if i / 2 % 2 = 0 then (4095, 0) else (0, 4095)
  | .multiStep =>
    if i / 8 % 2 = 0 then (curveAt c (8 - i % 8), curveAt c (i % 8)) else (curveAt c (i % 8), curveAt c (8 - i % 8))

/-- The quadrant an entry's polarity is taken from (R122, R123, R124, R126). -/
def quadrantOf (m : Mode) (i : Nat) : Nat :=
  match m with
  | .singlePhase => i
  | .doublePhase => i
  | .halfStep => i / 2
  | .multiStep => i / 8

/-- Entry i of mode m's table. -/
def tableEntry (c : Curve) (m : Mode) (i : Nat) : Entry :=
  let pol := quadrant (quadrantOf m i)
  let duty := dutyPair c m i
  ⟨pol.1, duty.1, pol.2, duty.2⟩

/-- IN1 and IN2 of a coil, from its polarity (R127). -/
def in1Level (p : Params) : Polarity → Level
  | .plus => p.levelHigh
  | .minus => p.levelLow

def in2Level (p : Params) : Polarity → Level
  | .plus => p.levelLow
  | .minus => p.levelHigh

/-- The three channel writes of one coil (R128). -/
def coilWrites (p : Params) (c : Coil) (pol : Polarity) (duty : Timing) : List RegW :=
  channelWrites p c.pwm 0 duty ++ (levelWrites p c.in1 (in1Level p pol) ++ levelWrites p c.in2 (in2Level p pol))

/-- The register writes of `EmitCoils` (R128). -/
def entryWrites (p : Params) (c : Coils) (e : Entry) : List RegW :=
  coilWrites p c.a e.polA e.dutyA ++ coilWrites p c.b e.polB e.dutyB

/-- The register writes of `StopCore`: 0 to all six channels (R145). -/
def stopWrites (p : Params) (c : Coils) : List RegW :=
  [c.a.pwm, c.a.in1, c.a.in2, c.b.pwm, c.b.in1, c.b.in2].flatMap fun ch => channelWrites p ch 0 0

end Sys2Proof.Machine
end

