-- ==== Sys2Proof/Machine/Stepper.lean ====
section
/-! DEFINITION. The stepper motor phase sequencer (40_stepper.md): the start of each command, the atomic actions of a command
in flight, running one to its end, and the meaning of each ST command. -/

namespace Sys2Proof.Machine

/-! One step (R129). -/

/-- The counter's move of one step, modulo 2^64 (R129, 10_state.md R24). -/
def stepDelta : Dir → Word64
  | .forward => 1
  | .reverse => -1

/-- The counter and output half of `OneStepCore`: the counter moves before any write (R129). -/
def Stepper.advance (x : Stepper) : Stepper := { x with step := x.step + stepDelta x.dir }

/-- The register writes `EmitCoils` issues for the counter as it stands (R125, R128, R129). -/
def Stepper.writes (p : Params) (x : Stepper) : List RegW :=
  entryWrites p x.coils (tableEntry p.curve x.mode (tableIndex p.indexConv x.mode x.step.toInt))

/-! Pacing (R138). -/

/-- Steps still to issue (10_state.md R30). -/
def Stepper.remaining (x : Stepper) : Nat :=
  match x.run with
  | .idle => 0
  | .running n _ => n

/-- The time the current step started at (10_state.md R30). -/
def Stepper.startTime (x : Stepper) : Option Word64 :=
  match x.run with
  | .idle => none
  | .running _ t => t

/-- What follows a paced step's writes (R138). -/
inductive Pace where
  /-- on to the next step: no interval, or the deadline met exactly, or missed without KILL -/
  | onward
  /-- sleep the remainder, until `wakeAt` -/
  | sleep (wakeAt : Nat)
  /-- the deadline is missed under KILL -/
  | late
deriving DecidableEq, Repr

/-- `T = INTERVAL · 10^6` nanoseconds (R138). -/
def paceTime (p : Params) (interval : Rat) : Num := Num.mul p.numeric (.fin interval) (.fin (10 ^ 6))

/-- `ceil(T − el)` nanoseconds; a remainder with no finite value is more than the 64-bit time source can count (log 13). -/
def sleepNs (p : Params) (interval : Rat) (el : Int) : Nat :=
  match Num.sub p.numeric (paceTime p interval) (.fin el) with
  | .fin q => q.ceil.toNat
  | .inf _ => 2 ^ 64
  | .nan => 2 ^ 64

/-- The elapsed time of the current step at time `t` (R138), subtracted exactly (DESIGN CHOICE, log 29). -/
def Stepper.elapsed (x : Stepper) (t : Word64) : Int := (t.toNat : Int) - ((x.startTime.getD 0).toNat : Int)

/-- The deadline check of `PacedStep` (R138). The time source is read only when INTERVAL > 0. -/
def Stepper.pace (p : Params) (x : Stepper) (w : World) : Pace × World :=
  if 0 < x.interval then
    let el := x.elapsed w.nowValue
    let pace : Pace :=
      if Num.lt (.fin el) (paceTime p x.interval) then .sleep (w.nowValue.toNat + sleepNs p x.interval el)
      else if Num.lt (paceTime p x.interval) (.fin el) && x.kill then .late
      else .onward
    (pace, w.afterNow)
  else (.onward, w)

/-- `PacedStep` up to its writes: the start time, the counter, and the writes now to issue (R138, R129). -/
def Stepper.beginPaced (p : Params) (x : Stepper) (w : World) : Stepper × World :=
  let y := Stepper.advance { x with run := .running x.remaining (some w.nowValue) }
  ({ y with flight := some (.writing (y.writes p) true) }, w.afterNow)

/-- One step of the run is done (R137). -/
def Stepper.stepDone (x : Stepper) : Stepper :=
  { x with run := .running (x.remaining - 1) x.startTime, flight := some .stepping }

/-! Errors (60_exceptions.md R273; R138). -/

/-- RUN idle, then the all-stop, then the status. -/
def Stepper.stopAndEnd (p : Params) (k : Nat) (st : Status) (x : Stepper) (w : World) : Stepper × World :=
  Stepper.finish k st none { x with run := .idle } (w.allStop p)

/-! Running a command in flight to its end, no other agent moving meanwhile. -/

/-- A paced step from its writes on, then the rest of the run (R138). A sleep the time source can never end leaves the
command in flight (log 13). -/
def Stepper.finishPaced (p : Params) (k : Nat) (rest : Stepper → World → Stepper × World) (todo : List RegW)
    (x : Stepper) (w : World) : Stepper × World :=
  let r := issueWrites p todo w
  if r.1 then
    let d := x.pace p r.2
    match d.1 with
    | .onward => rest x.stepDone d.2
    | .late => Stepper.stopAndEnd p k .timingError x d.2
    | .sleep wakeAt =>
      if canWake wakeAt then rest x.stepDone (d.2.wake wakeAt) else ({ x with flight := some (.sleeping wakeAt) }, d.2)
  else Stepper.stopAndEnd p k .busError x r.2

/-- ST.STEP's loop with `n` steps still to issue (R137). -/
def Stepper.runLoop (p : Params) (k : Nat) : Nat → Stepper → World → Stepper × World
  | 0, x, w => Stepper.finish k .ok none { x with run := .idle } w
  | n + 1, x, w =>
    let b := Stepper.beginPaced p x w
    Stepper.finishPaced p k (Stepper.runLoop p k n) (b.1.writes p) b.1 b.2

/-- Run the command in flight, if any, to its end. -/
def Stepper.complete (p : Params) (k : Nat) (x : Stepper) (w : World) : Stepper × World :=
  match x.flight with
  | none => (x, w)
  | some .stepping => Stepper.runLoop p k x.remaining x w
  | some (.writing todo true) => Stepper.finishPaced p k (Stepper.runLoop p k (x.remaining - 1)) todo x w
  | some (.writing todo false) =>
    let r := issueWrites p todo w
    if r.1 then Stepper.finish k .ok none x r.2 else Stepper.stopAndEnd p k .busError x r.2
  | some (.sleeping wakeAt) =>
    if canWake wakeAt then Stepper.runLoop p k (x.remaining - 1) x.stepDone (w.wake wakeAt) else (x, w)
  | some (.stopping st) => Stepper.finish k st none x (w.allStop p)
  | some (.ending st) => Stepper.finish k st none x w

/-! The start of each command: everything before its first register write. -/

/-- R130. -/
def Stepper.startSetmode (k : Nat) (m : Mode) (x : Stepper) (w : World) : Stepper × World :=
  Stepper.finish k .ok none { x with mode := m, step := 0 } w

/-- R131. -/
def Stepper.startSetspr (k : Nat) (v : BitVec 32) (x : Stepper) (w : World) : Stepper × World :=
  if v = 0 then Stepper.finish k .configurationError none x w else Stepper.finish k .ok none { x with spr := some v } w

/-- R132. -/
def Stepper.startSetinterval (k : Nat) (ms : Word64) (kill : Bool) (x : Stepper) (w : World) : Stepper × World :=
  match realOperand ms with
  | none => Stepper.finish k .configurationError none x w
  | some q =>
    if q < 0 then Stepper.finish k .configurationError none x w
    else Stepper.finish k .ok none { x with interval := q, kill := kill } w

/-- R134: the counter moves, and the entry's writes are to be issued. -/
def Stepper.startOnestep (p : Params) (x : Stepper) (w : World) : Stepper × World :=
  let y := x.advance
  ({ y with flight := some (.writing (y.writes p) false) }, w)

/-- R135. -/
def Stepper.startOnestepdir (p : Params) (d : Dir) (x : Stepper) (w : World) : Stepper × World :=
  Stepper.startOnestep p { x with dir := d } w

/-- R145. -/
def Stepper.startStop (p : Params) (x : Stepper) (w : World) : Stepper × World :=
  ({ x with flight := some (.writing (stopWrites p x.coils) false) }, w)

/-- The direction a nonzero count turns in (R137). -/
def dirOfCount (n : Int) : Dir := if 0 < n then .forward else .reverse

/-- The body of ST.STEP up to its first step (R137). -/
def Stepper.startCount (p : Params) (n : Int) (x : Stepper) (w : World) : Stepper × World :=
  if n = 0 then Stepper.startStop p x w
  else ({ x with dir := dirOfCount n, run := .running n.natAbs none, flight := some .stepping }, w)

/-- R137. -/
def Stepper.startStep (p : Params) (n : Word64) (x : Stepper) (w : World) : Stepper × World :=
  Stepper.startCount p (intOperand n) x w

/-- `round(revs · SPR)`, none where the product has no finite value (R143). -/
def rotateCount (p : Params) (spr : BitVec 32) (revs : Rat) : Option Int :=
  match Num.mul p.numeric (.fin revs) (.fin spr.toNat) with
  | .fin q => some (roundHalfUp q)
  | .inf _ => none
  | .nan => none

/-- R143: the unset SPR is found first, then the operand, then the count. -/
def Stepper.startRotate (p : Params) (k : Nat) (revs : Word64) (x : Stepper) (w : World) : Stepper × World :=
  match x.spr with
  | none => Stepper.finish k .configurationError none x w
  | some spr =>
    match realOperand revs with
    | none => Stepper.finish k .rangeError none x w
    | some q =>
      match rotateCount p spr q with
      | none => Stepper.finish k .rangeError none x w
      | some n => if fitsI64 n then Stepper.startCount p n x w else Stepper.finish k .rangeError none x w

/-- R144. -/
def Stepper.startGetstep (k : Nat) (x : Stepper) (w : World) : Stepper × World :=
  Stepper.finish k .ok (some x.step) x w

/-- How a command that waited starts (20_memory.md R77). The commands of other units never wait here. -/
def Stepper.startJob (p : Params) (k : Nat) (j : Job) (x : Stepper) (w : World) : Stepper × World :=
  match j with
  | .illegal => Stepper.finish k .illegalCommand none x w
  | .command i =>
    match i with
    | .stSetmode _ m => Stepper.startSetmode k m x w
    | .stSetspr _ v => Stepper.startSetspr k v x w
    | .stSetinterval _ ms kill => Stepper.startSetinterval k ms kill x w
    | .stOnestep _ => Stepper.startOnestep p x w
    | .stOnestepdir _ d => Stepper.startOnestepdir p d x w
    | .stStep _ n => Stepper.startStep p n x w
    | .stRotate _ revs => Stepper.startRotate p k revs x w
    | .stGetstep _ => Stepper.startGetstep k x w
    | .stStop _ => Stepper.startStop p x w
    | .svSetlimits _ _ _ _ | .svSetrange _ _ _ | .svSetpw _ _ | .svSetpos _ _ | .svGetpos _
    | .qdPoll _ | .qdGetpos _ | .qdGetderiv _ _ | .qdReset _ => (x, w)

/-! One atomic action (20_memory.md R74). -/

/-- What the instance does at its next turn: start a waiting command, issue one register write, check a deadline, wake,
send the all-stop, or end the command. Other agents may move between the all-stop and the end (R75; 40_stepper.md R141). -/
def Stepper.turn (p : Params) (k : Nat) (x : Stepper) (w : World) : Stepper × World :=
  match x.flight with
  | none =>
    match x.ctl.waiting with
    | [] => (x, w)
    | j :: js => Stepper.startJob p k j { x with ctl := { x.ctl with waiting := js } } w
  | some .stepping =>
    if x.remaining = 0 then Stepper.finish k .ok none { x with run := .idle } w else Stepper.beginPaced p x w
  | some (.writing (r :: rs) paced) =>
    if w.busNext = .ok then ({ x with flight := some (.writing rs paced) }, w.regWrite p r)
    else ({ x with run := .idle, flight := some (.stopping .busError) }, w.regWrite p r)
  | some (.writing [] false) => Stepper.finish k .ok none x w
  | some (.writing [] true) =>
    let d := x.pace p w
    match d.1 with
    | .onward => (x.stepDone, d.2)
    | .late => ({ x with run := .idle, flight := some (.stopping .timingError) }, d.2)
    | .sleep wakeAt => ({ x with flight := some (.sleeping wakeAt) }, d.2)
  | some (.sleeping wakeAt) => if canWake wakeAt then (x.stepDone, w.wake wakeAt) else (x, w)
  | some (.stopping st) => ({ x with flight := some (.ending st) }, w.allStop p)
  | some (.ending st) => Stepper.finish k st none x w

/-! The meanings. -/

/-- A command to stepper k: illegal where none is bound (30_encoding.md R97, R99), behind those before it where the
instance is not free (20_memory.md R77), else started and run to its end. After shutdown nothing runs. -/
def stepperCommand (k : Nat) (i : Instr) (start : Params → Stepper → World → Stepper × World) (s : State) :
    Host.Outcome State Fault Refusal :=
  if s.halted then .fault .halted
  else
    match s.stepper k with
    | none => .next s.noInstance
    | some x =>
      .next (s.putStepper k
        (if x.free then
          let r := start s.params x s.world
          Stepper.complete s.params k r.1 r.2
        else ({ x with ctl := x.ctl.enqueue (.command i) }, s.world)))

/-- ST.SETMODE (R130). -/
def execStSetmode (k : Nat) (m : Mode) (s : State) : Host.Outcome State Fault Refusal :=
  stepperCommand k (.stSetmode k m) (fun _ => Stepper.startSetmode k m) s

/-- ST.SETSPR (R131). -/
def execStSetspr (k : Nat) (v : BitVec 32) (s : State) : Host.Outcome State Fault Refusal :=
  stepperCommand k (.stSetspr k v) (fun _ => Stepper.startSetspr k v) s

/-- ST.SETINTERVAL (R132). -/
def execStSetinterval (k : Nat) (ms : Word64) (kill : Bool) (s : State) : Host.Outcome State Fault Refusal :=
  stepperCommand k (.stSetinterval k ms kill) (fun _ => Stepper.startSetinterval k ms kill) s

/-- ST.ONESTEP (R134). -/
def execStOnestep (k : Nat) (s : State) : Host.Outcome State Fault Refusal :=
  stepperCommand k (.stOnestep k) (fun p => Stepper.startOnestep p) s

/-- ST.ONESTEPDIR (R135). -/
def execStOnestepdir (k : Nat) (d : Dir) (s : State) : Host.Outcome State Fault Refusal :=
  stepperCommand k (.stOnestepdir k d) (fun p => Stepper.startOnestepdir p d) s

/-- ST.STEP (R137). -/
def execStStep (k : Nat) (n : Word64) (s : State) : Host.Outcome State Fault Refusal :=
  stepperCommand k (.stStep k n) (fun p => Stepper.startStep p n) s

/-- ST.ROTATE (R143). -/
def execStRotate (k : Nat) (revs : Word64) (s : State) : Host.Outcome State Fault Refusal :=
  stepperCommand k (.stRotate k revs) (fun p => Stepper.startRotate p k revs) s

/-- ST.GETSTEP (R144). -/
def execStGetstep (k : Nat) (s : State) : Host.Outcome State Fault Refusal :=
  stepperCommand k (.stGetstep k) (fun _ => Stepper.startGetstep k) s

/-- ST.STOP (R145). -/
def execStStop (k : Nat) (s : State) : Host.Outcome State Fault Refusal :=
  stepperCommand k (.stStop k) (fun p => Stepper.startStop p) s

end Sys2Proof.Machine
end

