-- ==== Sys2Proof/Machine/Dispatch.lean ====
section
/-! DEFINITION. The meaning of every command, one arm each (30_encoding.md R96). -/

namespace Sys2Proof.Machine

def exec (i : Instr) (s : State) : Host.Outcome State Fault Refusal :=
  match i with
  | .stSetmode k m => Sys2Proof.Machine.execStSetmode k m s
  | .stSetspr k v => Sys2Proof.Machine.execStSetspr k v s
  | .stSetinterval k ms kill => Sys2Proof.Machine.execStSetinterval k ms kill s
  | .stOnestep k => Sys2Proof.Machine.execStOnestep k s
  | .stOnestepdir k d => Sys2Proof.Machine.execStOnestepdir k d s
  | .stStep k n => Sys2Proof.Machine.execStStep k n s
  | .stRotate k revs => Sys2Proof.Machine.execStRotate k revs s
  | .stGetstep k => Sys2Proof.Machine.execStGetstep k s
  | .stStop k => Sys2Proof.Machine.execStStop k s
  | .svSetlimits j mn ne mx => Sys2Proof.Machine.execSvSetlimits j mn ne mx s
  | .svSetrange j mn mx => Sys2Proof.Machine.execSvSetrange j mn mx s
  | .svSetpw j ms => Sys2Proof.Machine.execSvSetpw j ms s
  | .svSetpos j x => Sys2Proof.Machine.execSvSetpos j x s
  | .svGetpos j => Sys2Proof.Machine.execSvGetpos j s
  | .qdPoll d => Sys2Proof.Machine.execQdPoll d s
  | .qdGetpos d => Sys2Proof.Machine.execQdGetpos d s
  | .qdGetderiv d window => Sys2Proof.Machine.execQdGetderiv d window s
  | .qdReset d => Sys2Proof.Machine.execQdReset d s

end Sys2Proof.Machine
end

