-- ==== Sys2Proof/Machine/Agents.lean ====
section
/-! DEFINITION. What a step of each agent does (10_state.md R20, 60_exceptions.md R300, R301): the host's frames, the
scheduler's turns and polls, shutdown, and the moves of those who share the PWM device. -/

namespace Sys2Proof.Machine

/-! Illegal frames and commands sent to wait (30_encoding.md R99, 20_memory.md R77; log 11, log 12). -/

/-- An illegal frame whose header addresses `t`: ILLEGAL_COMMAND at a bound instance, in its order there; an answer to
the host alone where none is bound. -/
def State.rejectAt (t : Target) (s : State) : State :=
  match t.kind with
  | .stepper =>
    match s.stepper t.inst with
    | none => s.noInstance
    | some x =>
      s.putStepper t.inst
        (if x.free then Stepper.finish t.inst .illegalCommand none x s.world
        else ({ x with ctl := x.ctl.enqueue .illegal }, s.world))
  | .servo =>
    match s.servo t.inst with
    | none => s.noInstance
    | some x =>
      s.putServo t.inst
        (if x.free then Servo.finish t.inst .illegalCommand none x s.world
        else ({ x with ctl := x.ctl.enqueue .illegal }, s.world))
  | .qdec =>
    match s.qdec t.inst with
    | none => s.noInstance
    | some x =>
      s.putQdec t.inst
        (if x.free then Qdec.finish t.inst .illegalCommand none x s.world
        else ({ x with ctl := x.ctl.enqueue .illegal }, s.world))

/-- An illegal frame. -/
def State.rejectFrame (bytes : List Byte) (s : State) : State :=
  match frameTarget bytes with
  | none => s.noInstance
  | some t => s.rejectAt t

/-- A job joins those waiting at `t`, to be taken up on a later turn. -/
def State.sendJob (t : Target) (j : Job) (s : State) : State :=
  match t.kind with
  | .stepper =>
    match s.stepper t.inst with
    | none => s.noInstance
    | some x => s.putStepper t.inst ({ x with ctl := x.ctl.enqueue j }, s.world)
  | .servo =>
    match s.servo t.inst with
    | none => s.noInstance
    | some x => s.putServo t.inst ({ x with ctl := x.ctl.enqueue j }, s.world)
  | .qdec =>
    match s.qdec t.inst with
    | none => s.noInstance
    | some x => s.putQdec t.inst ({ x with ctl := x.ctl.enqueue j }, s.world)

/-- The host sends a frame and other agents may move before the addressed instance takes it up (20_memory.md R74). -/
def State.sendFrame (bytes : List Byte) (s : State) : State :=
  match decode bytes with
  | .ok i => s.sendJob i.target (.command i)
  | .error _ =>
    match frameTarget bytes with
    | none => s.noInstance
    | some t => s.sendJob t .illegal

/-! The instances' own steps. -/

/-- The next atomic action of an instance, none where it is not bound. -/
def State.turnOf (t : Target) (s : State) : Option State :=
  match t.kind with
  | .stepper => (s.stepper t.inst).map fun x => s.putStepper t.inst (Stepper.turn s.params t.inst x s.world)
  | .servo => (s.servo t.inst).map fun x => s.putServo t.inst (Servo.turn s.params t.inst x s.world)
  | .qdec => (s.qdec t.inst).map fun x => s.putQdec t.inst (Qdec.turn s.params t.inst x s.world)

/-- A poll of decoder d by itself (42_quadrature.md R229). -/
def State.pollOf (d : Nat) (s : State) : Option State :=
  (s.qdec d).map fun x => s.putQdec d (x.poll s.params s.world)

/-! Shutdown (60_exceptions.md R300; log 16). -/

/-- A stepper once halted: its command, and those waiting, end with no status. -/
def Stepper.halt (x : Stepper) : Stepper :=
  { x with run := .idle, flight := none, ctl := { x.ctl with waiting := [] } }

def Servo.halt (x : Servo) : Servo := { x with flight := none, ctl := { x.ctl with waiting := [] } }

def Qdec.halt (x : Qdec) : Qdec := { x with ctl := { x.ctl with waiting := [] } }

/-- All-stop, then every agent is halted, in one move: no running instance's write comes between (DESIGN CHOICE, log 16). -/
def State.shutdown (s : State) : State :=
  { s with
    st := s.st.map (Option.map Stepper.halt)
    sv := s.sv.map (Option.map Servo.halt)
    qd := s.qd.map Qdec.halt
    world := s.world.allStop s.params
    halted := true }

/-! Others who use the PWM device (20_memory.md R71; 60_exceptions.md R301; log 18). -/

/-- The four registers of a channel (20_memory.md R63, R65). -/
def channelAddrs (p : Params) (ch : Channel) : List RegAddr :=
  [chanAddr p ch, chanAddr p ch + 1, chanAddr p ch + 2, chanAddr p ch + 3]

/-- The channels a stepper is bound to (10_state.md R29). -/
def Stepper.channels (x : Stepper) : List Channel :=
  [x.coils.a.pwm, x.coils.a.in1, x.coils.a.in2, x.coils.b.pwm, x.coils.b.in1, x.coils.b.in2]

/-- The registers a stepper may write (20_memory.md R61). -/
def Stepper.addrs (p : Params) (x : Stepper) : List RegAddr := x.channels.flatMap (channelAddrs p)

/-- The registers a servo may write (20_memory.md R61). -/
def Servo.addrs (p : Params) (x : Servo) : List RegAddr := channelAddrs p x.ch

/-- Every register the block may write: those of the bound channels, and the all-channels registers (20_memory.md R61). -/
def State.blockAddrs (s : State) : List RegAddr :=
  s.st.flatMap (fun o => match o with
    | none => []
    | some x => x.addrs s.params) ++
  (s.sv.flatMap (fun o => match o with
    | none => []
    | some x => x.addrs s.params) ++ allStopAddrs s.params)

/-- A register write of another user, accepted by the device. -/
def State.outsideWrite (a : RegAddr) (b : Byte) (s : State) : State :=
  { s with world := { s.world with regs := Memory.write s.world.regs a.toNat b } }

/-- The all-stop sent by another unit: every output off, and no field of an instance changed (60_exceptions.md R275). -/
def State.outsideAllStop (s : State) : State := { s with world := s.world.allStop s.params }

def State.setFreq (hz : Rat) (s : State) : State := { s with world := { s.world with freqHz := hz } }

/-! One event. -/

/-- The host sends a frame and no other agent moves until its command ends or can go no further. A frame that decodes is
its command (30_encoding.md R99). -/
def hostFrame (bytes : List Byte) (s : State) : Host.Outcome State Fault Refusal :=
  match decode bytes with
  | .ok i => exec i s
  | .error _ => .next (s.rejectFrame bytes)

/-- A move of an agent that must exist. -/
def orNoAgent : Option State → Host.Outcome State Fault Refusal
  | some s => .next s
  | none => .refused .noSuchAgent

/-- One move of the outside world or the scheduler. -/
def takeEvent (e : Event) (s : State) : Host.Outcome State Fault Refusal :=
  match e with
  | .frame bytes => hostFrame bytes s
  | .send bytes => .next (s.sendFrame bytes)
  | .turn t => orNoAgent (s.turnOf t)
  | .poll d => orNoAgent (s.pollOf d)
  | .shutdown => .next s.shutdown
  | .setFreq hz => if freqLegal hz then .next (s.setFreq hz) else .refused .freqOutOfRange
  | .outsideWrite a b => if a ∈ s.blockAddrs then .refused .boundChannelWrite else .next (s.outsideWrite a b)
  | .outsideAllStop => .next s.outsideAllStop

/-- The move that comes next (log 9). -/
def State.nextEvent (s : State) : Event := s.events.next Config.nextEvent

/-- The state once that move is taken off the schedule. -/
def State.afterEvent (s : State) : State := { s with events := s.events.rest }

/-- The state with a frame of the host's as the next move. -/
def State.withFrame (s : State) (bytes : List Byte) : State :=
  { s with events := ⟨.frame bytes :: s.events.script, s.events.used⟩ }

end Sys2Proof.Machine
end

