-- ==== Sys2Proof/Machine/Step.lean ====
section
/-! DEFINITION. One step of the machine: the next move of the schedule. After shutdown every agent is stuck
(60_exceptions.md R300). -/

namespace Sys2Proof.Machine

def step (s : State) : Host.Outcome State Fault Refusal :=
  if s.halted then .fault .halted else takeEvent s.nextEvent s.afterEvent

/-- `s` with the opcode table's word sent by the host as its next frame. The block has no fetch: a program is the host's
sequence of frames (log 10). -/
def State.withFetchWord (s : State) (nbits w : Nat) : State := s.withFrame (frameOfTableWord nbits w)

end Sys2Proof.Machine
end

