-- ==== Sys2Proof/Machine/Assembler.lean ====
section
/-! DEFINITION. The assembler's syntax (30_encoding.md R101) and its three pseudo-instructions (R102). -/

namespace Sys2Proof.Machine

/-- A line as characters. -/
abbrev Text := List Char

/-! Splitting a line. -/

/-- The text before the first `c`, and the text after it if there is one. -/
def splitFirst (c : Char) : Text → Text × Option Text
  | [] => ([], none)
  | x :: xs =>
    if x = c then ([], some xs)
    else
      let r := splitFirst c xs
      (x :: r.1, r.2)

/-- The pieces between the separators `c`. -/
def splitAll (c : Char) : Text → List Text
  | [] => [[]]
  | x :: xs =>
    if x = c then [] :: splitAll c xs
    else
      match splitAll c xs with
      | [] => [[x]]
      | y :: ys => (x :: y) :: ys

def trimLeft (t : Text) : Text := t.dropWhile (· = ' ')

def trim (t : Text) : Text := (trimLeft (trimLeft t).reverse).reverse

/-! Literals. -/

/-- The value of one hexadecimal digit. -/
def digitValue (c : Char) : Option Nat :=
  if '0' ≤ c ∧ c ≤ '9' then some (c.toNat - '0'.toNat)
  else if 'a' ≤ c ∧ c ≤ 'f' then some (c.toNat - 'a'.toNat + 10)
  else if 'A' ≤ c ∧ c ≤ 'F' then some (c.toNat - 'A'.toNat + 10)
  else none

/-- Digits in `base` behind a value read so far. -/
def digitsFrom (base acc : Nat) : Text → Option Nat
  | [] => some acc
  | c :: cs =>
    match digitValue c with
    | none => none
    | some d => if d < base then digitsFrom base (acc * base + d) cs else none

/-- One digit or more. -/
def natural (base : Nat) (t : Text) : Option Nat := if t.isEmpty then none else digitsFrom base 0 t

/-- The sign of a literal, true for minus, and the rest. -/
def signOf : Text → Bool × Text
  | '-' :: t => (true, t)
  | '+' :: t => (false, t)
  | t => (false, t)

def withSign (neg : Bool) (n : Nat) : Int := if neg then -(n : Int) else n

/-- An integer: decimal with an optional sign, or hexadecimal after `0x` (R101). -/
def integer (t : Text) : Option Int :=
  match t with
  | '0' :: 'x' :: h => (natural 16 h).map fun n => (n : Int)
  | _ => (natural 10 (signOf t).2).map (withSign (signOf t).1)

/-- A decimal fraction without sign or exponent, as digits and the number of them behind the point. -/
def decimal (t : Text) : Option (Nat × Nat) :=
  match splitFirst '.' t with
  | (whole, none) => (natural 10 whole).map fun n => (n, 0)
  | (whole, some part) => (natural 10 (whole ++ part)).map fun n => (n, part.length)

/-- `n · 10^e`. -/
def powerOfTen (n : Nat) (e : Int) : Rat :=
  if 0 ≤ e then mkRat ((n * 10 ^ e.toNat : Nat) : Int) 1 else mkRat (n : Int) (10 ^ (-e).toNat)

/-- A real: a decimal literal, converted to the nearest binary64; a minus sign stays, on zero too (R101). -/
def real (t : Text) : Option Word64 :=
  let s := signOf t
  let parts := splitFirst 'e' s.2
  match decimal parts.1, parts.2.elim (some 0) (fun e => (natural 10 (signOf e).2).map (withSign (signOf e).1)) with
  | some (n, places), some e =>
    some (Binary64.ofRat (powerOfTen n (e - places)) ||| (if s.1 then 0x8000000000000000 else 0))
  | _, _ => none

/-! Names. -/

/-- A name's place in a list of names. -/
def nameIndex (names : List String) (t : Text) : Option Nat := (names.map String.toList).idxOf? t

def qdecNames : List String :=
  ["Q0", "Q1", "Q2", "Q3", "Q4", "Q5", "Q6", "Q7", "Q8", "Q9", "Q10", "Q11", "Q12", "Q13", "Q14", "Q15"]

def modeName (t : Text) : Option Mode :=
  match nameIndex ["SINGLE_PHASE", "DOUBLE_PHASE", "HALF_STEP", "MULTI_STEP"] t with
  | some n => (modeOf n).toOption
  | none => none

def dirName (t : Text) : Option Dir :=
  match nameIndex ["FORWARD", "REVERSE"] t with
  | some n => (dirOf n).toOption
  | none => none

def killName (t : Text) : Option Bool :=
  match nameIndex ["FALSE", "TRUE"] t with
  | some n => (killOf n).toOption
  | none => none

/-- An integer within bounds. -/
def integerIn (lo hi : Int) (t : Text) : Option Int :=
  match integer t with
  | some n => if lo ≤ n ∧ n ≤ hi then some n else none
  | none => none

/-! Pseudo-instructions (R102). -/

/-- `ST.FWD SMk, n` is `ST.STEP SMk, n` for 1 ≤ n ≤ 2^63 − 1. -/
def pseudoFwd (k : Nat) (n : Int) : Option Instr :=
  if 1 ≤ n ∧ n ≤ 2 ^ 63 - 1 then some (.stStep k (BitVec.ofInt 64 n)) else none

/-- `ST.REV SMk, n` is `ST.STEP SMk, -n` for 1 ≤ n ≤ 2^63. -/
def pseudoRev (k : Nat) (n : Int) : Option Instr :=
  if 1 ≤ n ∧ n ≤ 2 ^ 63 then some (.stStep k (BitVec.ofInt 64 (-n))) else none

/-- `ST.HALT SMk` is `ST.STEP SMk, 0`. -/
def pseudoHalt (k : Nat) : Instr := .stStep k 0

/-! Lines. -/

/-- A stepper's line, its operands in payload order (R96, R101). -/
def stepperAsmLine (k : Nat) (op : String) (args : List Text) : Option Instr :=
  match op, args with
  | "SETMODE", [m] => (modeName m).map (Instr.stSetmode k)
  | "SETSPR", [v] => (integerIn 0 (2 ^ 32 - 1) v).map fun n => .stSetspr k (BitVec.ofInt 32 n)
  | "SETINTERVAL", [ms, kill] =>
    match real ms, killName kill with
    | some b, some f => some (.stSetinterval k b f)
    | _, _ => none
  | "ONESTEP", [] => some (.stOnestep k)
  | "ONESTEPDIR", [d] => (dirName d).map (Instr.stOnestepdir k)
  | "STEP", [n] => (integerIn (-(2 ^ 63)) (2 ^ 63 - 1) n).map fun n => .stStep k (BitVec.ofInt 64 n)
  | "ROTATE", [r] => (real r).map (Instr.stRotate k)
  | "GETSTEP", [] => some (.stGetstep k)
  | "STOP", [] => some (.stStop k)
  | "FWD", [n] => (integer n).bind (pseudoFwd k)
  | "REV", [n] => (integer n).bind (pseudoRev k)
  | "HALT", [] => some (pseudoHalt k)
  | _, _ => none

/-- A servo's line. -/
def servoAsmLine (j : Nat) (op : String) (args : List Text) : Option Instr :=
  match op, args with
  | "SETLIMITS", [a, b, c] =>
    match real a, real b, real c with
    | some x, some y, some z => some (.svSetlimits j x y z)
    | _, _, _ => none
  | "SETRANGE", [a, b] =>
    match real a, real b with
    | some x, some y => some (.svSetrange j x y)
    | _, _ => none
  | "SETPW", [a] => (real a).map (Instr.svSetpw j)
  | "SETPOS", [a] => (real a).map (Instr.svSetpos j)
  | "GETPOS", [] => some (.svGetpos j)
  | _, _ => none

/-- A decoder's line. -/
def qdecAsmLine (d : Nat) (op : String) (args : List Text) : Option Instr :=
  match op, args with
  | "POLL", [] => some (.qdPoll d)
  | "GETPOS", [] => some (.qdGetpos d)
  | "GETDERIV", [w] => (real w).map (Instr.qdGetderiv d)
  | "RESET", [] => some (.qdReset d)
  | _, _ => none

/-- `MNEMONIC INSTANCE[, OPERAND]...` (R101): the command the line stands for, none where it is no line of the syntax. -/
def assemble (line : String) : Option Instr :=
  let parts := splitFirst ' ' (trim line.toList)
  let unit := splitFirst '.' parts.1
  match unit.2, (splitAll ',' (parts.2.getD [])).map trim with
  | some op, who :: args =>
    match String.ofList unit.1 with
    | "ST" => (nameIndex stepperNames who).bind fun k => stepperAsmLine k (String.ofList op) args
    | "SV" => (nameIndex servoNames who).bind fun j => servoAsmLine j (String.ofList op) args
    | "QD" => (nameIndex qdecNames who).bind fun d => qdecAsmLine d (String.ofList op) args
    | _ => none
  | _, _ => none

end Sys2Proof.Machine
end

