-- ==== Sys2Proof/Safety.lean ====
section
/-! DEFINITION. The terms claims are made in: the outcomes still to come, what a run of register writes leaves, what stays the
same, and the invariant of the block. -/

namespace Sys2Proof.Machine

/-! Choices to come. -/

/-- The outcome the n-th register write from now will meet. -/
def World.busAt (w : World) (n : Nat) : BusDraw := w.bus.peek Config.busDraw n

/-- The next `n` register writes will all be accepted. -/
def World.busOk (w : World) (n : Nat) : Prop := ∀ i, i < n → w.busAt i = .ok

/-- A tape with its next `n` choices taken. -/
def Tape.skip {α : Type} (t : Tape α) (n : Nat) : Tape α := ⟨t.script.drop n, t.used + n⟩

/-! What a run of register writes leaves. -/

/-- The registers after these bytes are written, in order. -/
def Memory.after (ws : List RegW) (m : Memory) : Memory := ws.foldl (fun m r => Memory.write m r.1.toNat r.2) m

/-- An accepted register write, as the record shows it. -/
def accepted (p : Params) (r : RegW) : PortWrite := ⟨p.devAddr, r.1, r.2, .ok⟩

/-- The world after these writes, every one of them accepted. -/
def World.wrote (p : Params) (ws : List RegW) (w : World) : World :=
  { w with
    regs := Memory.after ws w.regs
    log := w.log ++ ws.map (accepted p)
    bus := w.bus.skip ws.length }

/-- What the record gains when the write `j` of `ws`, counting from 0, is the first to fail, with outcome `o`: those before it,
that write, and the all-stop (60_exceptions.md R273). -/
def failedLog (p : Params) (ws : List RegW) (j : Nat) (o : BusDraw) : List PortWrite :=
  (ws.take j).map (accepted p) ++ (ws[j]?.toList.map fun r => ⟨p.devAddr, r.1, r.2, o⟩) ++
    (allStopAddrs p).map fun a => accepted p (a, 0)

/-- The (ON, OFF) bytes a channel's four registers hold (20_memory.md R62, R64), as far as they are known. -/
def channelBytes (p : Params) (m : Memory) (ch : Channel) : List (Option Byte) :=
  [m.read (chanAddr p ch).toNat, m.read (chanAddr p ch + 1).toNat, m.read (chanAddr p ch + 2).toNat,
    m.read (chanAddr p ch + 3).toNat]

/-! Instances by target. -/

/-- Whether an instance is bound (30_encoding.md R97, 60_exceptions.md R296 to R298). -/
def State.bound (s : State) (t : Target) : Bool :=
  match t.kind with
  | .stepper => (s.stepper t.inst).isSome
  | .servo => (s.servo t.inst).isSome
  | .qdec => (s.qdec t.inst).isSome

/-- Whether an instance is bound and would start a command now (20_memory.md R77). -/
def State.freeAt (s : State) (t : Target) : Bool :=
  match t.kind with
  | .stepper => (s.stepper t.inst).any Stepper.free
  | .servo => (s.servo t.inst).any Servo.free
  | .qdec => (s.qdec t.inst).any Qdec.free

/-- The registers an instance may write (20_memory.md R61); a decoder writes none. -/
def State.addrsOf (s : State) (t : Target) : List RegAddr :=
  match t.kind with
  | .stepper =>
    match s.stepper t.inst with
    | some x => x.addrs s.params
    | none => []
  | .servo =>
    match s.servo t.inst with
    | some x => x.addrs s.params
    | none => []
  | .qdec => []

/-- Stepper k is bound, as `x`, and free; the block is not halted. -/
def StepperReady (s : State) (k : Nat) (x : Stepper) : Prop := s.halted = false ∧ s.stepper k = some x ∧ x.free = true

/-- Servo j is bound, as `x`, and free; the block is not halted. -/
def ServoReady (s : State) (j : Nat) (x : Servo) : Prop := s.halted = false ∧ s.servo j = some x ∧ x.free = true

/-- Decoder d is there, as `x`, and free; the block is not halted. -/
def QdecReady (s : State) (d : Nat) (x : Qdec) : Prop := s.halted = false ∧ s.qdec d = some x ∧ x.free = true

/-- `n` turns of one instance, one after another. -/
def State.turns (t : Target) : Nat → State → Option State
  | 0, s => some s
  | n + 1, s => (s.turnOf t).bind (State.turns t n)

/-- The counter after `i` steps of a run. -/
def counterAfter (step : Word64) (d : Dir) (i : Nat) : Word64 := step + BitVec.ofNat 64 i * stepDelta d

/-- The register writes of a run of `n` steps in direction d, in order (40_stepper.md R128, R129, R137). -/
def runWrites (p : Params) (x : Stepper) (d : Dir) (n : Nat) : List RegW :=
  (List.range n).flatMap fun i =>
    entryWrites p x.coils (tableEntry p.curve x.mode (tableIndex p.indexConv x.mode (counterAfter x.step d (i + 1)).toInt))

/-- Command `i` runs stepper k, as `x`, by n steps (40_stepper.md R137, R143): it is ST.STEP of n, or, under EXACT, ST.ROTATE of an
operand whose count n = round(revs · SPR) fits i64. -/
def RunsBy (s : State) (k : Nat) (x : Stepper) (i : Instr) (n : Word64) : Prop :=
  i = .stStep k n ∨
    ∃ revs q spr, i = .stRotate k revs ∧ s.params.numeric = .exact ∧ x.spr = some spr ∧ realOperand revs = some q ∧
      -(2 ^ 63) ≤ (q * spr.toNat + 1 / 2).floor ∧ (q * spr.toNat + 1 / 2).floor ≤ 2 ^ 63 - 1 ∧
      n = BitVec.ofInt 64 (q * spr.toNat + 1 / 2).floor

/-! What stays the same. -/

/-- `t` differs from `s` at most in the instance `who` and in the world. -/
def SameBut (who : Target) (s t : State) : Prop :=
  t.params = s.params ∧ t.events = s.events ∧ t.halted = s.halted ∧
    (∀ k, who ≠ ⟨.stepper, k⟩ → t.stepper k = s.stepper k) ∧
    (∀ j, who ≠ ⟨.servo, j⟩ → t.servo j = s.servo j) ∧
    (∀ d, who ≠ ⟨.qdec, d⟩ → t.qdec d = s.qdec d)

/-- The register writes, the record of them, the configured frequency and the lines are as before: all a command leaves
alone that writes no register. -/
def SamePort (w w' : World) : Prop :=
  w'.regs = w.regs ∧ w'.log = w.log ∧ w'.freqHz = w.freqHz ∧ w'.bus = w.bus ∧ w'.lines = w.lines

/-- The five statuses that change no state (60_exceptions.md R272). -/
def Status.refuses : Status → Bool
  | .rangeError => true
  | .configurationError => true
  | .noValue => true
  | .zeroInterval => true
  | .illegalCommand => true
  | .ok => false
  | .busError => false
  | .timingError => false

/-- The statuses that send the all-stop (60_exceptions.md R274). -/
def Status.stopsAll : Status → Bool
  | .busError => true
  | .timingError => true
  | .ok => false
  | .rangeError => false
  | .configurationError => false
  | .noValue => false
  | .zeroInterval => false
  | .illegalCommand => false

/-! The invariant. -/

/-- The register writes a command in flight at a stepper has still to issue. -/
def Stepper.todo (x : Stepper) : List RegW :=
  match x.flight with
  | some (.writing ws _) => ws
  | _ => []

def Servo.todo (x : Servo) : List RegW :=
  match x.flight with
  | some (.writing ws _) => ws
  | _ => []

/-- Whether the flight belongs to a run of paced steps. -/
def Stepper.inRun (x : Stepper) : Bool :=
  match x.flight with
  | some .stepping => true
  | some (.writing _ paced) => paced
  | some (.sleeping _) => true
  | some (.stopping _) => false
  | some (.ending _) => false
  | none => false

/-- A stepper as the rules keep it: INTERVAL ≥ 0 (10_state.md R26), SPR never 0 (R28), RUN idle exactly when no run is in flight (R30), no
start time later than the last answer of the time source (60_exceptions.md R290), and no write to come outside its own
channels (20_memory.md R61). -/
abbrev Stepper.Inv (p : Params) (w : World) (x : Stepper) : Prop :=
  0 ≤ x.interval ∧ x.spr ≠ some 0 ∧ (x.inRun = true ↔ x.run ≠ .idle) ∧
    (x.startTime.getD 0).toNat ≤ w.clock.toNat ∧ ∀ r ∈ x.todo, r.1 ∈ x.addrs p

/-- A servo as the rules keep it (10_state.md R32, R33; 20_memory.md R61). -/
abbrev Servo.Inv (p : Params) (x : Servo) : Prop :=
  limitsOrdered x.limits = true ∧ x.minX < x.maxX ∧ ∀ r ∈ x.todo, r.1 ∈ x.addrs p

/-- A decoder as the rules keep it: the counter in its width (10_state.md R38), the ring of RING_SIZE entries with HEAD and
COUNT in range (R41), LASTT, LASTPOS and COUNT all of one mind about the first push (R39, R40), and no sample later than
the last answer of the time source (60_exceptions.md R290). -/
abbrev Qdec.Inv (p : Params) (w : World) (x : Qdec) : Prop :=
  -(2 ^ (p.posBits - 1)) ≤ x.pos ∧ x.pos < 2 ^ (p.posBits - 1) ∧ x.ring.length = p.ringSize ∧ x.head < p.ringSize ∧
    x.count ≤ p.ringSize ∧ (x.lastT.isSome ↔ 0 < x.count) ∧ (x.lastPos.isSome ↔ 0 < x.count) ∧
    (x.lastT.getD 0).toNat ≤ w.clock.toNat ∧ ∀ e ∈ x.ring, e.t.toNat ≤ w.clock.toNat

/-- The block as every step keeps it: legal parameters and frequency (00_scope.md R7), the register file in its canonical
form, the two stepper and sixteen servo places (30_encoding.md R97), and each instance as its rules keep it. -/
abbrev State.Inv (s : State) : Prop :=
  paramsLegal s.params = true ∧ freqLegal s.world.freqHz = true ∧ Memory.wf s.world.regs = true ∧ s.st.length = 2 ∧
    s.sv.length = 16 ∧ (∀ o ∈ s.st, ∀ x ∈ o, Stepper.Inv s.params s.world x) ∧
    (∀ o ∈ s.sv, ∀ x ∈ o, Servo.Inv s.params x) ∧ ∀ x ∈ s.qd, Qdec.Inv s.params s.world x

end Sys2Proof.Machine
end

