-- ==== Sys2Proof/Certificates/Slice0/Obligations.lean ====
section
/-! DEFINITION. The statements about the block, for the provers: each formalises a rule of spec/ or rests on the rules it names. -/

open Sys2Proof Sys2Proof.Machine

/-! Encoding. -/

/-- A step runs the decoded command: the next move is a frame that decodes, and the step is the command's meaning at the state
with that move taken off the schedule, which changes nothing else. -/
def Obligations.StepRunsTheDecodedCommand : Prop :=
  ∀ (s : State) (bytes : List Byte) (i : Instr), s.halted = false → s.nextEvent = .frame bytes → decode bytes = .ok i →
    step s = exec i s.afterEvent ∧ s.afterEvent = { s with events := s.events.rest }

/-- R103, both worked encodings, and one word of each unit from R96 (V-ENC-1). -/
def Obligations.WorkedFramesDecode : Prop :=
  decode [0x05, 0x10, 0xFC, 0xFF, 0xFF, 0xFF, 0xFF, 0xFF, 0xFF, 0xFF] = .ok (.stStep 0 (BitVec.ofInt 64 (-4))) ∧
    (Instr.stStep 0 (BitVec.ofInt 64 (-4))).header = 0x1005 ∧
    encode (.stStep 0 (BitVec.ofInt 64 (-4))) = [0x05, 0x10, 0xFC, 0xFF, 0xFF, 0xFF, 0xFF, 0xFF, 0xFF, 0xFF] ∧
    decode [0x02, 0x22, 0, 0, 0, 0, 0, 0, 0xF8, 0x3F] = .ok (.svSetpw 2 0x3FF8000000000000) ∧
    (Instr.svSetpw 2 0x3FF8000000000000).header = 0x2202 ∧
    encode (.svSetpw 2 0x3FF8000000000000) = [0x02, 0x22, 0, 0, 0, 0, 0, 0, 0xF8, 0x3F] ∧
    realOperand 0x3FF8000000000000 = some (3 / 2) ∧
    decode [0x02, 0x10, 0, 0, 0, 0, 0, 0, 0x24, 0x40, 1] = .ok (.stSetinterval 0 0x4024000000000000 true) ∧
    decode [0x02, 0x30, 0, 0, 0, 0, 0, 0, 0xE0, 0x3F] = .ok (.qdGetderiv 0 0x3FE0000000000000)

/-- Decoding the encoding of a well-formed command gives it back, with every operand at every value (R90 to R93, R96). -/
def Obligations.DecodeOfEncode : Prop :=
  ∀ i : Instr, WellFormed i → decode (encode i) = .ok i

/-- Only encodings decode: every other frame is rejected, so reserved units and opcodes, wrong lengths and bad enum values all
are (R95, R99, R100). -/
def Obligations.OnlyEncodingsDecode : Prop :=
  ∀ (bytes : List Byte) (i : Instr), decode bytes = .ok i → WellFormed i ∧ bytes = encode i

/-- The three pseudo-instructions and their conditions (R102). -/
def Obligations.PseudoInstructionsExpand : Prop :=
  ∀ (k : Nat) (n : Int),
    (1 ≤ n ∧ n ≤ 2 ^ 63 - 1 → ∃ v, pseudoFwd k n = some (.stStep k v) ∧ v.toInt = n) ∧
      (1 ≤ n ∧ n ≤ 2 ^ 63 → ∃ v, pseudoRev k n = some (.stStep k v) ∧ v.toInt = -n) ∧
      (n < 1 → pseudoFwd k n = none ∧ pseudoRev k n = none) ∧
      (2 ^ 63 - 1 < n → pseudoFwd k n = none) ∧ (2 ^ 63 < n → pseudoRev k n = none) ∧ pseudoHalt k = .stStep k 0

/-! Launch and reset. -/

/-- What launch leaves in each bound instance, for any parameters, frequency and bindings (R310, R311). RESULT, which the spec
leaves unspecified, may not be read. -/
def Obligations.LaunchLeavesResetValues : Prop :=
  ∀ (p : Params) (freq : Rat) (b : Bindings),
    (∀ k x, (State.launch p freq b).stepper k = some x →
      x.mode = .singlePhase ∧ x.step = 0 ∧ x.dir = .forward ∧ x.interval = 0 ∧ x.kill = false ∧ x.spr = none ∧
        x.run = .idle ∧ x.flight = none ∧ x.ctl.status = .ok ∧ x.ctl.readResult = none ∧ x.ctl.waiting = [] ∧
        x.coils = if k = 0 then p.sm1 else p.sm2) ∧
      (∀ j x, (State.launch p freq b).servo j = some x →
        x.limits = p.servoLimits ∧ x.minX = 0 ∧ x.maxX = 1 ∧ x.pos = none ∧ x.flight = none ∧ x.ctl.status = .ok ∧
          x.ctl.readResult = none ∧ x.ctl.waiting = [] ∧ x.ch = p.servoChans.getD j 0) ∧
      (∀ d x, (State.launch p freq b).qdec d = some x →
        x.gray = 0 ∧ x.pos = 0 ∧ x.lastT = none ∧ x.lastPos = none ∧ x.count = 0 ∧ x.head = 0 ∧ x.offset = 0 ∧
          x.ring.length = p.ringSize ∧ x.ctl.status = .ok ∧ x.ctl.readResult = none ∧ x.ctl.waiting = []) ∧
      (State.launch p freq b).world.log = [] ∧ (State.launch p freq b).halted = false ∧
      ∀ t, (State.launch p freq b).bound t = true ↔
        (t.kind = .stepper ∧ t.inst < 2 ∧ t.inst ∈ b.stepper) ∨ (t.kind = .servo ∧ t.inst < 16 ∧ t.inst ∈ b.servo) ∨
          (t.kind = .qdec ∧ t.inst < p.qdecPins.length)

/-- The reset state meets the invariant, whatever the open parameters are (log 2). -/
def Obligations.ResetMeetsTheInvariant : Prop := State.reset.Inv

/-- Every launch with legal parameters and frequency meets the invariant (R7, R310). -/
def Obligations.LaunchMeetsTheInvariant : Prop :=
  ∀ (p : Params) (freq : Rat) (cs : List Claim) (s : State), State.launchChecked p freq cs = some s → s.Inv

/-- No step breaks the invariant: from every state that meets it, whatever the move, the next state meets it. -/
def Obligations.StepKeepsTheInvariant : Prop :=
  ∀ s t : State, s.Inv → step s = .next t → t.Inv

/-- Claims that conflict are never both bound, in whatever order they come (R296). -/
def Obligations.ConflictingClaimsNeverBothBind : Prop :=
  ∀ cs : List Claim,
    let b := (claimAll cs Bindings.none).2
    (0 ∈ b.stepper → 0 ∉ b.dc ∧ 1 ∉ b.dc) ∧ (1 ∈ b.stepper → 2 ∉ b.dc ∧ 3 ∉ b.dc)

/-! Whole-machine rules. -/

/-- A binding is permanent: no step binds or frees an instance, or changes a launch parameter (R298). -/
def Obligations.BindingIsPermanent : Prop :=
  ∀ s t : State, step s = .next t → t.params = s.params ∧ ∀ who, t.bound who = s.bound who

/-- Every register write a step adds to the record goes to a register of a channel bound to an instance, or to an all-channels
register (R61, R71). -/
def Obligations.BlockWritesOnlyItsRegisters : Prop :=
  ∀ s t : State, s.Inv → step s = .next t → ∃ new, t.world.log = s.world.log ++ new ∧ ∀ e ∈ new, e.addr ∈ s.blockAddrs

/-- Reads of the time source never decrease, any value not below the last one may be read, and no step turns it back (R290). -/
def Obligations.TimeNeverGoesBack : Prop :=
  (∀ w : World, w.clock.toNat ≤ w.nowValue.toNat ∧ w.afterNow.clock = w.nowValue) ∧
    (∀ (w : World) (v : Word64) (rest : List Word64) (n : Nat), w.clock.toNat ≤ v.toNat →
      { w with time := (⟨v :: rest, n⟩ : Tape Word64) }.nowValue = v) ∧
    ∀ s t : State, step s = .next t → s.world.clock.toNat ≤ t.world.clock.toNat

/-- A command changes no instance but the one it addresses (R22, R295). -/
def Obligations.CommandsTouchOneInstance : Prop :=
  ∀ (i : Instr) (s t : State), exec i s = .next t → SameBut i.target s t

/-- Register frame. Of a command: a register outside the addressed instance's channels reads as before, unless the command sent
the all-stop, and then unless the all-stop reaches it; a command without channels stores nothing. Of the moves of others (R301,
log 17, log 18): another user's register write changes that register alone, and is refused on a register of the block's; their
all-stop, and a change of FREQ_HZ, change no field of an instance; a frequency outside [24, 1526] is refused. -/
def Obligations.RegistersOutsideTheChannelsKeep : Prop :=
  (∀ (i : Instr) (s t : State) (a : Nat), exec i s = .next t → (∀ r ∈ s.addrsOf i.target, r.toNat ≠ a) →
    ((∀ b, t.world.answers = s.world.answers ++ [b] → b.status.stopsAll = false) ∨
      ∀ r ∈ allStopReach s.params, r.toNat ≠ a) →
    Memory.read t.world.regs a = Memory.read s.world.regs a) ∧
    ∀ s : State, s.halted = false →
      (∀ a b, s.nextEvent = .outsideWrite a b →
        (a ∈ s.blockAddrs → step s = .refused .boundChannelWrite) ∧
          (a ∉ s.blockAddrs → ∃ regs,
            step s = .next { s.afterEvent with world := { s.world with regs := regs } } ∧
              Memory.read regs a.toNat = some b ∧ ∀ a', a' ≠ a.toNat → Memory.read regs a' = Memory.read s.world.regs a')) ∧
        (s.nextEvent = .outsideAllStop →
          step s = .next { s.afterEvent with world := s.world.allStop s.params }) ∧
        ∀ hz, s.nextEvent = .setFreq hz →
          (24 ≤ hz → hz ≤ 1526 → step s = .next { s.afterEvent with world := { s.world with freqHz := hz } }) ∧
            ((hz < 24 ∨ 1526 < hz) → step s = .refused .freqOutOfRange)

/-- A command that answers RANGE_ERROR, CONFIGURATION_ERROR, NO_VALUE, ZERO_INTERVAL or ILLEGAL_COMMAND has changed no field
of the instance but STATUS, issued no write and no all-stop, and left RESULT unchanged (R272). The STATUS byte of an instance is
the code R270 gives its status: 0 OK to 7 ILLEGAL_COMMAND. -/
def Obligations.RefusalsChangeNothing : Prop :=
  (∀ c : Ctl, c.statusByte = match c.status with
    | .ok => 0
    | .rangeError => 1
    | .configurationError => 2
    | .busError => 3
    | .timingError => 4
    | .noValue => 5
    | .zeroInterval => 6
    | .illegalCommand => 7) ∧
  ∀ (i : Instr) (s t : State) (b : Answer), exec i s = .next t → t.world.answers = s.world.answers ++ [b] →
    b.status.refuses = true →
    SamePort s.world t.world ∧
      (∀ k x, s.stepper k = some x →
        t.stepper k = some (if i.target = ⟨.stepper, k⟩ then { x with ctl := x.ctl.ended b.status none } else x)) ∧
      (∀ j x, s.servo j = some x →
        t.servo j = some (if i.target = ⟨.servo, j⟩ then { x with ctl := x.ctl.ended b.status none } else x)) ∧
      (∀ d x, s.qdec d = some x →
        t.qdec d = some (if i.target = ⟨.qdec, d⟩ then { x with ctl := x.ctl.ended b.status none } else x))

/-- A command to an instance that is not bound is ILLEGAL_COMMAND: the host is told so, and nothing else happens (R97, R99). No
agent stands behind it either: a turn or a poll of it is no move, and is refused (R20). -/
def Obligations.UnboundInstanceIsIllegal : Prop :=
  (∀ (i : Instr) (s : State), s.halted = false → s.bound i.target = false →
    exec i s =
      .next { s with world := { s.world with answers := s.world.answers ++ [⟨none, .illegalCommand, none⟩] } }) ∧
    ∀ s : State, s.halted = false →
      (∀ who, s.nextEvent = .turn who → s.bound who = false → step s = .refused .noSuchAgent) ∧
        ∀ d, s.nextEvent = .poll d → s.bound ⟨.qdec, d⟩ = false → step s = .refused .noSuchAgent

/-- A frame that does not decode is answered ILLEGAL_COMMAND and changes nothing else (R99). Where its header names no instance, or
one that is not bound, the host alone is told. A bound instance it names keeps every field but STATUS: at a free one STATUS says
so at once; at one that is not free the frame waits behind the commands there, and nothing else happens until its turn, which
does the same. No register is written, no all-stop is sent, and RESULT is kept. -/
def Obligations.IllegalFrameChangesNothing : Prop :=
  (∀ (s : State) (bytes : List Byte) (e : DecodeError), s.halted = false → s.nextEvent = .frame bytes →
    decode bytes = .error e →
    ∃ t, step s = .next t ∧ SamePort s.world t.world ∧ t.world.clock = s.world.clock ∧
      ((∀ who, frameTarget bytes = some who → s.bound who = false) →
        t = { s.afterEvent with
          world := { s.world with answers := s.world.answers ++ [⟨none, .illegalCommand, none⟩] } }) ∧
      (∀ who, frameTarget bytes = some who → SameBut who s.afterEvent t) ∧
      (∀ k x, frameTarget bytes = some ⟨.stepper, k⟩ → s.stepper k = some x →
        (x.free = true → t.stepper k = some { x with ctl := x.ctl.ended .illegalCommand none } ∧
          t.world.answers = s.world.answers ++ [⟨some ⟨.stepper, k⟩, .illegalCommand, x.ctl.readResult⟩]) ∧
        (x.free = false → t.world = s.world ∧
          t.stepper k = some { x with ctl := { x.ctl with waiting := x.ctl.waiting ++ [.illegal] } })) ∧
      (∀ j x, frameTarget bytes = some ⟨.servo, j⟩ → s.servo j = some x →
        (x.free = true → t.servo j = some { x with ctl := x.ctl.ended .illegalCommand none } ∧
          t.world.answers = s.world.answers ++ [⟨some ⟨.servo, j⟩, .illegalCommand, x.ctl.readResult⟩]) ∧
        (x.free = false → t.world = s.world ∧
          t.servo j = some { x with ctl := { x.ctl with waiting := x.ctl.waiting ++ [.illegal] } })) ∧
      (∀ d x, frameTarget bytes = some ⟨.qdec, d⟩ → s.qdec d = some x →
        (x.free = true → t.qdec d = some { x with ctl := x.ctl.ended .illegalCommand none } ∧
          t.world.answers = s.world.answers ++ [⟨some ⟨.qdec, d⟩, .illegalCommand, x.ctl.readResult⟩]) ∧
        (x.free = false → t.world = s.world ∧
          t.qdec d = some { x with ctl := { x.ctl with waiting := x.ctl.waiting ++ [.illegal] } }))) ∧
    ∀ (p : Params) (n : Nat) (js : List Job) (w : World),
      (∀ x : Stepper, x.flight = none → x.ctl.waiting = .illegal :: js → Stepper.turn p n x w =
        Stepper.finish n .illegalCommand none { x with ctl := { x.ctl with waiting := js } } w) ∧
        (∀ x : Servo, x.flight = none → x.ctl.waiting = .illegal :: js → Servo.turn p n x w =
          Servo.finish n .illegalCommand none { x with ctl := { x.ctl with waiting := js } } w) ∧
        ∀ x : Qdec, x.ctl.waiting = .illegal :: js → Qdec.turn p n x w =
          Qdec.finish n .illegalCommand none { x with ctl := { x.ctl with waiting := js } } w

/-- A command to a bound instance that is not free waits there, behind those already waiting, and does nothing else (R77). -/
def Obligations.BusyInstanceMakesACommandWait : Prop :=
  ∀ (i : Instr) (s : State), s.halted = false → s.bound i.target = true → s.freeAt i.target = false →
    exec i s = .next (s.sendJob i.target (.command i)) ∧ (s.sendJob i.target (.command i)).world = s.world ∧
      SameBut i.target s (s.sendJob i.target (.command i)) ∧
      (∀ k x, i.target = ⟨.stepper, k⟩ → s.stepper k = some x → (s.sendJob i.target (.command i)).stepper k =
        some { x with ctl := { x.ctl with waiting := x.ctl.waiting ++ [.command i] } }) ∧
      (∀ j x, i.target = ⟨.servo, j⟩ → s.servo j = some x → (s.sendJob i.target (.command i)).servo j =
        some { x with ctl := { x.ctl with waiting := x.ctl.waiting ++ [.command i] } }) ∧
      ∀ d x, i.target = ⟨.qdec, d⟩ → s.qdec d = some x → (s.sendJob i.target (.command i)).qdec d =
        some { x with ctl := { x.ctl with waiting := x.ctl.waiting ++ [.command i] } }

/-- A command run to its end in one step ends in the very state that sending it, and then giving its instance enough turns,
reaches: the interleaved and the uninterrupted execution are one semantics (R74, R77). -/
def Obligations.TurnsReachWhatExecReaches : Prop :=
  ∀ (i : Instr) (s t : State), s.freeAt i.target = true → exec i s = .next t →
    ∃ n, State.turns i.target n (s.sendJob i.target (.command i)) = some t

/-- Shutdown, at any time: every channel's registers are 0, no answer is given, no instance has a command in flight or waiting
and each keeps its other fields but RUN, and from then on every step and every command is stuck (R300, R275). That the registers
hold 0 is the model's reading of the all-stop (log 6), and that nothing comes between it and the halting is the model's choice (log 16). -/
def Obligations.ShutdownHaltsForGood : Prop :=
  ∀ s : State, s.halted = false → s.nextEvent = .shutdown →
    ∃ t, step s = .next t ∧ t.params = s.params ∧ t.world.answers = s.world.answers ∧
      t.world.log = s.world.log ++ (allStopAddrs s.params).map (fun a => accepted s.params (a, 0)) ∧
      (∀ ch, channelBytes s.params t.world.regs ch = [some 0, some 0, some 0, some 0]) ∧
      (∀ k, t.stepper k = (s.stepper k).map fun x =>
        { x with run := .idle, flight := none, ctl := { x.ctl with waiting := [] } }) ∧
      (∀ j, t.servo j = (s.servo j).map fun x => { x with flight := none, ctl := { x.ctl with waiting := [] } }) ∧
      (∀ d, t.qdec d = (s.qdec d).map fun x => { x with ctl := { x.ctl with waiting := [] } }) ∧
      step t = .fault .halted ∧ ∀ i, exec i t = .fault .halted

/-- The all-stop turns every output off, whatever was there, and writes the four all-channels registers in ascending order (R70,
R275). That the channels' registers then hold 0 is the model's reading (log 6). -/
def Obligations.AllStopTurnsEveryOutputOff : Prop :=
  ∀ (p : Params) (w : World),
    (∀ ch, channelBytes p (w.allStop p).regs ch = [some 0, some 0, some 0, some 0]) ∧
      (w.allStop p).log = w.log ++ [accepted p (p.allcallBase, 0), accepted p (p.allcallBase + 1, 0),
        accepted p (p.allcallBase + 2, 0), accepted p (p.allcallBase + 3, 0)] ∧
      (w.allStop p).bus = w.bus ∧ (w.allStop p).answers = w.answers ∧ (w.allStop p).clock = w.clock

/-- A register write: accepted, it reaches its register; failed, it may or may not have; either way no other register changes
(R60, R69). -/
def Obligations.FailedWriteMayOrMayNotLand : Prop :=
  ∀ (p : Params) (r : RegW) (w : World),
    (w.busNext = .ok → Memory.read (w.regWrite p r).regs r.1.toNat = some r.2) ∧
      (w.busNext = .errorLanded → Memory.read (w.regWrite p r).regs r.1.toNat = some r.2) ∧
      (w.busNext = .errorLost → (w.regWrite p r).regs = w.regs) ∧
      ∀ a, a ≠ r.1.toNat → Memory.read (w.regWrite p r).regs a = Memory.read w.regs a

/-! Stepper. -/

/-- ST.SETMODE sets the mode and resets the counter, whatever both were; nothing is written and the other fields stay (R130). -/
def Obligations.SetmodeResetsTheCounter : Prop :=
  ∀ (s : State) (k : Nat) (x : Stepper) (m : Mode), StepperReady s k x →
    ∃ t, exec (.stSetmode k m) s = .next t ∧
      t.stepper k = some { x with mode := m, step := 0, ctl := x.ctl.ended .ok none } ∧
      SameBut ⟨.stepper, k⟩ s t ∧ t.world = s.world.answer (some ⟨.stepper, k⟩) (x.ctl.ended .ok none)

/-- ST.SETSPR stores every nonzero value and refuses 0 (R131). -/
def Obligations.SetsprStoresANonzeroCount : Prop :=
  ∀ (s : State) (k : Nat) (x : Stepper) (v : BitVec 32), StepperReady s k x →
    let st : Status := if v = 0 then .configurationError else .ok
    ∃ t, exec (.stSetspr k v) s = .next t ∧
      t.stepper k = some { x with spr := if v = 0 then x.spr else some v, ctl := x.ctl.ended st none } ∧
      SameBut ⟨.stepper, k⟩ s t ∧ t.world = s.world.answer (some ⟨.stepper, k⟩) (x.ctl.ended st none)

/-- ST.SETINTERVAL stores every finite value not below 0, and the flag, and refuses every other operand (R132). -/
def Obligations.SetintervalStoresANonnegativeDelay : Prop :=
  ∀ (s : State) (k : Nat) (x : Stepper) (ms : Word64) (kill : Bool), StepperReady s k x →
    ∃ t, exec (.stSetinterval k ms kill) s = .next t ∧ SameBut ⟨.stepper, k⟩ s t ∧ SamePort s.world t.world ∧
      (∀ q, realOperand ms = some q → 0 ≤ q →
        t.stepper k = some { x with interval := q, kill := kill, ctl := x.ctl.ended .ok none }) ∧
      ((realOperand ms = none ∨ ∃ q, realOperand ms = some q ∧ q < 0) →
        t.stepper k = some { x with ctl := x.ctl.ended .configurationError none })

/-- ST.ONESTEP moves the counter by one in the current direction and issues the 24 writes of the new table entry, in order,
when the bus accepts them (R134, R129, R128): the duty and then the two levels of coil A, plus being IN1 high and IN2 low, then
those of coil B (R127), each channel's four bytes in ascending order (R63, R65, R68). -/
def Obligations.OnestepMovesAndWrites : Prop :=
  ∀ (s : State) (k : Nat) (x : Stepper), StepperReady s k x → s.world.busOk 24 →
    let c := x.step + (if x.dir = .forward then 1 else -1)
    let e := tableEntry s.params.curve x.mode (tableIndex s.params.indexConv x.mode c.toInt)
    let emit := fun (ch : Channel) (on off : Timing) =>
      [(s.params.regBase + 4 * BitVec.ofNat 8 ch, on.extractLsb' 0 8),
        (s.params.regBase + 4 * BitVec.ofNat 8 ch + 1, (on.extractLsb' 8 5).zeroExtend 8),
        (s.params.regBase + 4 * BitVec.ofNat 8 ch + 2, off.extractLsb' 0 8),
        (s.params.regBase + 4 * BitVec.ofNat 8 ch + 3, (off.extractLsb' 8 5).zeroExtend 8)]
    let level := fun (ch : Channel) (high : Bool) =>
      if high then emit ch s.params.levelHigh.on s.params.levelHigh.off
      else emit ch s.params.levelLow.on s.params.levelLow.off
    let ws : List RegW :=
      emit x.coils.a.pwm 0 e.dutyA ++ level x.coils.a.in1 (e.polA = .plus) ++ level x.coils.a.in2 (e.polA = .minus) ++
        emit x.coils.b.pwm 0 e.dutyB ++ level x.coils.b.in1 (e.polB = .plus) ++ level x.coils.b.in2 (e.polB = .minus)
    ∃ t, exec (.stOnestep k) s = .next t ∧
      t.stepper k = some { x with step := c, ctl := x.ctl.ended .ok none } ∧ SameBut ⟨.stepper, k⟩ s t ∧
      t.world = (s.world.wrote s.params ws).answer (some ⟨.stepper, k⟩) (x.ctl.ended .ok none)

/-- ST.ONESTEPDIR sets the direction, which stays set, and then steps as ST.ONESTEP does (R135). -/
def Obligations.OnestepdirSetsTheDirection : Prop :=
  ∀ (s : State) (k : Nat) (x : Stepper) (d : Dir), StepperReady s k x → s.world.busOk 24 →
    let c := x.step + (if d = .forward then 1 else -1)
    let ws := entryWrites s.params x.coils
      (tableEntry s.params.curve x.mode (tableIndex s.params.indexConv x.mode c.toInt))
    ∃ t, exec (.stOnestepdir k d) s = .next t ∧
      t.stepper k = some { x with dir := d, step := c, ctl := x.ctl.ended .ok none } ∧ SameBut ⟨.stepper, k⟩ s t ∧
      t.world = (s.world.wrote s.params ws).answer (some ⟨.stepper, k⟩) (x.ctl.ended .ok none)

/-- ST.STOP, and ST.STEP of 0, write 0 to the four registers of each of the six channels, in the order of R128, and leave
counter, direction and mode alone (R145, R137). -/
def Obligations.StopZeroesAllSixChannels : Prop :=
  ∀ (s : State) (k : Nat) (x : Stepper) (i : Instr), StepperReady s k x → s.world.busOk 24 →
    (i = .stStop k ∨ i = .stStep k 0) →
    let ws : List RegW := x.channels.flatMap fun ch =>
      [(chanAddr s.params ch, 0), (chanAddr s.params ch + 1, 0), (chanAddr s.params ch + 2, 0),
        (chanAddr s.params ch + 3, 0)]
    ∃ t, exec i s = .next t ∧ t.stepper k = some { x with ctl := x.ctl.ended .ok none } ∧ SameBut ⟨.stepper, k⟩ s t ∧
      t.world = (s.world.wrote s.params ws).answer (some ⟨.stepper, k⟩) (x.ctl.ended .ok none)

/-- Under repeated ST.ONESTEP the counter goes up by 1 per command in FORWARD and down by 1 in REVERSE, away from the wrap,
whatever the bus does; at the wrap it goes from one end to the other (R136, R134). -/
def Obligations.CounterIsMonotonicAwayFromTheWrap : Prop :=
  ∀ (s t : State) (k : Nat) (x y : Stepper), StepperReady s k x → exec (.stOnestep k) s = .next t →
    t.stepper k = some y →
    y.dir = x.dir ∧
      (x.dir = .forward → x.step.toInt < 2 ^ 63 - 1 → y.step.toInt = x.step.toInt + 1) ∧
      (x.dir = .forward → x.step.toInt = 2 ^ 63 - 1 → y.step.toInt = -(2 ^ 63)) ∧
      (x.dir = .reverse → -(2 ^ 63) < x.step.toInt → y.step.toInt = x.step.toInt - 1) ∧
      (x.dir = .reverse → x.step.toInt = -(2 ^ 63) → y.step.toInt = 2 ^ 63 - 1)

/-- An unthrottled ST.STEP of n ≠ 0 completes when the bus accepts its writes: the counter has moved by n, the direction is
the sign of n, RUN is idle, and the 24 writes of each of the steps were issued in order (R137, R129, R138). -/
def Obligations.StepRunsAllItsSteps : Prop :=
  ∀ (s : State) (k : Nat) (x : Stepper) (n : Word64), StepperReady s k x → n ≠ 0 → x.interval = 0 →
    s.world.busOk (24 * n.toInt.natAbs) →
    let d : Dir := if 0 < n.toInt then .forward else .reverse
    let ws := runWrites s.params x d n.toInt.natAbs
    ∃ t, exec (.stStep k n) s = .next t ∧
      t.stepper k = some { x with step := x.step + n, dir := d, run := .idle, ctl := x.ctl.ended .ok none } ∧
      SameBut ⟨.stepper, k⟩ s t ∧ t.world.regs = Memory.after ws s.world.regs ∧
      t.world.log = s.world.log ++ ws.map (accepted s.params) ∧ t.world.freqHz = s.world.freqHz ∧
      t.world.lines = s.world.lines ∧
      t.world.answers = s.world.answers ++ [⟨some ⟨.stepper, k⟩, .ok, x.ctl.readResult⟩]

/-- After a successful ST.STEP with n ≠ 0, paced or not, the counter has moved by n and the direction is the sign of n (R140). -/
def Obligations.SuccessfulStepMovedByN : Prop :=
  ∀ (s t : State) (k : Nat) (x y : Stepper) (n : Word64) (b : Answer), StepperReady s k x → n ≠ 0 →
    exec (.stStep k n) s = .next t → t.stepper k = some y → t.world.answers = s.world.answers ++ [b] → b.status = .ok →
    y.step = x.step + n ∧ y.dir = (if 0 < n.toInt then .forward else .reverse) ∧ y.run = .idle

/-- A successful paced ST.STEP of |n| steps lasts at least |n| · T by the time source, T = INTERVAL · 10^6 ns, from the first
step's start on (R341, R138, R291). -/
def Obligations.PacedRunLastsAtLeastNTimesT : Prop :=
  ∀ (s t : State) (k : Nat) (x : Stepper) (n : Word64) (b : Answer), StepperReady s k x → n ≠ 0 →
    s.params.numeric = .exact → 0 ≤ x.interval →
    exec (.stStep k n) s = .next t → t.world.answers = s.world.answers ++ [b] → b.status = .ok →
    (n.toInt.natAbs : Rat) * (x.interval * 10 ^ 6) ≤ (t.world.clock.toNat : Rat) - (s.world.nowValue.toNat : Rat)

/-- The deadline of one paced step, on ST.STEP of 1 or −1: late under KILL it ends in the all-stop and TIMING_ERROR, after the
step's writes and with the step counted; on time exactly, or late without KILL, it ends OK with no sleep; early, it sleeps the
remainder and ends OK (R138, R141). -/
def Obligations.DeadlineDecidesAPacedStep : Prop :=
  ∀ (s : State) (k : Nat) (x : Stepper) (n : Word64), StepperReady s k x → (n = 1 ∨ n = -1) →
    s.params.numeric = .exact → 0 < x.interval → s.world.busOk 24 →
    let d : Dir := if n = 1 then .forward else .reverse
    let ws := runWrites s.params x d 1
    let T : Rat := x.interval * 10 ^ 6
    let t1 := s.world.afterNow.nowValue
    let el : Rat := (t1.toNat : Rat) - (s.world.nowValue.toNat : Rat)
    ∃ t y, exec (.stStep k n) s = .next t ∧ t.stepper k = some y ∧ y.step = x.step + n ∧ SameBut ⟨.stepper, k⟩ s t ∧
      (T < el → x.kill = true →
        y = { x with step := x.step + n, dir := d, run := .idle, ctl := x.ctl.ended .timingError none } ∧
          t.world.log = s.world.log ++ (ws ++ (allStopAddrs s.params).map fun a => (a, 0)).map (accepted s.params)) ∧
      ((el = T ∨ T < el ∧ x.kill = false) →
        y = { x with step := x.step + n, dir := d, run := .idle, ctl := x.ctl.ended .ok none } ∧
          t.world.log = s.world.log ++ ws.map (accepted s.params) ∧ t.world.clock = t1) ∧
      (el < T → (t1.toNat : Int) + (T - el).ceil < 2 ^ 64 →
        y = { x with step := x.step + n, dir := d, run := .idle, ctl := x.ctl.ended .ok none } ∧
          t.world.log = s.world.log ++ ws.map (accepted s.params) ∧
          (t.world.clock.toNat : Int) = (t1.toNat : Int) + (T - el).ceil)

/-- The first register write that fails ends a stepper command, whichever write of it that is: those before it were accepted, no later
one is issued, the all-stop follows, the status is BUS_ERROR, RUN is idle, and DIR and the counter keep the values they had taken (R273, R129).
So it is for ST.ONESTEP, ST.ONESTEPDIR and ST.STOP; for ST.STEP and ST.ROTATE of 0 steps, which stop; and for their runs of n
steps, unthrottled or in the first step of any: the write j fails in step j / 24, and the counter has moved j / 24 + 1 times. A paced
run that answers BUS_ERROR has ended in the same way, at whichever write of it. -/
def Obligations.BusErrorEndsAStepperCommand : Prop :=
  ∀ (s : State) (k : Nat) (x : Stepper), StepperReady s k x →
    let ended := fun (j : Nat) (t : State) (y : Stepper) (ws : List RegW) =>
      SameBut ⟨.stepper, k⟩ s t ∧ t.stepper k = some { y with run := .idle, ctl := x.ctl.ended .busError none } ∧
        t.world.log = s.world.log ++ failedLog s.params ws j (s.world.busAt j) ∧
        t.world.answers = s.world.answers ++ [⟨some ⟨.stepper, k⟩, .busError, x.ctl.readResult⟩]
    let dir := fun n : Word64 => if 0 < n.toInt then Dir.forward else Dir.reverse
    let moved := fun (j : Nat) (n : Word64) => { x with step := counterAfter x.step (dir n) (j / 24 + 1), dir := dir n }
    (∀ j, s.world.busOk j → s.world.busAt j ≠ .ok →
      (j < 24 →
        (∃ t, exec (.stOnestep k) s = .next t ∧ ended j t x.advance (x.advance.writes s.params)) ∧
          (∀ d, let y := Stepper.advance { x with dir := d }
            ∃ t, exec (.stOnestepdir k d) s = .next t ∧ ended j t y (y.writes s.params)) ∧
          (∃ t, exec (.stStop k) s = .next t ∧ ended j t x (stopWrites s.params x.coils)) ∧
          ∀ i, RunsBy s k x i 0 → ∃ t, exec i s = .next t ∧ ended j t x (stopWrites s.params x.coils)) ∧
        ∀ i n, RunsBy s k x i n → n ≠ 0 → j < 24 * n.toInt.natAbs → (x.interval = 0 ∨ j < 24) →
          ∃ t, exec i s = .next t ∧ ended j t (moved j n) (runWrites s.params x (dir n) n.toInt.natAbs)) ∧
      ∀ i n t b, RunsBy s k x i n → n ≠ 0 → exec i s = .next t → t.world.answers = s.world.answers ++ [b] →
        b.status = .busError →
        ∃ j, j < 24 * n.toInt.natAbs ∧ s.world.busOk j ∧ s.world.busAt j ≠ .ok ∧
          ended j t (moved j n) (runWrites s.params x (dir n) n.toInt.natAbs)

/-- ST.ROTATE completes as ST.STEP of round(revs · SPR) does: the exact product rounded by floor(x + 1/2), which for an
unthrottled run moves the counter by that count, or stops the motor when it is 0 (R143). -/
def Obligations.RotateRunsTheRoundedCount : Prop :=
  ∀ (s : State) (k : Nat) (x : Stepper) (revs : Word64) (q : Rat) (spr : BitVec 32), StepperReady s k x →
    s.params.numeric = .exact → x.spr = some spr → realOperand revs = some q →
    let n : Int := (q * spr.toNat + 1 / 2).floor
    n ≤ 2 ^ 63 - 1 → -(2 ^ 63) ≤ n →
    exec (.stRotate k revs) s = exec (.stStep k (BitVec.ofInt 64 n)) s ∧
      (n ≠ 0 → x.interval = 0 → s.world.busOk (24 * n.natAbs) →
        ∃ t, exec (.stRotate k revs) s = .next t ∧ SameBut ⟨.stepper, k⟩ s t ∧
          t.stepper k = some { x with
            step := x.step + BitVec.ofInt 64 n, dir := if 0 < n then .forward else .reverse, run := .idle,
            ctl := x.ctl.ended .ok none }) ∧
      (n = 0 → s.world.busOk 24 →
        ∃ t, exec (.stRotate k revs) s = .next t ∧ SameBut ⟨.stepper, k⟩ s t ∧
          t.stepper k = some { x with ctl := x.ctl.ended .ok none } ∧
          t.world.log = s.world.log ++ (stopWrites s.params x.coils).map (accepted s.params))

/-- Where ST.ROTATE does not turn: SPR unset comes first, then an operand that is not finite, then a count outside i64; none
of them changes or writes anything (R143, R276). -/
def Obligations.RotateRefusesInOrder : Prop :=
  ∀ (s : State) (k : Nat) (x : Stepper) (revs : Word64), StepperReady s k x → s.params.numeric = .exact →
    (x.spr = none → exec (.stRotate k revs) s =
      .next (s.putStepper k (Stepper.finish k .configurationError none x s.world))) ∧
    ∀ spr, x.spr = some spr →
      (realOperand revs = none → exec (.stRotate k revs) s =
        .next (s.putStepper k (Stepper.finish k .rangeError none x s.world))) ∧
      ∀ q, realOperand revs = some q →
        ((q * spr.toNat + 1 / 2).floor < -(2 ^ 63) ∨ 2 ^ 63 - 1 < (q * spr.toNat + 1 / 2).floor) →
        exec (.stRotate k revs) s = .next (s.putStepper k (Stepper.finish k .rangeError none x s.world))

/-- A successful ST.ROTATE moves the counter by floor(r · SPR + 1/2); ST.ROTATE of r and then of −r (the operand with its sign bit
turned) returns it to its start, except when r · SPR lies exactly halfway between two integers, where it ends 1 higher (R142). -/
def Obligations.RotateThereAndBack : Prop :=
  ∀ (s t u : State) (k : Nat) (x y z : Stepper) (revs : Word64) (q : Rat) (spr : BitVec 32) (b c : Answer),
    StepperReady s k x → s.params.numeric = .exact → x.spr = some spr → realOperand revs = some q →
    exec (.stRotate k revs) s = .next t → t.stepper k = some y →
    t.world.answers = s.world.answers ++ [b] → b.status = .ok →
    exec (.stRotate k (revs ^^^ 0x8000000000000000)) t = .next u → u.stepper k = some z →
    u.world.answers = t.world.answers ++ [c] → c.status = .ok →
    y.step = x.step + BitVec.ofInt 64 (q * spr.toNat + 1 / 2).floor ∧
      ((∀ m : Int, q * spr.toNat ≠ m + 1 / 2) → z.step = x.step) ∧
      ((∃ m : Int, q * spr.toNat = m + 1 / 2) → z.step = x.step + 1)

/-- ST.GETSTEP returns the counter in RESULT and writes nothing (R144). -/
def Obligations.GetstepReturnsTheCounter : Prop :=
  ∀ (s : State) (k : Nat) (x : Stepper), StepperReady s k x →
    ∃ t, exec (.stGetstep k) s = .next t ∧
      t.stepper k = some { x with ctl := { x.ctl with status := .ok, result := x.step, resultWritten := true } } ∧
      SameBut ⟨.stepper, k⟩ s t ∧
      t.world = { s.world with answers := s.world.answers ++ [⟨some ⟨.stepper, k⟩, .ok, some x.step⟩] }

/-- The table lengths L(mode) (R120), and the table index under both conventions, FLOOR_MOD being the default: they agree for every counter value from 1 on and
differ at 0, and FLOOR_MOD is the low bits of STEP − 1 in two's complement (R125). -/
def Obligations.TableIndexConventions : Prop :=
  launchParams.indexConv = .floorMod ∧
    [Mode.singlePhase, .doublePhase, .halfStep, .multiStep].map tableLength = [4, 4, 8, 32] ∧
    ∀ m : Mode,
      (∀ n : Int, (tableIndex .floorMod m n : Int) = (n - 1) % tableLength m ∧
        tableIndex .absLegacy m n = (n - 1).natAbs % tableLength m) ∧
      (∀ n : Int, 1 ≤ n → tableIndex .floorMod m n = tableIndex .absLegacy m n) ∧
      tableIndex .floorMod m 0 ≠ tableIndex .absLegacy m 0 ∧
      ∀ v : Word64, tableIndex .floorMod m v.toInt = (v - 1).toNat % tableLength m

/-- The four coil tables, entry by entry (R121 to R124; R126 with the curve C[0] = 0, C[1], …, C[7], C[8] = 4095), and the 24
register writes of an entry in their order (R127, R128, R63, R65, R68), in which the other statements speak. -/
def Obligations.CoilTables : Prop :=
  (∀ c : Curve,
    (List.range 4).map (tableEntry c .singlePhase) =
        [⟨.plus, 4095, .plus, 0⟩, ⟨.minus, 0, .plus, 4095⟩, ⟨.minus, 4095, .minus, 0⟩, ⟨.plus, 0, .minus, 4095⟩] ∧
      (List.range 4).map (tableEntry c .doublePhase) =
        [⟨.plus, 4095, .plus, 4095⟩, ⟨.minus, 4095, .plus, 4095⟩, ⟨.minus, 4095, .minus, 4095⟩,
          ⟨.plus, 4095, .minus, 4095⟩] ∧
      (List.range 8).map (tableEntry c .halfStep) =
        [⟨.plus, 4095, .plus, 0⟩, ⟨.plus, 4095, .plus, 4095⟩, ⟨.minus, 0, .plus, 4095⟩, ⟨.minus, 4095, .plus, 4095⟩,
          ⟨.minus, 4095, .minus, 0⟩, ⟨.minus, 4095, .minus, 4095⟩, ⟨.plus, 0, .minus, 4095⟩, ⟨.plus, 4095, .minus, 4095⟩] ∧
      let C : List Timing := [0, c.c1.zeroExtend 13, c.c2.zeroExtend 13, c.c3.zeroExtend 13, c.c4.zeroExtend 13,
        c.c5.zeroExtend 13, c.c6.zeroExtend 13, c.c7.zeroExtend 13, 4095]
      ∀ q m : Nat, q < 4 → m < 8 →
        tableEntry c .multiStep (8 * q + m) =
          ⟨[Polarity.plus, .minus, .minus, .plus].getD q .plus, C.getD (if q % 2 = 0 then 8 - m else m) 0,
            [Polarity.plus, .plus, .minus, .minus].getD q .plus, C.getD (if q % 2 = 0 then m else 8 - m) 0⟩) ∧
    ∀ (p : Params) (x : Coils) (e : Entry),
      let emit := fun (ch : Channel) (on off : Timing) =>
        [(p.regBase + 4 * BitVec.ofNat 8 ch, on.extractLsb' 0 8),
          (p.regBase + 4 * BitVec.ofNat 8 ch + 1, (on.extractLsb' 8 5).zeroExtend 8),
          (p.regBase + 4 * BitVec.ofNat 8 ch + 2, off.extractLsb' 0 8),
          (p.regBase + 4 * BitVec.ofNat 8 ch + 3, (off.extractLsb' 8 5).zeroExtend 8)]
      let level := fun (ch : Channel) (high : Bool) =>
        if high then emit ch p.levelHigh.on p.levelHigh.off else emit ch p.levelLow.on p.levelLow.off
      entryWrites p x e =
        emit x.a.pwm 0 e.dutyA ++ level x.a.in1 (e.polA = .plus) ++ level x.a.in2 (e.polA = .minus) ++
          emit x.b.pwm 0 e.dutyB ++ level x.b.in1 (e.polB = .plus) ++ level x.b.in2 (e.polB = .minus)

/-! Servo. -/

/-- SV.SETLIMITS stores 0 < min < neutral < max and refuses every other triple, changing nothing (R181). -/
def Obligations.SetlimitsDemandsOrder : Prop :=
  ∀ (s : State) (j : Nat) (x : Servo) (mn ne mx : Word64), ServoReady s j x →
    ∃ t, exec (.svSetlimits j mn ne mx) s = .next t ∧ SameBut ⟨.servo, j⟩ s t ∧ SamePort s.world t.world ∧
      (∀ a b c, realOperand mn = some a → realOperand ne = some b → realOperand mx = some c → 0 < a → a < b → b < c →
        t.servo j = some { x with limits := ⟨a, b, c⟩, ctl := x.ctl.ended .ok none }) ∧
      ((¬ ∃ a b c, realOperand mn = some a ∧ realOperand ne = some b ∧ realOperand mx = some c ∧
          0 < a ∧ a < b ∧ b < c) →
        t.servo j = some { x with ctl := x.ctl.ended .rangeError none })

/-- SV.SETRANGE stores minX < maxX and refuses every other pair, changing nothing (R182). -/
def Obligations.SetrangeDemandsOrder : Prop :=
  ∀ (s : State) (j : Nat) (x : Servo) (mn mx : Word64), ServoReady s j x →
    ∃ t, exec (.svSetrange j mn mx) s = .next t ∧ SameBut ⟨.servo, j⟩ s t ∧ SamePort s.world t.world ∧
      (∀ a b, realOperand mn = some a → realOperand mx = some b → a < b →
        t.servo j = some { x with minX := a, maxX := b, ctl := x.ctl.ended .ok none }) ∧
      ((¬ ∃ a b, realOperand mn = some a ∧ realOperand mx = some b ∧ a < b) →
        t.servo j = some { x with ctl := x.ctl.ended .rangeError none })

/-- SV.SETPW within the limits and the period writes ON = 0 and OFF = round((ms / period) · 4095) to its channel, low byte
first, and leaves POS alone (R184, R180, R190). -/
def Obligations.SetpwWritesTheDuty : Prop :=
  ∀ (s : State) (j : Nat) (x : Servo) (ms : Word64) (q : Rat), ServoReady s j x → s.params.numeric = .exact →
    freqLegal s.world.freqHz = true → realOperand ms = some q → x.limits.min ≤ q → q ≤ x.limits.max →
    q ≤ 1000 / s.world.freqHz → 0 < q → s.world.busOk 4 →
    let d : BitVec 16 := BitVec.ofInt 16 (q / (1000 / s.world.freqHz) * 4095 + 1 / 2).floor
    let ws : List RegW := [(chanAddr s.params x.ch, 0), (chanAddr s.params x.ch + 1, 0),
      (chanAddr s.params x.ch + 2, d.extractLsb' 0 8), (chanAddr s.params x.ch + 3, d.extractLsb' 8 8)]
    ∃ t, exec (.svSetpw j ms) s = .next t ∧ t.servo j = some { x with ctl := x.ctl.ended .ok none } ∧
      SameBut ⟨.servo, j⟩ s t ∧
      t.world = (s.world.wrote s.params ws).answer (some ⟨.servo, j⟩) (x.ctl.ended .ok none)

/-- SV.SETPW of a width that is not finite, lies outside the limits, or exceeds the period is RANGE_ERROR, with nothing
written and nothing changed (R184). -/
def Obligations.SetpwRefusesOutOfRange : Prop :=
  ∀ (s : State) (j : Nat) (x : Servo) (ms : Word64), ServoReady s j x → s.params.numeric = .exact →
    freqLegal s.world.freqHz = true →
    (realOperand ms = none ∨ ∃ q, realOperand ms = some q ∧
      (q < x.limits.min ∨ x.limits.max < q ∨ 1000 / s.world.freqHz < q)) →
    exec (.svSetpw j ms) s = .next (s.putServo j (Servo.finish j .rangeError none x s.world))

/-- The duty of a width 0 < ms ≤ period is round((ms / period) · 4095), and it lies in [0, 4095] (R183). -/
def Obligations.DutyFitsTwelveBits : Prop :=
  ∀ (p : Params) (hz ms : Rat), p.numeric = .exact → freqLegal hz = true → 0 < ms → ms ≤ 1000 / hz →
    ((servoDuty p hz ms).toNat : Int) = max 0 (ms / (1000 / hz) * 4095 + 1 / 2).floor ∧ (servoDuty p hz ms).toNat ≤ 4095

/-- SV.SETPOS in range maps x on the line through (MINX, MAXPW) and (MAXX, MINPW), writes the duty of that width, and only
then takes x as the position (R186). -/
def Obligations.SetposMapsInverted : Prop :=
  ∀ (s : State) (j : Nat) (x : Servo) (pos : Word64) (q : Rat), ServoReady s j x → s.params.numeric = .exact →
    freqLegal s.world.freqHz = true → limitsOrdered x.limits = true → x.minX < x.maxX → realOperand pos = some q →
    x.minX ≤ q → q ≤ x.maxX → s.world.busOk 4 →
    let pw := x.limits.max + (q - x.minX) * (x.limits.min - x.limits.max) / (x.maxX - x.minX)
    x.limits.min ≤ pw ∧ pw ≤ x.limits.max ∧
      (pw ≤ 1000 / s.world.freqHz →
        ∃ t, exec (.svSetpos j pos) s = .next t ∧ SameBut ⟨.servo, j⟩ s t ∧
          t.servo j = some { x with pos := some q, ctl := x.ctl.ended .ok none } ∧
          t.world = (s.world.wrote s.params (channelWrites s.params x.ch 0 (servoDuty s.params s.world.freqHz pw))).answer
            (some ⟨.servo, j⟩) (x.ctl.ended .ok none)) ∧
      (1000 / s.world.freqHz < pw →
        exec (.svSetpos j pos) s = .next (s.putServo j (Servo.finish j .rangeError none x s.world)))

/-- With range [0, 100]: position 0 writes the duty of MAXPW, position 100 the duty of MINPW, and a value outside is
RANGE_ERROR (R187). -/
def Obligations.SetposEndsAreSwapped : Prop :=
  ∀ (s : State) (j : Nat) (x : Servo) (pos : Word64) (q : Rat), ServoReady s j x → s.params.numeric = .exact →
    freqLegal s.world.freqHz = true → limitsOrdered x.limits = true →
    x.minX = 0 → x.maxX = 100 → realOperand pos = some q →
    ∃ t, exec (.svSetpos j pos) s = .next t ∧
      (q = 0 → x.limits.max ≤ 1000 / s.world.freqHz → s.world.busOk 4 → t.world.log = s.world.log ++
        (channelWrites s.params x.ch 0 (servoDuty s.params s.world.freqHz x.limits.max)).map (accepted s.params)) ∧
      (q = 100 → x.limits.min ≤ 1000 / s.world.freqHz → s.world.busOk 4 → t.world.log = s.world.log ++
        (channelWrites s.params x.ch 0 (servoDuty s.params s.world.freqHz x.limits.min)).map (accepted s.params)) ∧
      ((q < 0 ∨ 100 < q) → t = s.putServo j (Servo.finish j .rangeError none x s.world))

/-- The first register write that fails, at any of the four of SV.SETPW or SV.SETPOS of an accepted width: those before it, that
write, the all-stop, BUS_ERROR, and POS keeps its old value, as every other field does (R184, R186, R273). -/
def Obligations.BusErrorKeepsThePosition : Prop :=
  ∀ (s : State) (j : Nat) (x : Servo) (n : Nat), ServoReady s j x → n < 4 → s.world.busOk n → s.world.busAt n ≠ .ok →
    let fails := fun (i : Instr) (width : Rat) => x.limits.min ≤ width → width ≤ x.limits.max →
      Num.lt (servoPeriod s.params s.world.freqHz) (.fin width) = false →
      ∃ t, exec i s = .next t ∧ SameBut ⟨.servo, j⟩ s t ∧
        t.servo j = some { x with ctl := x.ctl.ended .busError none } ∧
        t.world.log = s.world.log ++ failedLog s.params
          (channelWrites s.params x.ch 0 (servoDuty s.params s.world.freqHz width)) n (s.world.busAt n) ∧
        t.world.answers = s.world.answers ++ [⟨some ⟨.servo, j⟩, .busError, x.ctl.readResult⟩]
    (∀ ms q, realOperand ms = some q → fails (.svSetpw j ms) q) ∧
      ∀ pos q, realOperand pos = some q → x.minX ≤ q → q ≤ x.maxX →
        fails (.svSetpos j pos) (servoWidth s.params x q s.world)

/-- SV.GETPOS returns the position as binary64, and is NO_VALUE before the first one (R188). -/
def Obligations.GetposReturnsThePosition : Prop :=
  ∀ (s : State) (j : Nat) (x : Servo), ServoReady s j x →
    ∃ t, exec (.svGetpos j) s = .next t ∧ SameBut ⟨.servo, j⟩ s t ∧ SamePort s.world t.world ∧
      (x.pos = none → t.servo j = some { x with ctl := x.ctl.ended .noValue none }) ∧
      ∀ q, x.pos = some q → t.servo j = some { x with ctl := x.ctl.ended .ok (some (Binary64.ofRat q)) }

/-- Converting a finite operand to a rational and back loses nothing, but for the sign of zero (R13). So SV.GETPOS returns the
very bits of the last position accepted (R188). -/
def Obligations.FiniteOperandsSurviveConversion : Prop :=
  ∀ (b : Word64) (q : Rat), realOperand b = some q →
    Binary64.ofRat q = if b = 0x8000000000000000 then 0 else b

/-! Decoder. -/

/-- QD.POLL, and the decoder's own poll, which answers nobody and waits for no command, are each one `Poll()` of the decoder, whose
pushes are the matter of the statements on it below: GRAY and POS after reading lines A and B, for all four kinds of transition
under both policies (R222 to R226, R220, R234, R229). -/
def Obligations.PollMovesTheCounter : Prop :=
  ∀ (s : State) (d : Nat) (x : Qdec), s.halted = false → s.qdec d = some x →
    let a := s.world.lines.peek (Config.lineLevel x.pinA) 0
    let b := s.world.lines.peek (Config.lineLevel x.pinB) 1
    let o : BitVec 2 := if a then (if b then 2 else 1) else (if b then 3 else 0)
    let y := (x.poll s.params s.world).1
    let w := (x.poll s.params s.world).2
    (x.free = true → ∃ t, exec (.qdPoll d) s = .next t ∧ t.qdec d = some { y with ctl := x.ctl.ended .ok none } ∧
        SameBut ⟨.qdec, d⟩ s t ∧ t.world = w.answer (some ⟨.qdec, d⟩) (x.ctl.ended .ok none)) ∧
      (s.nextEvent = .poll d → ∃ t, step s = .next t ∧ t.qdec d = some y ∧ SameBut ⟨.qdec, d⟩ s.afterEvent t ∧
        t.world = w) ∧
      w.regs = s.world.regs ∧ w.log = s.world.log ∧ w.answers = s.world.answers ∧ w.freqHz = s.world.freqHz ∧
      w.clock = s.world.nowValue ∧ y.ctl = x.ctl ∧ y.offset = x.offset ∧ y.pinA = x.pinA ∧ y.pinB = x.pinB ∧
      (o = x.gray + 1 → y.gray = o ∧ y.pos = (x.pos + 1).bmod (2 ^ s.params.posBits)) ∧
      (o = x.gray - 1 → y.gray = o ∧ y.pos = (x.pos - 1).bmod (2 ^ s.params.posBits)) ∧
      (o = x.gray → y.gray = x.gray ∧ y.pos = x.pos) ∧
      (o = x.gray + 2 → y.pos = x.pos ∧ y.gray = if s.params.invalidPolicy = .hold then x.gray else o)

/-- From GRAY 0, polls reading (1,0), (1,1), (0,1), (0,0) in turn leave POS 4 more than before, and the reverse cycle leaves it
4 less, modulo the counter's width; a pair two states away leaves POS unchanged (R230). -/
def Obligations.FourPollsCountFour : Prop :=
  ∀ (p : Params) (x : Qdec) (w : World) (rest : List Bool) (n : Nat), x.gray = 0 →
    let poll := fun r : Qdec × World => r.1.poll p r.2
    let read := fun l : List Bool => { w with lines := (⟨l ++ rest, n⟩ : Tape Bool) }
    (poll (poll (poll (poll (x, read [true, false, true, true, false, true, false, false]))))).1.pos =
        (x.pos + 4).bmod (2 ^ p.posBits) ∧
      (poll (poll (poll (poll (x, read [false, true, true, true, true, false, false, false]))))).1.pos =
        (x.pos - 4).bmod (2 ^ p.posBits) ∧
      ∀ (y : Qdec) (a b : Bool), (if a then (if b then 2 else 1) else (if b then 3 else 0)) = y.gray + 2 →
        (poll (y, read [a, b])).1.pos = y.pos

/-- A poll pushes a sample exactly when none was ever pushed, the counter differs from its value at the last push, or at least
POLL_INTERVAL_NS have passed; the sample is the time and POS / COUNTS_PER_UNIT (R228, R222). -/
def Obligations.PollPushesWhenDue : Prop :=
  ∀ (p : Params) (x : Qdec) (w : World), p.numeric = .exact → 0 < p.countsPerUnit →
    let y := x.observe p (observed (w.lineNext x.pinA) (w.afterLine.lineNext x.pinB))
    let t := w.nowValue
    ((x.lastT = none ∨ x.lastPos ≠ some y.pos ∨
        ∃ t0, x.lastT = some t0 ∧ (p.pollIntervalNs : Int) ≤ (t.toNat : Int) - (t0.toNat : Int)) →
      (x.poll p w).1 = { y.push p ⟨t, (y.pos : Rat) / p.countsPerUnit⟩ with lastT := some t, lastPos := some y.pos }) ∧
      (∀ t0, x.lastT = some t0 → x.lastPos = some y.pos →
        (t.toNat : Int) - (t0.toNat : Int) < (p.pollIntervalNs : Int) → (x.poll p w).1 = y)

/-- A push writes its sample at HEAD, moves HEAD on modulo RING_SIZE and counts up to RING_SIZE; so the ring keeps the RING_SIZE
newest samples, newest first as they are read back, and a full ring drops its oldest (R227, R41). -/
def Obligations.RingKeepsTheNewestSamples : Prop :=
  ∀ (p : Params) (x : Qdec) (e : Sample), x.ring.length = p.ringSize → x.head < p.ringSize → x.count ≤ p.ringSize →
    (x.push p e).ring[x.head]? = some e ∧ (x.push p e).head = (x.head + 1) % p.ringSize ∧
      (x.push p e).count = min (x.count + 1) p.ringSize ∧
      (x.push p e).samples p = e :: (x.samples p).take (p.ringSize - 1) ∧ (x.push p e).newest p = e

/-- QD.GETPOS returns the newest sample less OFFSET as binary64, NO_VALUE on an empty ring, and changes neither ring nor
counter (R231). -/
def Obligations.GetposReturnsThePublishedValue : Prop :=
  ∀ (s : State) (d : Nat) (x : Qdec), QdecReady s d x → s.params.numeric = .exact →
    ∃ t, exec (.qdGetpos d) s = .next t ∧ SameBut ⟨.qdec, d⟩ s t ∧ SamePort s.world t.world ∧
      (x.count = 0 → t.qdec d = some { x with ctl := x.ctl.ended .noValue none }) ∧
      (0 < x.count →
        t.qdec d = some { x with ctl := x.ctl.ended .ok (some (Binary64.ofRat ((x.newest s.params).v - x.offset))) })

/-- After any poll the newest sample is POS / COUNTS_PER_UNIT, so that QD.GETPOS then reads the counter itself (R231, R228).
The premise on the samples before is kept by the same statement. -/
def Obligations.PublishedValueFollowsTheCounter : Prop :=
  ∀ (p : Params) (x : Qdec) (w : World), p.numeric = .exact → 0 < p.countsPerUnit → x.ring.length = p.ringSize →
    x.head < p.ringSize →
    (∀ n, x.lastPos = some n → (x.newest p).v = (n : Rat) / p.countsPerUnit) →
    let y := (x.poll p w).1
    (y.newest p).v = (y.pos : Rat) / p.countsPerUnit ∧
      ∀ n, y.lastPos = some n → (y.newest p).v = (n : Rat) / p.countsPerUnit

/-- QD.GETDERIV over the samples it scans, newest first: with e the first of them older than now − window, or the oldest when
none is, the result is (newest − e.v) · 10^9 / (now − e.t) as binary64 where now is later than e, and ZERO_INTERVAL where it
is not (R232). -/
def Obligations.GetderivMeasuresFromTheRightSample : Prop :=
  ∀ (s : State) (d : Nat) (x : Qdec) (window : Word64) (q : Rat) (i : Nat) (e : Sample), QdecReady s d x →
    s.params.numeric = .exact → realOperand window = some q → 0 ≤ q → (x.samples s.params)[i]? = some e →
    (∀ (m : Nat) (f : Sample), m < i → (x.samples s.params)[m]? = some f →
      (s.world.nowValue.toNat : Rat) - q * 10 ^ 9 ≤ f.t.toNat) →
    ((e.t.toNat : Rat) < s.world.nowValue.toNat - q * 10 ^ 9 ∨ i + 1 = x.count) →
    ∃ t, exec (.qdGetderiv d window) s = .next t ∧ SameBut ⟨.qdec, d⟩ s t ∧ SamePort s.world t.world ∧
      t.world.clock = s.world.nowValue ∧
      (e.t.toNat < s.world.nowValue.toNat → t.qdec d = some { x with ctl := x.ctl.ended .ok (some (Binary64.ofRat
        (((x.newest s.params).v - e.v) * 10 ^ 9 / ((s.world.nowValue.toNat : Rat) - e.t.toNat)))) }) ∧
      (s.world.nowValue.toNat ≤ e.t.toNat → t.qdec d = some { x with ctl := x.ctl.ended .zeroInterval none })

/-- Where QD.GETDERIV refuses before it reads the time: a window not finite or negative, then an empty ring (R232, R276). -/
def Obligations.GetderivRefusesInOrder : Prop :=
  ∀ (s : State) (d : Nat) (x : Qdec) (window : Word64), QdecReady s d x →
    ((realOperand window = none ∨ ∃ q, realOperand window = some q ∧ q < 0) →
      exec (.qdGetderiv d window) s = .next (s.putQdec d (Qdec.finish d .rangeError none x s.world))) ∧
    ∀ q, realOperand window = some q → 0 ≤ q → x.count = 0 →
      exec (.qdGetderiv d window) s = .next (s.putQdec d (Qdec.finish d .noValue none x s.world))

/-- QD.RESET takes the newest value as the offset, or does nothing on an empty ring, and leaves ring, GRAY, POS, LASTT and
LASTPOS as they are; a QD.GETPOS right after returns 0 (R233). -/
def Obligations.ResetZeroesThePublishedPosition : Prop :=
  ∀ (s : State) (d : Nat) (x : Qdec), QdecReady s d x → s.params.numeric = .exact →
    ∃ t, exec (.qdReset d) s = .next t ∧ SameBut ⟨.qdec, d⟩ s t ∧ SamePort s.world t.world ∧
      t.qdec d = some { x with
        offset := if 0 < x.count then (x.newest s.params).v else x.offset, ctl := x.ctl.ended .ok none } ∧
      (0 < x.count → ∃ u y, exec (.qdGetpos d) t = .next u ∧ u.qdec d = some y ∧ y.ctl.status = .ok ∧ y.ctl.result = 0)
end

