-- ==== Sys2Proof/Laws/State.lean ====
section
/-! SUPPORT. One lemma per field per update, and looking an instance up after one was put back. -/

namespace Sys2Proof.Machine

@[simp] theorem World.regWrite_regs (p : Params) (r : RegW) (w : World) : (w.regWrite p r).regs = if landed w.busNext then Memory.write w.regs r.1.toNat r.2 else w.regs := rfl
@[simp] theorem World.regWrite_log (p : Params) (r : RegW) (w : World) : (w.regWrite p r).log = w.log ++ [⟨p.devAddr, r.1, r.2, w.busNext⟩] := rfl
@[simp] theorem World.regWrite_answers (p : Params) (r : RegW) (w : World) : (w.regWrite p r).answers = w.answers := rfl
@[simp] theorem World.regWrite_clock (p : Params) (r : RegW) (w : World) : (w.regWrite p r).clock = w.clock := rfl
@[simp] theorem World.regWrite_freqHz (p : Params) (r : RegW) (w : World) : (w.regWrite p r).freqHz = w.freqHz := rfl
@[simp] theorem World.regWrite_bus (p : Params) (r : RegW) (w : World) : (w.regWrite p r).bus = w.bus.rest := rfl
@[simp] theorem World.regWrite_lines (p : Params) (r : RegW) (w : World) : (w.regWrite p r).lines = w.lines := rfl
@[simp] theorem World.regWrite_time (p : Params) (r : RegW) (w : World) : (w.regWrite p r).time = w.time := rfl
@[simp] theorem World.regWrite_fresh (p : Params) (r : RegW) (w : World) : (w.regWrite p r).fresh = w.fresh := rfl

@[simp] theorem World.allStop_regs (p : Params) (w : World) : (w.allStop p).regs = Memory.writeAll (allStopReach p) 0 w.regs := rfl
@[simp] theorem World.allStop_log (p : Params) (w : World) : (w.allStop p).log = w.log ++ (allStopAddrs p).map fun a => ⟨p.devAddr, a, 0, .ok⟩ := rfl
@[simp] theorem World.allStop_answers (p : Params) (w : World) : (w.allStop p).answers = w.answers := rfl
@[simp] theorem World.allStop_clock (p : Params) (w : World) : (w.allStop p).clock = w.clock := rfl
@[simp] theorem World.allStop_freqHz (p : Params) (w : World) : (w.allStop p).freqHz = w.freqHz := rfl
@[simp] theorem World.allStop_bus (p : Params) (w : World) : (w.allStop p).bus = w.bus := rfl
@[simp] theorem World.allStop_lines (p : Params) (w : World) : (w.allStop p).lines = w.lines := rfl
@[simp] theorem World.allStop_time (p : Params) (w : World) : (w.allStop p).time = w.time := rfl
@[simp] theorem World.allStop_fresh (p : Params) (w : World) : (w.allStop p).fresh = w.fresh := rfl

@[simp] theorem World.afterNow_regs (w : World) : (w.afterNow).regs = w.regs := rfl
@[simp] theorem World.afterNow_log (w : World) : (w.afterNow).log = w.log := rfl
@[simp] theorem World.afterNow_answers (w : World) : (w.afterNow).answers = w.answers := rfl
@[simp] theorem World.afterNow_clock (w : World) : (w.afterNow).clock = w.nowValue := rfl
@[simp] theorem World.afterNow_freqHz (w : World) : (w.afterNow).freqHz = w.freqHz := rfl
@[simp] theorem World.afterNow_bus (w : World) : (w.afterNow).bus = w.bus := rfl
@[simp] theorem World.afterNow_lines (w : World) : (w.afterNow).lines = w.lines := rfl
@[simp] theorem World.afterNow_time (w : World) : (w.afterNow).time = w.time.rest := rfl
@[simp] theorem World.afterNow_fresh (w : World) : (w.afterNow).fresh = w.fresh := rfl

@[simp] theorem World.wake_regs (n : Nat) (w : World) : (w.wake n).regs = w.regs := rfl
@[simp] theorem World.wake_log (n : Nat) (w : World) : (w.wake n).log = w.log := rfl
@[simp] theorem World.wake_answers (n : Nat) (w : World) : (w.wake n).answers = w.answers := rfl
@[simp] theorem World.wake_clock (n : Nat) (w : World) : (w.wake n).clock = if w.clock.toNat ≤ n then BitVec.ofNat 64 n else w.clock := rfl
@[simp] theorem World.wake_freqHz (n : Nat) (w : World) : (w.wake n).freqHz = w.freqHz := rfl
@[simp] theorem World.wake_bus (n : Nat) (w : World) : (w.wake n).bus = w.bus := rfl
@[simp] theorem World.wake_lines (n : Nat) (w : World) : (w.wake n).lines = w.lines := rfl
@[simp] theorem World.wake_time (n : Nat) (w : World) : (w.wake n).time = w.time := rfl
@[simp] theorem World.wake_fresh (n : Nat) (w : World) : (w.wake n).fresh = w.fresh := rfl

@[simp] theorem World.afterLine_regs (w : World) : (w.afterLine).regs = w.regs := rfl
@[simp] theorem World.afterLine_log (w : World) : (w.afterLine).log = w.log := rfl
@[simp] theorem World.afterLine_answers (w : World) : (w.afterLine).answers = w.answers := rfl
@[simp] theorem World.afterLine_clock (w : World) : (w.afterLine).clock = w.clock := rfl
@[simp] theorem World.afterLine_freqHz (w : World) : (w.afterLine).freqHz = w.freqHz := rfl
@[simp] theorem World.afterLine_bus (w : World) : (w.afterLine).bus = w.bus := rfl
@[simp] theorem World.afterLine_lines (w : World) : (w.afterLine).lines = w.lines.rest := rfl
@[simp] theorem World.afterLine_time (w : World) : (w.afterLine).time = w.time := rfl
@[simp] theorem World.afterLine_fresh (w : World) : (w.afterLine).fresh = w.fresh := rfl

@[simp] theorem World.answer_regs (o : Option Target) (c : Ctl) (w : World) : (w.answer o c).regs = w.regs := rfl
@[simp] theorem World.answer_log (o : Option Target) (c : Ctl) (w : World) : (w.answer o c).log = w.log := rfl
@[simp] theorem World.answer_answers (o : Option Target) (c : Ctl) (w : World) : (w.answer o c).answers = w.answers ++ [⟨o, c.status, c.readResult⟩] := rfl
@[simp] theorem World.answer_clock (o : Option Target) (c : Ctl) (w : World) : (w.answer o c).clock = w.clock := rfl
@[simp] theorem World.answer_freqHz (o : Option Target) (c : Ctl) (w : World) : (w.answer o c).freqHz = w.freqHz := rfl
@[simp] theorem World.answer_bus (o : Option Target) (c : Ctl) (w : World) : (w.answer o c).bus = w.bus := rfl
@[simp] theorem World.answer_lines (o : Option Target) (c : Ctl) (w : World) : (w.answer o c).lines = w.lines := rfl
@[simp] theorem World.answer_time (o : Option Target) (c : Ctl) (w : World) : (w.answer o c).time = w.time := rfl
@[simp] theorem World.answer_fresh (o : Option Target) (c : Ctl) (w : World) : (w.answer o c).fresh = w.fresh := rfl

@[simp] theorem World.answerNobody_regs (w : World) : (w.answerNobody).regs = w.regs := rfl
@[simp] theorem World.answerNobody_log (w : World) : (w.answerNobody).log = w.log := rfl
@[simp] theorem World.answerNobody_answers (w : World) : (w.answerNobody).answers = w.answers ++ [⟨none, .illegalCommand, none⟩] := rfl
@[simp] theorem World.answerNobody_clock (w : World) : (w.answerNobody).clock = w.clock := rfl
@[simp] theorem World.answerNobody_freqHz (w : World) : (w.answerNobody).freqHz = w.freqHz := rfl
@[simp] theorem World.answerNobody_bus (w : World) : (w.answerNobody).bus = w.bus := rfl
@[simp] theorem World.answerNobody_lines (w : World) : (w.answerNobody).lines = w.lines := rfl
@[simp] theorem World.answerNobody_time (w : World) : (w.answerNobody).time = w.time := rfl
@[simp] theorem World.answerNobody_fresh (w : World) : (w.answerNobody).fresh = w.fresh := rfl

@[simp] theorem World.afterWidth_regs (p : Params) (v : Servo) (q : Rat) (w : World) : (w.afterWidth p v q).regs = w.regs := rfl
@[simp] theorem World.afterWidth_log (p : Params) (v : Servo) (q : Rat) (w : World) : (w.afterWidth p v q).log = w.log := rfl
@[simp] theorem World.afterWidth_answers (p : Params) (v : Servo) (q : Rat) (w : World) : (w.afterWidth p v q).answers = w.answers := rfl
@[simp] theorem World.afterWidth_clock (p : Params) (v : Servo) (q : Rat) (w : World) : (w.afterWidth p v q).clock = w.clock := rfl
@[simp] theorem World.afterWidth_freqHz (p : Params) (v : Servo) (q : Rat) (w : World) : (w.afterWidth p v q).freqHz = w.freqHz := rfl
@[simp] theorem World.afterWidth_bus (p : Params) (v : Servo) (q : Rat) (w : World) : (w.afterWidth p v q).bus = w.bus := rfl
@[simp] theorem World.afterWidth_lines (p : Params) (v : Servo) (q : Rat) (w : World) : (w.afterWidth p v q).lines = w.lines := rfl
@[simp] theorem World.afterWidth_time (p : Params) (v : Servo) (q : Rat) (w : World) : (w.afterWidth p v q).time = w.time := rfl

@[simp] theorem World.afterSample_regs (p : Params) (n : Int) (w : World) : (w.afterSample p n).regs = w.regs := rfl
@[simp] theorem World.afterSample_log (p : Params) (n : Int) (w : World) : (w.afterSample p n).log = w.log := rfl
@[simp] theorem World.afterSample_answers (p : Params) (n : Int) (w : World) : (w.afterSample p n).answers = w.answers := rfl
@[simp] theorem World.afterSample_clock (p : Params) (n : Int) (w : World) : (w.afterSample p n).clock = w.clock := rfl
@[simp] theorem World.afterSample_freqHz (p : Params) (n : Int) (w : World) : (w.afterSample p n).freqHz = w.freqHz := rfl
@[simp] theorem World.afterSample_bus (p : Params) (n : Int) (w : World) : (w.afterSample p n).bus = w.bus := rfl
@[simp] theorem World.afterSample_lines (p : Params) (n : Int) (w : World) : (w.afterSample p n).lines = w.lines := rfl
@[simp] theorem World.afterSample_time (p : Params) (n : Int) (w : World) : (w.afterSample p n).time = w.time := rfl

@[simp] theorem World.wrote_regs (p : Params) (ws : List RegW) (w : World) : (w.wrote p ws).regs = Memory.after ws w.regs := rfl
@[simp] theorem World.wrote_log (p : Params) (ws : List RegW) (w : World) : (w.wrote p ws).log = w.log ++ ws.map (accepted p) := rfl
@[simp] theorem World.wrote_answers (p : Params) (ws : List RegW) (w : World) : (w.wrote p ws).answers = w.answers := rfl
@[simp] theorem World.wrote_clock (p : Params) (ws : List RegW) (w : World) : (w.wrote p ws).clock = w.clock := rfl
@[simp] theorem World.wrote_freqHz (p : Params) (ws : List RegW) (w : World) : (w.wrote p ws).freqHz = w.freqHz := rfl
@[simp] theorem World.wrote_bus (p : Params) (ws : List RegW) (w : World) : (w.wrote p ws).bus = w.bus.skip ws.length := rfl
@[simp] theorem World.wrote_lines (p : Params) (ws : List RegW) (w : World) : (w.wrote p ws).lines = w.lines := rfl
@[simp] theorem World.wrote_time (p : Params) (ws : List RegW) (w : World) : (w.wrote p ws).time = w.time := rfl
@[simp] theorem World.wrote_fresh (p : Params) (ws : List RegW) (w : World) : (w.wrote p ws).fresh = w.fresh := rfl

@[simp] theorem Stepper.finish_mode (k : Nat) (st : Status) (r : Option Word64) (x : Stepper) (w : World) : (Stepper.finish k st r x w).1.mode = x.mode := rfl
@[simp] theorem Stepper.finish_step (k : Nat) (st : Status) (r : Option Word64) (x : Stepper) (w : World) : (Stepper.finish k st r x w).1.step = x.step := rfl
@[simp] theorem Stepper.finish_dir (k : Nat) (st : Status) (r : Option Word64) (x : Stepper) (w : World) : (Stepper.finish k st r x w).1.dir = x.dir := rfl
@[simp] theorem Stepper.finish_interval (k : Nat) (st : Status) (r : Option Word64) (x : Stepper) (w : World) : (Stepper.finish k st r x w).1.interval = x.interval := rfl
@[simp] theorem Stepper.finish_kill (k : Nat) (st : Status) (r : Option Word64) (x : Stepper) (w : World) : (Stepper.finish k st r x w).1.kill = x.kill := rfl
@[simp] theorem Stepper.finish_spr (k : Nat) (st : Status) (r : Option Word64) (x : Stepper) (w : World) : (Stepper.finish k st r x w).1.spr = x.spr := rfl
@[simp] theorem Stepper.finish_run (k : Nat) (st : Status) (r : Option Word64) (x : Stepper) (w : World) : (Stepper.finish k st r x w).1.run = x.run := rfl
@[simp] theorem Stepper.finish_coils (k : Nat) (st : Status) (r : Option Word64) (x : Stepper) (w : World) : (Stepper.finish k st r x w).1.coils = x.coils := rfl
@[simp] theorem Stepper.finish_ctl (k : Nat) (st : Status) (r : Option Word64) (x : Stepper) (w : World) : (Stepper.finish k st r x w).1.ctl = x.ctl.ended st r := rfl
@[simp] theorem Stepper.finish_flight (k : Nat) (st : Status) (r : Option Word64) (x : Stepper) (w : World) : (Stepper.finish k st r x w).1.flight = none := rfl
@[simp] theorem Stepper.finish_world (k : Nat) (st : Status) (r : Option Word64) (x : Stepper) (w : World) :
    (Stepper.finish k st r x w).2 = w.answer (some ⟨.stepper, k⟩) (x.ctl.ended st r) := rfl

@[simp] theorem Servo.finish_limits (k : Nat) (st : Status) (r : Option Word64) (x : Servo) (w : World) : (Servo.finish k st r x w).1.limits = x.limits := rfl
@[simp] theorem Servo.finish_minX (k : Nat) (st : Status) (r : Option Word64) (x : Servo) (w : World) : (Servo.finish k st r x w).1.minX = x.minX := rfl
@[simp] theorem Servo.finish_maxX (k : Nat) (st : Status) (r : Option Word64) (x : Servo) (w : World) : (Servo.finish k st r x w).1.maxX = x.maxX := rfl
@[simp] theorem Servo.finish_pos (k : Nat) (st : Status) (r : Option Word64) (x : Servo) (w : World) : (Servo.finish k st r x w).1.pos = x.pos := rfl
@[simp] theorem Servo.finish_ch (k : Nat) (st : Status) (r : Option Word64) (x : Servo) (w : World) : (Servo.finish k st r x w).1.ch = x.ch := rfl
@[simp] theorem Servo.finish_ctl (k : Nat) (st : Status) (r : Option Word64) (x : Servo) (w : World) : (Servo.finish k st r x w).1.ctl = x.ctl.ended st r := rfl
@[simp] theorem Servo.finish_flight (k : Nat) (st : Status) (r : Option Word64) (x : Servo) (w : World) : (Servo.finish k st r x w).1.flight = none := rfl
@[simp] theorem Servo.finish_world (k : Nat) (st : Status) (r : Option Word64) (x : Servo) (w : World) :
    (Servo.finish k st r x w).2 = w.answer (some ⟨.servo, k⟩) (x.ctl.ended st r) := rfl

@[simp] theorem Qdec.finish_gray (k : Nat) (st : Status) (r : Option Word64) (x : Qdec) (w : World) : (Qdec.finish k st r x w).1.gray = x.gray := rfl
@[simp] theorem Qdec.finish_pos (k : Nat) (st : Status) (r : Option Word64) (x : Qdec) (w : World) : (Qdec.finish k st r x w).1.pos = x.pos := rfl
@[simp] theorem Qdec.finish_lastT (k : Nat) (st : Status) (r : Option Word64) (x : Qdec) (w : World) : (Qdec.finish k st r x w).1.lastT = x.lastT := rfl
@[simp] theorem Qdec.finish_lastPos (k : Nat) (st : Status) (r : Option Word64) (x : Qdec) (w : World) : (Qdec.finish k st r x w).1.lastPos = x.lastPos := rfl
@[simp] theorem Qdec.finish_ring (k : Nat) (st : Status) (r : Option Word64) (x : Qdec) (w : World) : (Qdec.finish k st r x w).1.ring = x.ring := rfl
@[simp] theorem Qdec.finish_head (k : Nat) (st : Status) (r : Option Word64) (x : Qdec) (w : World) : (Qdec.finish k st r x w).1.head = x.head := rfl
@[simp] theorem Qdec.finish_count (k : Nat) (st : Status) (r : Option Word64) (x : Qdec) (w : World) : (Qdec.finish k st r x w).1.count = x.count := rfl
@[simp] theorem Qdec.finish_offset (k : Nat) (st : Status) (r : Option Word64) (x : Qdec) (w : World) : (Qdec.finish k st r x w).1.offset = x.offset := rfl
@[simp] theorem Qdec.finish_pinA (k : Nat) (st : Status) (r : Option Word64) (x : Qdec) (w : World) : (Qdec.finish k st r x w).1.pinA = x.pinA := rfl
@[simp] theorem Qdec.finish_pinB (k : Nat) (st : Status) (r : Option Word64) (x : Qdec) (w : World) : (Qdec.finish k st r x w).1.pinB = x.pinB := rfl
@[simp] theorem Qdec.finish_ctl (k : Nat) (st : Status) (r : Option Word64) (x : Qdec) (w : World) : (Qdec.finish k st r x w).1.ctl = x.ctl.ended st r := rfl
@[simp] theorem Qdec.finish_world (k : Nat) (st : Status) (r : Option Word64) (x : Qdec) (w : World) :
    (Qdec.finish k st r x w).2 = w.answer (some ⟨.qdec, k⟩) (x.ctl.ended st r) := rfl

@[simp] theorem Stepper.advance_mode (x : Stepper) : x.advance.mode = x.mode := rfl
@[simp] theorem Stepper.advance_dir (x : Stepper) : x.advance.dir = x.dir := rfl
@[simp] theorem Stepper.advance_interval (x : Stepper) : x.advance.interval = x.interval := rfl
@[simp] theorem Stepper.advance_kill (x : Stepper) : x.advance.kill = x.kill := rfl
@[simp] theorem Stepper.advance_spr (x : Stepper) : x.advance.spr = x.spr := rfl
@[simp] theorem Stepper.advance_run (x : Stepper) : x.advance.run = x.run := rfl
@[simp] theorem Stepper.advance_coils (x : Stepper) : x.advance.coils = x.coils := rfl
@[simp] theorem Stepper.advance_ctl (x : Stepper) : x.advance.ctl = x.ctl := rfl
@[simp] theorem Stepper.advance_flight (x : Stepper) : x.advance.flight = x.flight := rfl
@[simp] theorem Stepper.advance_step (x : Stepper) : x.advance.step = x.step + stepDelta x.dir := rfl

@[simp] theorem Stepper.stepDone_mode (x : Stepper) : x.stepDone.mode = x.mode := rfl
@[simp] theorem Stepper.stepDone_step (x : Stepper) : x.stepDone.step = x.step := rfl
@[simp] theorem Stepper.stepDone_dir (x : Stepper) : x.stepDone.dir = x.dir := rfl
@[simp] theorem Stepper.stepDone_interval (x : Stepper) : x.stepDone.interval = x.interval := rfl
@[simp] theorem Stepper.stepDone_kill (x : Stepper) : x.stepDone.kill = x.kill := rfl
@[simp] theorem Stepper.stepDone_spr (x : Stepper) : x.stepDone.spr = x.spr := rfl
@[simp] theorem Stepper.stepDone_coils (x : Stepper) : x.stepDone.coils = x.coils := rfl
@[simp] theorem Stepper.stepDone_ctl (x : Stepper) : x.stepDone.ctl = x.ctl := rfl
@[simp] theorem Stepper.stepDone_flight (x : Stepper) : x.stepDone.flight = some .stepping := rfl
@[simp] theorem Stepper.stepDone_remaining (x : Stepper) : x.stepDone.remaining = x.remaining - 1 := rfl

@[simp] theorem Ctl.ended_status (c : Ctl) (st : Status) (r : Option Word64) : (c.ended st r).status = st := rfl
@[simp] theorem Ctl.ended_result (c : Ctl) (st : Status) (r : Option Word64) : (c.ended st r).result = r.getD c.result := rfl
@[simp] theorem Ctl.ended_resultWritten (c : Ctl) (st : Status) (r : Option Word64) : (c.ended st r).resultWritten = (r.isSome || c.resultWritten) := rfl
@[simp] theorem Ctl.ended_waiting (c : Ctl) (st : Status) (r : Option Word64) : (c.ended st r).waiting = c.waiting := rfl

@[simp] theorem Ctl.enqueue_status (c : Ctl) (j : Job) : (c.enqueue j).status = c.status := rfl
@[simp] theorem Ctl.enqueue_result (c : Ctl) (j : Job) : (c.enqueue j).result = c.result := rfl
@[simp] theorem Ctl.enqueue_resultWritten (c : Ctl) (j : Job) : (c.enqueue j).resultWritten = c.resultWritten := rfl
@[simp] theorem Ctl.enqueue_waiting (c : Ctl) (j : Job) : (c.enqueue j).waiting = c.waiting ++ [j] := rfl

@[simp] theorem State.putStepper_params (s : State) (k : Nat) (r : Stepper × World) : (s.putStepper k r).params = s.params := rfl
@[simp] theorem State.putStepper_st (s : State) (k : Nat) (r : Stepper × World) : (s.putStepper k r).st = s.st.set k (some r.1) := rfl
@[simp] theorem State.putStepper_sv (s : State) (k : Nat) (r : Stepper × World) : (s.putStepper k r).sv = s.sv := rfl
@[simp] theorem State.putStepper_qd (s : State) (k : Nat) (r : Stepper × World) : (s.putStepper k r).qd = s.qd := rfl
@[simp] theorem State.putStepper_world (s : State) (k : Nat) (r : Stepper × World) : (s.putStepper k r).world = r.2 := rfl
@[simp] theorem State.putStepper_events (s : State) (k : Nat) (r : Stepper × World) : (s.putStepper k r).events = s.events := rfl
@[simp] theorem State.putStepper_halted (s : State) (k : Nat) (r : Stepper × World) : (s.putStepper k r).halted = s.halted := rfl

@[simp] theorem State.putServo_params (s : State) (k : Nat) (r : Servo × World) : (s.putServo k r).params = s.params := rfl
@[simp] theorem State.putServo_st (s : State) (k : Nat) (r : Servo × World) : (s.putServo k r).st = s.st := rfl
@[simp] theorem State.putServo_sv (s : State) (k : Nat) (r : Servo × World) : (s.putServo k r).sv = s.sv.set k (some r.1) := rfl
@[simp] theorem State.putServo_qd (s : State) (k : Nat) (r : Servo × World) : (s.putServo k r).qd = s.qd := rfl
@[simp] theorem State.putServo_world (s : State) (k : Nat) (r : Servo × World) : (s.putServo k r).world = r.2 := rfl
@[simp] theorem State.putServo_events (s : State) (k : Nat) (r : Servo × World) : (s.putServo k r).events = s.events := rfl
@[simp] theorem State.putServo_halted (s : State) (k : Nat) (r : Servo × World) : (s.putServo k r).halted = s.halted := rfl

@[simp] theorem State.putQdec_params (s : State) (k : Nat) (r : Qdec × World) : (s.putQdec k r).params = s.params := rfl
@[simp] theorem State.putQdec_st (s : State) (k : Nat) (r : Qdec × World) : (s.putQdec k r).st = s.st := rfl
@[simp] theorem State.putQdec_sv (s : State) (k : Nat) (r : Qdec × World) : (s.putQdec k r).sv = s.sv := rfl
@[simp] theorem State.putQdec_qd (s : State) (k : Nat) (r : Qdec × World) : (s.putQdec k r).qd = s.qd.set k r.1 := rfl
@[simp] theorem State.putQdec_world (s : State) (k : Nat) (r : Qdec × World) : (s.putQdec k r).world = r.2 := rfl
@[simp] theorem State.putQdec_events (s : State) (k : Nat) (r : Qdec × World) : (s.putQdec k r).events = s.events := rfl
@[simp] theorem State.putQdec_halted (s : State) (k : Nat) (r : Qdec × World) : (s.putQdec k r).halted = s.halted := rfl

@[simp] theorem State.noInstance_params (s : State) : s.noInstance.params = s.params := rfl
@[simp] theorem State.noInstance_st (s : State) : s.noInstance.st = s.st := rfl
@[simp] theorem State.noInstance_sv (s : State) : s.noInstance.sv = s.sv := rfl
@[simp] theorem State.noInstance_qd (s : State) : s.noInstance.qd = s.qd := rfl
@[simp] theorem State.noInstance_events (s : State) : s.noInstance.events = s.events := rfl
@[simp] theorem State.noInstance_halted (s : State) : s.noInstance.halted = s.halted := rfl
@[simp] theorem State.noInstance_world (s : State) : s.noInstance.world = s.world.answerNobody := rfl
@[simp] theorem State.afterEvent_params (s : State) : s.afterEvent.params = s.params := rfl
@[simp] theorem State.afterEvent_st (s : State) : s.afterEvent.st = s.st := rfl
@[simp] theorem State.afterEvent_sv (s : State) : s.afterEvent.sv = s.sv := rfl
@[simp] theorem State.afterEvent_qd (s : State) : s.afterEvent.qd = s.qd := rfl
@[simp] theorem State.afterEvent_world (s : State) : s.afterEvent.world = s.world := rfl
@[simp] theorem State.afterEvent_halted (s : State) : s.afterEvent.halted = s.halted := rfl

/-! Looking an instance up after another was put back. -/

theorem State.stepper_lt {s : State} {k : Nat} {x : Stepper} (h : s.stepper k = some x) : k < s.st.length := by
  by_contra hk
  simp [State.stepper, List.getElem?_eq_none (not_lt.mp hk)] at h

theorem State.servo_lt {s : State} {j : Nat} {x : Servo} (h : s.servo j = some x) : j < s.sv.length := by
  by_contra hj
  simp [State.servo, List.getElem?_eq_none (not_lt.mp hj)] at h

theorem State.qdec_lt {s : State} {d : Nat} {x : Qdec} (h : s.qdec d = some x) : d < s.qd.length := by
  by_contra hd
  simp [State.qdec, List.getElem?_eq_none (not_lt.mp hd)] at h

theorem State.putStepper_same {s : State} {k : Nat} {x : Stepper} (h : s.stepper k = some x) (r : Stepper × World) :
    (s.putStepper k r).stepper k = some r.1 := by
  simp [State.stepper, State.stepper_lt h]

theorem State.putStepper_other (s : State) {k k' : Nat} (hk : k ≠ k') (r : Stepper × World) :
    (s.putStepper k r).stepper k' = s.stepper k' := by
  simp [State.stepper, hk]

theorem State.putServo_same {s : State} {j : Nat} {x : Servo} (h : s.servo j = some x) (r : Servo × World) :
    (s.putServo j r).servo j = some r.1 := by
  simp [State.servo, State.servo_lt h]

theorem State.putServo_other (s : State) {j j' : Nat} (hj : j ≠ j') (r : Servo × World) :
    (s.putServo j r).servo j' = s.servo j' := by
  simp [State.servo, hj]

theorem State.putQdec_same {s : State} {d : Nat} {x : Qdec} (h : s.qdec d = some x) (r : Qdec × World) :
    (s.putQdec d r).qdec d = some r.1 := by
  simp [State.qdec, State.qdec_lt h]

theorem State.putQdec_other (s : State) {d d' : Nat} (hd : d ≠ d') (r : Qdec × World) :
    (s.putQdec d r).qdec d' = s.qdec d' := by
  simp [State.qdec, hd]

@[simp] theorem State.putStepper_servo (s : State) (k n : Nat) (r : Stepper × World) : (s.putStepper k r).servo n = s.servo n := rfl
@[simp] theorem State.putStepper_qdec (s : State) (k n : Nat) (r : Stepper × World) : (s.putStepper k r).qdec n = s.qdec n := rfl
@[simp] theorem State.putServo_stepper (s : State) (k n : Nat) (r : Servo × World) : (s.putServo k r).stepper n = s.stepper n := rfl
@[simp] theorem State.putServo_qdec (s : State) (k n : Nat) (r : Servo × World) : (s.putServo k r).qdec n = s.qdec n := rfl
@[simp] theorem State.putQdec_stepper (s : State) (k n : Nat) (r : Qdec × World) : (s.putQdec k r).stepper n = s.stepper n := rfl
@[simp] theorem State.putQdec_servo (s : State) (k n : Nat) (r : Qdec × World) : (s.putQdec k r).servo n = s.servo n := rfl

/-- Putting one instance back changes no other one. -/
theorem State.putStepper_sameBut (s : State) (k : Nat) (r : Stepper × World) :
    SameBut ⟨.stepper, k⟩ s (s.putStepper k r) :=
  ⟨rfl, rfl, rfl, fun _ h => State.putStepper_other s (fun e => h (by rw [e])) r, fun _ _ => rfl, fun _ _ => rfl⟩

theorem State.putServo_sameBut (s : State) (j : Nat) (r : Servo × World) : SameBut ⟨.servo, j⟩ s (s.putServo j r) :=
  ⟨rfl, rfl, rfl, fun _ _ => rfl, fun _ h => State.putServo_other s (fun e => h (by rw [e])) r, fun _ _ => rfl⟩

theorem State.putQdec_sameBut (s : State) (d : Nat) (r : Qdec × World) : SameBut ⟨.qdec, d⟩ s (s.putQdec d r) :=
  ⟨rfl, rfl, rfl, fun _ _ => rfl, fun _ _ => rfl, fun _ h => State.putQdec_other s (fun e => h (by rw [e])) r⟩

end Sys2Proof.Machine
end

