-- ==== Sys2Proof/Laws/Memory.lean ====
section
/-! SUPPORT. The register file: a read after a write, what a write leaves alone, and that every operation keeps the canonical
form. -/

namespace Sys2Proof.Machine

theorem Memory.read_write_same (m : Memory) (a : Nat) (b : Byte) : (Memory.write m a b).read a = some b := by
  induction m with
  | nil => simp [Memory.write, Memory.read]
  | cons c m ih =>
    unfold Memory.write
    split
    · simp [Memory.read]
    · split
      · simp [Memory.read]
      · rename_i h; simpa [Memory.read, h] using ih

theorem Memory.read_write_other (m : Memory) {a a' : Nat} (h : a ≠ a') (b : Byte) :
    (Memory.write m a b).read a' = Memory.read m a' := by
  induction m with
  | nil => simp [Memory.write, Memory.read, h]
  | cons c m ih =>
    unfold Memory.write
    split
    · simp [Memory.read, h]
    · split
      · rename_i hc; simp [Memory.read, h, hc]
      · simp only [Memory.read, ih]

/-- A write to a listed register changes no address of a rising list. -/
theorem Memory.write_addresses {m : Memory} {a : Nat} (b : Byte) (ha : a ∈ m.map Prod.fst)
    (hs : (m.map Prod.fst).Pairwise (· < ·)) : (Memory.write m a b).map Prod.fst = m.map Prod.fst := by
  induction m with
  | nil => cases ha
  | cons c m ih =>
    rw [List.map_cons, List.pairwise_cons] at hs
    rw [List.map_cons, List.mem_cons] at ha
    unfold Memory.write
    split
    · rename_i hlt
      obtain rfl | hm := ha
      · omega
      · have := hs.1 a hm
        omega
    · split
      · rename_i hca
        simp [hca]
      · rename_i hne
        rw [List.map_cons, List.map_cons, ih (ha.resolve_left (Ne.symm hne)) hs.2]

theorem Memory.wf_iff {m : Memory} : Memory.wf m = true ↔ m.map Prod.fst = List.range 256 := by simp [Memory.wf]

theorem Memory.initial_wf : Memory.wf Memory.initial = true :=
  Memory.wf_iff.mpr (by simp [Memory.initial, Function.comp_def])

/-- What a register holds at launch is one free byte. -/
theorem Memory.read_initial (a : RegAddr) : Memory.read Memory.initial a.toNat = some (Config.resetByte a.toNat) := by
  have h : ∀ (l : List Nat) (n : Nat), n ∈ l →
      Memory.read (l.map fun a => (a, Config.resetByte a)) n = some (Config.resetByte n) := by
    intro l n hn
    induction l with
    | nil => cases hn
    | cons m l ih =>
      rw [List.map_cons, Memory.read]
      split
      · rename_i hm
        subst hm
        rfl
      · rename_i hm
        exact ih ((List.mem_cons.mp hn).resolve_left (Ne.symm hm))
  rw [Memory.initial]
  exact h _ _ (List.mem_range.mpr a.isLt)

/-- A write of any register keeps the canonical form. -/
theorem Memory.write_wf {m : Memory} (a : RegAddr) (b : Byte) (h : Memory.wf m = true) :
    Memory.wf (Memory.write m a.toNat b) = true := by
  rw [Memory.wf_iff] at h ⊢
  rw [Memory.write_addresses b (h ▸ List.mem_range.mpr a.isLt) (h ▸ List.pairwise_lt_range), h]

theorem Memory.read_of_mem {m : Memory} {a : Nat} (h : a ∈ m.map Prod.fst) : ∃ b, Memory.read m a = some b := by
  induction m with
  | nil => cases h
  | cons c m ih =>
    unfold Memory.read
    split
    · exact ⟨_, rfl⟩
    · rename_i hne
      exact ih ((List.mem_cons.mp h).resolve_left (Ne.symm hne))

/-- Every register holds a byte. -/
theorem Memory.read_register {m : Memory} (h : Memory.wf m = true) (a : RegAddr) : ∃ b, Memory.read m a.toNat = some b :=
  Memory.read_of_mem (Memory.wf_iff.mp h ▸ List.mem_range.mpr a.isLt)

theorem Memory.writeAll_cons (a : RegAddr) (as : List RegAddr) (b : Byte) (m : Memory) :
    Memory.writeAll (a :: as) b m = Memory.writeAll as b (Memory.write m a.toNat b) := by
  simp [Memory.writeAll]

theorem Memory.writeAll_nil (b : Byte) (m : Memory) : Memory.writeAll [] b m = m := by simp [Memory.writeAll]

theorem Memory.writeAll_wf {m : Memory} (as : List RegAddr) (b : Byte) (h : Memory.wf m = true) :
    Memory.wf (Memory.writeAll as b m) = true := by
  induction as generalizing m with
  | nil => simpa [Memory.writeAll_nil] using h
  | cons a as ih => rw [Memory.writeAll_cons]; exact ih (Memory.write_wf a b h)

theorem Memory.read_writeAll_other (as : List RegAddr) (b : Byte) (m : Memory) {a : Nat}
    (h : ∀ r ∈ as, r.toNat ≠ a) : (Memory.writeAll as b m).read a = Memory.read m a := by
  induction as generalizing m with
  | nil => rw [Memory.writeAll_nil]
  | cons r as ih =>
    rw [Memory.writeAll_cons, ih _ fun q hq => h q (List.mem_cons_of_mem _ hq)]
    exact Memory.read_write_other m (h r (List.mem_cons_self ..)) b

theorem Memory.read_writeAll_mem (as : List RegAddr) (b : Byte) (m : Memory) {a : RegAddr} (h : a ∈ as) :
    (Memory.writeAll as b m).read a.toNat = some b := by
  induction as generalizing m with
  | nil => cases h
  | cons r as ih =>
    rw [Memory.writeAll_cons]
    by_cases ha : a ∈ as
    · exact ih _ ha
    · have hr : a = r := by simpa [ha] using h
      rw [Memory.read_writeAll_other, hr, Memory.read_write_same]
      intro q hq hne
      exact ha (BitVec.eq_of_toNat_eq hne ▸ hq)

@[simp] theorem Memory.after_nil (m : Memory) : Memory.after [] m = m := rfl

@[simp] theorem Memory.after_cons (r : RegW) (ws : List RegW) (m : Memory) :
    Memory.after (r :: ws) m = Memory.after ws (Memory.write m r.1.toNat r.2) := rfl

theorem Memory.after_append (ws vs : List RegW) (m : Memory) :
    Memory.after (ws ++ vs) m = Memory.after vs (Memory.after ws m) := by
  simp [Memory.after, List.foldl_append]

theorem Memory.after_wf {m : Memory} (ws : List RegW) (h : Memory.wf m = true) : Memory.wf (Memory.after ws m) = true := by
  induction ws generalizing m with
  | nil => exact h
  | cons r ws ih => exact ih (Memory.write_wf r.1 r.2 h)

theorem Memory.read_after_other (ws : List RegW) (m : Memory) {a : Nat} (h : ∀ r ∈ ws, r.1.toNat ≠ a) :
    (Memory.after ws m).read a = Memory.read m a := by
  induction ws generalizing m with
  | nil => rfl
  | cons r ws ih =>
    rw [Memory.after_cons, ih _ fun q hq => h q (List.mem_cons_of_mem _ hq)]
    exact Memory.read_write_other m (h r (List.mem_cons_self ..)) r.2

end Sys2Proof.Machine
end

