-- ==== Sys2Proof/Laws/Ops.lean ====
section
/-! SUPPORT. What each shared operation can do: tapes, the register write port, time, the end of a command. -/

namespace Sys2Proof.Machine

/-! Tapes. -/

theorem Tape.next_eq_peek {α : Type} (free : Nat → α) (t : Tape α) : t.next free = t.peek free 0 := by
  rcases t with ⟨_ | _, _⟩ <;> rfl

theorem Tape.rest_eq_skip {α : Type} (t : Tape α) : t.rest = t.skip 1 := by
  rcases t with ⟨_ | _, _⟩ <;> rfl

@[simp] theorem Tape.skip_zero {α : Type} (t : Tape α) : t.skip 0 = t := rfl

theorem Tape.skip_skip {α : Type} (t : Tape α) (m n : Nat) : (t.skip m).skip n = t.skip (m + n) := by
  simp [Tape.skip, Nat.add_assoc]

theorem Tape.peek_skip {α : Type} (free : Nat → α) (t : Tape α) (m n : Nat) :
    (t.skip m).peek free n = t.peek free (m + n) := by
  simp [Tape.skip, Tape.peek, Nat.add_assoc]

/-! Register writes. -/

theorem World.busNext_eq (w : World) : w.busNext = w.busAt 0 := Tape.next_eq_peek _ _

theorem World.busAt_wrote (p : Params) (ws : List RegW) (w : World) (n : Nat) :
    (w.wrote p ws).busAt n = w.busAt (ws.length + n) := Tape.peek_skip _ _ _ _

@[simp] theorem World.wrote_nil (p : Params) (w : World) : w.wrote p [] = w := by
  simp [World.wrote]

/-- An accepted register write. -/
theorem World.regWrite_ok {p : Params} {r : RegW} {w : World} (h : w.busAt 0 = .ok) : w.regWrite p r = w.wrote p [r] := by
  rw [← World.busNext_eq] at h
  simp [World.regWrite, World.wrote, h, landed, Tape.rest_eq_skip, accepted]

theorem World.wrote_append (p : Params) (ws vs : List RegW) (w : World) :
    (w.wrote p ws).wrote p vs = w.wrote p (ws ++ vs) := by
  simp [World.wrote, Memory.after_append, Tape.skip_skip]

/-- Everything `issueWrites` can do: all the writes are accepted, or the first that fails ends them. -/
theorem issueWrites_spec (p : Params) (ws : List RegW) (w : World) :
    (issueWrites p ws w = (true, w.wrote p ws) ∧ w.busOk ws.length) ∨
      ∃ j, ∃ h : j < ws.length, w.busOk j ∧ w.busAt j ≠ .ok ∧
        issueWrites p ws w = (false, (w.wrote p (ws.take j)).regWrite p ws[j]) := by
  induction ws generalizing w with
  | nil => exact .inl ⟨by simp [issueWrites], fun i hi => absurd hi (Nat.not_lt_zero i)⟩
  | cons r ws ih =>
    by_cases h0 : w.busAt 0 = .ok
    · have hw : issueWrites p (r :: ws) w = issueWrites p ws (w.wrote p [r]) := by
        rw [issueWrites, if_pos (w.busNext_eq ▸ h0), World.regWrite_ok h0]
      have hat : ∀ i, (w.wrote p [r]).busAt i = w.busAt (i + 1) := fun i => by
        rw [World.busAt_wrote, List.length_singleton, Nat.add_comm]
      have hok : ∀ n, (w.wrote p [r]).busOk n → w.busOk (n + 1) := fun n hn i hi => by
        cases i with
        | zero => exact h0
        | succ i => rw [← hat]; exact hn i (by omega)
      rcases ih (w.wrote p [r]) with ⟨he, hb⟩ | ⟨j, hj, hb, hf, he⟩
      · left
        refine ⟨?_, hok _ hb⟩
        rw [hw, he, World.wrote_append, List.singleton_append]
      · right
        refine ⟨j + 1, by simpa using hj, hok _ hb, by rw [← hat]; exact hf, ?_⟩
        rw [hw, he, World.wrote_append]
        simp
    · right
      refine ⟨0, by simp, fun i hi => absurd hi (Nat.not_lt_zero i), h0, ?_⟩
      rw [issueWrites, if_neg (w.busNext_eq ▸ h0)]
      simp

/-- Writes that will all be accepted are. -/
theorem issueWrites_ok {p : Params} {ws : List RegW} {w : World} (h : w.busOk ws.length) :
    issueWrites p ws w = (true, w.wrote p ws) := by
  rcases issueWrites_spec p ws w with ⟨he, -⟩ | ⟨j, hj, -, hf, -⟩
  · exact he
  · exact absurd (h j hj) hf

/-- The first write that will fail ends them. -/
theorem issueWrites_fails {p : Params} {ws : List RegW} {w : World} {j : Nat} (hj : j < ws.length) (hb : w.busOk j)
    (hf : w.busAt j ≠ .ok) : issueWrites p ws w = (false, (w.wrote p (ws.take j)).regWrite p ws[j]) := by
  rcases issueWrites_spec p ws w with ⟨-, hok⟩ | ⟨i, hi, hb', hf', he⟩
  · exact absurd (hok j hj) hf
  · rcases Nat.lt_trichotomy i j with h | h | h
    · exact absurd (hb i h) hf'
    · subst h; exact he
    · exact absurd (hb' j h) hf

/-- The record of a command whose write `j` was the first to fail, once the all-stop is sent. -/
theorem World.failed_log {p : Params} {ws : List RegW} {w : World} {j : Nat} (hj : j < ws.length) :
    (((w.wrote p (ws.take j)).regWrite p ws[j]).allStop p).log = w.log ++ failedLog p ws j (w.busAt j) := by
  have hb : (w.wrote p (ws.take j)).busNext = w.busAt j := by
    rw [World.busNext_eq, World.busAt_wrote, List.length_take, Nat.min_eq_left (Nat.le_of_lt hj), Nat.add_zero]
  have hl : ∀ (v : World) (r : RegW), ((v.regWrite p r).allStop p).log =
      v.log ++ [⟨p.devAddr, r.1, r.2, v.busNext⟩] ++ (allStopAddrs p).map fun a => accepted p (a, 0) := fun _ _ => rfl
  rw [hl, hb, World.wrote_log, failedLog, List.getElem?_eq_getElem hj]
  simp

/-- Register writes touch the registers, the record and the outcomes to come, nothing else. -/
theorem issueWrites_frame (p : Params) (ws : List RegW) (w : World) :
    (issueWrites p ws w).2.answers = w.answers ∧ (issueWrites p ws w).2.clock = w.clock ∧
      (issueWrites p ws w).2.freqHz = w.freqHz ∧ (issueWrites p ws w).2.lines = w.lines ∧
      (issueWrites p ws w).2.time = w.time ∧ (issueWrites p ws w).2.fresh = w.fresh := by
  rcases issueWrites_spec p ws w with ⟨he, -⟩ | ⟨j, hj, -, -, he⟩ <;> simp [he]

theorem World.regWrite_wf (p : Params) (r : RegW) {w : World} (h : Memory.wf w.regs = true) :
    Memory.wf (w.regWrite p r).regs = true := by
  rw [World.regWrite_regs]
  split
  · exact Memory.write_wf _ _ h
  · exact h

theorem issueWrites_wf (p : Params) (ws : List RegW) {w : World} (h : Memory.wf w.regs = true) :
    Memory.wf (issueWrites p ws w).2.regs = true := by
  rcases issueWrites_spec p ws w with ⟨he, -⟩ | ⟨j, hj, -, -, he⟩ <;> rw [he]
  · exact Memory.after_wf ws h
  · exact World.regWrite_wf p _ (Memory.after_wf _ h)

theorem World.allStop_wf (p : Params) {w : World} (h : Memory.wf w.regs = true) : Memory.wf (w.allStop p).regs = true :=
  Memory.writeAll_wf _ _ h

/-! Time: nothing turns the time source back (60_exceptions.md R290). -/

theorem World.nowValue_ge (w : World) : w.clock.toNat ≤ w.nowValue.toNat := by
  unfold World.nowValue
  dsimp only
  split
  · rename_i h; exact h
  · exact le_refl _

theorem World.wake_ge (n : Nat) (w : World) (h : canWake n = true) : w.clock.toNat ≤ (w.wake n).clock.toNat := by
  have hn : n < 2 ^ 64 := by simpa [canWake] using h
  rw [World.wake_clock]
  split
  · rw [BitVec.toNat_ofNat, Nat.mod_eq_of_lt hn]; assumption
  · exact le_refl _

theorem World.wake_reaches (n : Nat) (w : World) (h : canWake n = true) : n ≤ (w.wake n).clock.toNat := by
  have hn : n < 2 ^ 64 := by simpa [canWake] using h
  rw [World.wake_clock]
  split
  · rw [BitVec.toNat_ofNat, Nat.mod_eq_of_lt hn]
  · omega

end Sys2Proof.Machine
end

