-- ==== Sys2Proof/Laws/Numeric.lean ====
section
/-! SUPPORT. The formulas under `NUMERIC = EXACT`, where every operation on rationals is exact (00_scope.md R10). -/

namespace Sys2Proof.Machine

@[simp] theorem Num.settle_exact (a : Num) : Num.settle .exact a = a := by cases a <;> rfl

@[simp] theorem Num.add_exact (a b : Rat) : Num.add .exact (.fin a) (.fin b) = .fin (a + b) := rfl

@[simp] theorem Num.sub_exact (a b : Rat) : Num.sub .exact (.fin a) (.fin b) = .fin (a - b) := by
  simp [Num.sub, Num.neg, Num.addExact, sub_eq_add_neg]

@[simp] theorem Num.mul_exact (a b : Rat) : Num.mul .exact (.fin a) (.fin b) = .fin (a * b) := rfl

theorem Num.div_exact (a : Rat) {b : Rat} (h : b ≠ 0) : Num.div .exact (.fin a) (.fin b) = .fin (a / b) := by
  simp [Num.div, Num.divExact, h]

@[simp] theorem Num.lt_fin (a b : Rat) : Num.lt (.fin a) (.fin b) = decide (a < b) := rfl

theorem freqLegal_pos {hz : Rat} (h : freqLegal hz = true) : 0 < hz := by
  simp [freqLegal] at h
  linarith [h.1]

theorem paceTime_exact {p : Params} (hp : p.numeric = .exact) (interval : Rat) :
    paceTime p interval = .fin (interval * 10 ^ 6) := by
  simp [paceTime, hp]

theorem sleepNs_exact {p : Params} (hp : p.numeric = .exact) (interval : Rat) (el : Int) :
    sleepNs p interval el = (interval * 10 ^ 6 - el).ceil.toNat := by
  simp [sleepNs, paceTime, hp]

theorem rotateCount_exact {p : Params} (hp : p.numeric = .exact) (spr : BitVec 32) (revs : Rat) :
    rotateCount p spr revs = some (roundHalfUp (revs * spr.toNat)) := by
  simp [rotateCount, hp]

theorem servoPeriod_exact {p : Params} (hp : p.numeric = .exact) {hz : Rat} (h : freqLegal hz = true) :
    servoPeriod p hz = .fin (1000 / hz) := by
  rw [servoPeriod, hp, Num.div_exact _ (freqLegal_pos h).ne']

theorem servoDuty_exact {p : Params} (hp : p.numeric = .exact) {hz : Rat} (h : freqLegal hz = true) (ms : Rat) :
    servoDuty p hz ms = BitVec.ofInt 13 (max 0 (roundHalfUp (ms / (1000 / hz) * 4095))) := by
  have h1 : (1000 : Rat) / hz ≠ 0 := div_ne_zero (by norm_num) (freqLegal_pos h).ne'
  rw [servoDuty, servoPeriod_exact hp h, hp, Num.div_exact _ h1, Num.mul_exact]

theorem servoLine_exact {p : Params} (hp : p.numeric = .exact) {v : Servo} (h : v.minX < v.maxX) (x : Rat) :
    servoLine p v x =
      .fin (v.limits.max + (x - v.minX) * (v.limits.min - v.limits.max) / (v.maxX - v.minX)) := by
  have h1 : v.maxX - v.minX ≠ 0 := (sub_pos.mpr h).ne'
  simp [servoLine, hp, Num.div_exact _ h1]

theorem sampleNum_exact {p : Params} (hp : p.numeric = .exact) (hc : 0 < p.countsPerUnit) (pos : Int) :
    sampleNum p pos = .fin (pos / p.countsPerUnit) := by
  rw [sampleNum, hp, Num.div_exact _ hc.ne']

theorem sampleValue_exact {p : Params} (hp : p.numeric = .exact) (hc : 0 < p.countsPerUnit) (pos : Int) (w : World) :
    sampleValue p pos w = pos / p.countsPerUnit := by
  rw [sampleValue, sampleNum_exact hp hc, Num.ratOr]

theorem derivThreshold_exact {p : Params} (hp : p.numeric = .exact) (now : Word64) (window : Rat) :
    derivThreshold p now window = .fin (now.toNat - window * 10 ^ 9) := by
  simp [derivThreshold, hp]

theorem derivative_exact {p : Params} (hp : p.numeric = .exact) (a b : Rat) {dt : Int} (h : 0 < dt) :
    derivative p a b dt = .fin ((a - b) * 10 ^ 9 / dt) := by
  have h1 : (dt : Rat) ≠ 0 := by exact_mod_cast h.ne'
  simp [derivative, hp, Num.div_exact _ h1]

end Sys2Proof.Machine
end

