-- ==== Sys2Proof/Laws/PerInstr.lean ====
section
/-! SUPPORT. One law per command: a frame is as long as its row says, and the row's length follows from UNIT and OP alone
(30_encoding.md R95, R96). -/

namespace Sys2Proof

theorem leBytes_length (n v : Nat) : (leBytes n v).length = n := by
  induction n generalizing v with
  | zero => rfl
  | succ n ih => simp [leBytes, ih]

/-- A field read back is the value written, in the width of the field. -/
theorem leNat_leBytes (n v : Nat) : leNat (leBytes n v) = v % 256 ^ n := by
  induction n generalizing v with
  | zero => simp [leBytes, leNat, Nat.mod_one]
  | succ n ih =>
    simp only [leBytes, leNat, ih, BitVec.toNat_ofNat]
    rw [show 256 ^ (n + 1) = 256 * 256 ^ n from by rw [Nat.pow_succ, Nat.mul_comm], Nat.mod_mul]

end Sys2Proof

namespace Sys2Proof.Laws.FrameLength

/-- The frame of `i` is two header bytes and the payload bytes of `i`'s row. -/
def Statement (i : Instr) : Prop :=
  ∃ n, payloadBytes i.target.kind.code i.op = .ok n ∧ (encode i).length = 2 + n

theorem stSetmode (k : Nat) (m : Mode) : Statement (.stSetmode k m) :=
  ⟨1, rfl, by simp [encode, Instr.payload, leBytes_length]⟩

theorem stSetspr (k : Nat) (v : BitVec 32) : Statement (.stSetspr k v) :=
  ⟨4, rfl, by simp [encode, Instr.payload, leBytes_length]⟩

theorem stSetinterval (k : Nat) (ms : Word64) (kill : Bool) : Statement (.stSetinterval k ms kill) :=
  ⟨9, rfl, by simp [encode, Instr.payload, leBytes_length]⟩

theorem stOnestep (k : Nat) : Statement (.stOnestep k) :=
  ⟨0, rfl, by simp [encode, Instr.payload, leBytes_length]⟩

theorem stOnestepdir (k : Nat) (d : Dir) : Statement (.stOnestepdir k d) :=
  ⟨1, rfl, by simp [encode, Instr.payload, leBytes_length]⟩

theorem stStep (k : Nat) (n : Word64) : Statement (.stStep k n) :=
  ⟨8, rfl, by simp [encode, Instr.payload, leBytes_length]⟩

theorem stRotate (k : Nat) (revs : Word64) : Statement (.stRotate k revs) :=
  ⟨8, rfl, by simp [encode, Instr.payload, leBytes_length]⟩

theorem stGetstep (k : Nat) : Statement (.stGetstep k) :=
  ⟨0, rfl, by simp [encode, Instr.payload, leBytes_length]⟩

theorem stStop (k : Nat) : Statement (.stStop k) :=
  ⟨0, rfl, by simp [encode, Instr.payload, leBytes_length]⟩

theorem svSetlimits (j : Nat) (a b c : Word64) : Statement (.svSetlimits j a b c) :=
  ⟨24, rfl, by simp [encode, Instr.payload, leBytes_length]⟩

theorem svSetrange (j : Nat) (a b : Word64) : Statement (.svSetrange j a b) :=
  ⟨16, rfl, by simp [encode, Instr.payload, leBytes_length]⟩

theorem svSetpw (j : Nat) (ms : Word64) : Statement (.svSetpw j ms) :=
  ⟨8, rfl, by simp [encode, Instr.payload, leBytes_length]⟩

theorem svSetpos (j : Nat) (x : Word64) : Statement (.svSetpos j x) :=
  ⟨8, rfl, by simp [encode, Instr.payload, leBytes_length]⟩

theorem svGetpos (j : Nat) : Statement (.svGetpos j) :=
  ⟨0, rfl, by simp [encode, Instr.payload, leBytes_length]⟩

theorem qdPoll (d : Nat) : Statement (.qdPoll d) :=
  ⟨0, rfl, by simp [encode, Instr.payload, leBytes_length]⟩

theorem qdGetpos (d : Nat) : Statement (.qdGetpos d) :=
  ⟨0, rfl, by simp [encode, Instr.payload, leBytes_length]⟩

theorem qdGetderiv (d : Nat) (window : Word64) : Statement (.qdGetderiv d window) :=
  ⟨8, rfl, by simp [encode, Instr.payload, leBytes_length]⟩

theorem qdReset (d : Nat) : Statement (.qdReset d) :=
  ⟨0, rfl, by simp [encode, Instr.payload, leBytes_length]⟩

end Sys2Proof.Laws.FrameLength
end

