-- ==== Sys2Proof/Laws/Units.lean ====
section
/-! SUPPORT. What a command to each unit can do: where it stops, where it waits, and where it runs; and running a command in
flight to its end. -/

namespace Sys2Proof.Machine

/-! Steppers. -/

section Stepper

variable {s : State} {k : Nat} {x : Stepper} {i : Instr} {start : Params → Stepper → World → Stepper × World}

theorem stepperCommand_halted (h : s.halted = true) : stepperCommand k i start s = .fault .halted := by
  simp [stepperCommand, h]

theorem stepperCommand_unbound (h : s.halted = false) (hk : s.stepper k = none) :
    stepperCommand k i start s = .next s.noInstance := by
  simp [stepperCommand, h, hk]

theorem stepperCommand_waits (h : s.halted = false) (hk : s.stepper k = some x) (hf : x.free = false) :
    stepperCommand k i start s =
      .next (s.putStepper k ({ x with ctl := x.ctl.enqueue (.command i) }, s.world)) := by
  simp [stepperCommand, h, hk, hf]

theorem stepperCommand_runs (h : s.halted = false) (hk : s.stepper k = some x) (hf : x.free = true) :
    stepperCommand k i start s =
      .next (s.putStepper k
        (Stepper.complete s.params k (start s.params x s.world).1 (start s.params x s.world).2)) := by
  simp [stepperCommand, h, hk, hf]

/-- Everything a stepper command can do when it answers a next state. -/
theorem stepperCommand_next {t : State} (h : stepperCommand k i start s = .next t) :
    s.halted = false ∧
      ((s.stepper k = none ∧ t = s.noInstance) ∨
        ∃ x, s.stepper k = some x ∧
          ((x.free = false ∧ t = s.putStepper k ({ x with ctl := x.ctl.enqueue (.command i) }, s.world)) ∨
            (x.free = true ∧ t = s.putStepper k
              (Stepper.complete s.params k (start s.params x s.world).1 (start s.params x s.world).2)))) := by
  cases hh : s.halted with
  | true => rw [stepperCommand_halted hh] at h; cases h
  | false =>
    refine ⟨rfl, ?_⟩
    cases hk : s.stepper k with
    | none => rw [stepperCommand_unbound hh hk] at h; cases h; exact .inl ⟨rfl, rfl⟩
    | some x =>
      refine .inr ⟨x, rfl, ?_⟩
      cases hf : x.free with
      | false => rw [stepperCommand_waits hh hk hf] at h; cases h; exact .inl ⟨rfl, rfl⟩
      | true => rw [stepperCommand_runs hh hk hf] at h; cases h; exact .inr ⟨rfl, rfl⟩

theorem Stepper.free_flight (h : x.free = true) : x.flight = none := by
  simp [Stepper.free] at h; exact h.1

/-- A command that has ended stays ended. -/
theorem Stepper.complete_none (p : Params) (w : World) (h : x.flight = none) : Stepper.complete p k x w = (x, w) := by
  simp [Stepper.complete, h]

theorem Stepper.complete_finish (p : Params) (st : Status) (r : Option Word64) (x : Stepper) (w : World) :
    Stepper.complete p k (Stepper.finish k st r x w).1 (Stepper.finish k st r x w).2 = Stepper.finish k st r x w :=
  Stepper.complete_none p _ rfl

/-- An unpaced run of writes that are all accepted ends OK. -/
theorem Stepper.complete_writing_ok {p : Params} {w : World} {todo : List RegW} (h : x.flight = some (.writing todo false))
    (hb : w.busOk todo.length) : Stepper.complete p k x w = Stepper.finish k .ok none x (w.wrote p todo) := by
  simp [Stepper.complete, h, issueWrites_ok hb]

/-- An unpaced run of writes of which the j-th fails ends in an all-stop and BUS_ERROR. -/
theorem Stepper.complete_writing_fails {p : Params} {w : World} {todo : List RegW} {j : Nat}
    (h : x.flight = some (.writing todo false)) (hj : j < todo.length) (hb : w.busOk j) (hf : w.busAt j ≠ .ok) :
    Stepper.complete p k x w =
      Stepper.stopAndEnd p k .busError x ((w.wrote p (todo.take j)).regWrite p todo[j]) := by
  simp [Stepper.complete, h, issueWrites_fails hj hb hf]

/-- `w'` is `w` after these writes, all accepted, and any reads of the time source and sleeps. -/
structure World.WroteInTime (p : Params) (ws : List RegW) (w w' : World) : Prop where
  regs : w'.regs = Memory.after ws w.regs
  log : w'.log = w.log ++ ws.map (accepted p)
  answers : w'.answers = w.answers
  freqHz : w'.freqHz = w.freqHz
  bus : w'.bus = w.bus.skip ws.length
  lines : w'.lines = w.lines
  fresh : w'.fresh = w.fresh

theorem World.WroteInTime.busAt {p : Params} {ws : List RegW} {w w' : World} (h : World.WroteInTime p ws w w') (n : Nat) :
    w'.busAt n = w.busAt (ws.length + n) := by
  rw [World.busAt, h.bus, Tape.peek_skip, World.busAt]

/-- The deadline check touches the time source, nothing else. -/
theorem Stepper.pace_world (p : Params) (x : Stepper) (w : World) (ws : List RegW) :
    World.WroteInTime p ws w (x.pace p (w.wrote p ws)).2 := by
  unfold Stepper.pace
  split <;> exact ⟨rfl, rfl, rfl, rfl, rfl, rfl, rfl⟩

theorem World.WroteInTime.wake {p : Params} {ws : List RegW} {w w' : World} (h : World.WroteInTime p ws w w') (n : Nat) :
    World.WroteInTime p ws w (w'.wake n) := ⟨h.regs, h.log, h.answers, h.freqHz, h.bus, h.lines, h.fresh⟩

/-- Everything a paced step can do from its writes on: a write fails; or all are accepted, and then the deadline is missed
under KILL, or the step sleeps for good, or the run goes on with nothing but the time source changed. -/
theorem Stepper.finishPaced_spec (p : Params) (k : Nat) (rest : Stepper → World → Stepper × World) (todo : List RegW)
    (x : Stepper) (w : World) :
    (∃ j, ∃ h : j < todo.length, w.busOk j ∧ w.busAt j ≠ .ok ∧ Stepper.finishPaced p k rest todo x w =
        Stepper.stopAndEnd p k .busError x ((w.wrote p (todo.take j)).regWrite p todo[j])) ∨
      w.busOk todo.length ∧ ∃ w', World.WroteInTime p todo w w' ∧
        ((0 < x.interval ∧ Stepper.finishPaced p k rest todo x w = Stepper.stopAndEnd p k .timingError x w') ∨
          (0 < x.interval ∧ ∃ wakeAt, Stepper.finishPaced p k rest todo x w = ({ x with flight := some (.sleeping wakeAt) }, w')) ∨
          Stepper.finishPaced p k rest todo x w = rest x.stepDone w') := by
  rcases issueWrites_spec p todo w with ⟨he, hb⟩ | ⟨j, hj, hb, hf, he⟩
  · right
    refine ⟨hb, ?_⟩
    have hw := Stepper.pace_world p x w todo
    have hpos : (x.pace p (w.wrote p todo)).1 ≠ .onward → 0 < x.interval := fun h => by
      unfold Stepper.pace at h
      split at h
      · assumption
      · exact absurd rfl h
    unfold Stepper.finishPaced
    simp only [he, if_true]
    rcases hd : (x.pace p (w.wrote p todo)).1 with _ | wakeAt | _
    · exact ⟨_, hw, .inr (.inr rfl)⟩
    · dsimp only
      split
      · exact ⟨_, hw.wake wakeAt, .inr (.inr rfl)⟩
      · exact ⟨_, hw, .inr (.inl ⟨hpos (by simp [hd]), wakeAt, rfl⟩)⟩
    · exact ⟨_, hw, .inl ⟨hpos (by simp [hd]), rfl⟩⟩
  · left
    refine ⟨j, hj, hb, hf, ?_⟩
    simp [Stepper.finishPaced, he]

end Stepper

/-! Servos. -/

section Servo

variable {s : State} {j : Nat} {x : Servo} {i : Instr} {start : Params → Servo → World → Servo × World}

theorem servoCommand_halted (h : s.halted = true) : servoCommand j i start s = .fault .halted := by
  simp [servoCommand, h]

theorem servoCommand_unbound (h : s.halted = false) (hj : s.servo j = none) :
    servoCommand j i start s = .next s.noInstance := by
  simp [servoCommand, h, hj]

theorem servoCommand_waits (h : s.halted = false) (hj : s.servo j = some x) (hf : x.free = false) :
    servoCommand j i start s = .next (s.putServo j ({ x with ctl := x.ctl.enqueue (.command i) }, s.world)) := by
  simp [servoCommand, h, hj, hf]

theorem servoCommand_runs (h : s.halted = false) (hj : s.servo j = some x) (hf : x.free = true) :
    servoCommand j i start s =
      .next (s.putServo j
        (Servo.complete s.params j (start s.params x s.world).1 (start s.params x s.world).2)) := by
  simp [servoCommand, h, hj, hf]

/-- Everything a servo command can do when it answers a next state. -/
theorem servoCommand_next {t : State} (h : servoCommand j i start s = .next t) :
    s.halted = false ∧
      ((s.servo j = none ∧ t = s.noInstance) ∨
        ∃ x, s.servo j = some x ∧
          ((x.free = false ∧ t = s.putServo j ({ x with ctl := x.ctl.enqueue (.command i) }, s.world)) ∨
            (x.free = true ∧ t = s.putServo j
              (Servo.complete s.params j (start s.params x s.world).1 (start s.params x s.world).2)))) := by
  cases hh : s.halted with
  | true => rw [servoCommand_halted hh] at h; cases h
  | false =>
    refine ⟨rfl, ?_⟩
    cases hk : s.servo j with
    | none => rw [servoCommand_unbound hh hk] at h; cases h; exact .inl ⟨rfl, rfl⟩
    | some x =>
      refine .inr ⟨x, rfl, ?_⟩
      cases hf : x.free with
      | false => rw [servoCommand_waits hh hk hf] at h; cases h; exact .inl ⟨rfl, rfl⟩
      | true => rw [servoCommand_runs hh hk hf] at h; cases h; exact .inr ⟨rfl, rfl⟩

theorem Servo.free_flight (h : x.free = true) : x.flight = none := by
  simp [Servo.free] at h; exact h.1

theorem Servo.complete_none (p : Params) (w : World) (h : x.flight = none) : Servo.complete p j x w = (x, w) := by
  simp [Servo.complete, h]

theorem Servo.complete_finish (p : Params) (st : Status) (r : Option Word64) (x : Servo) (w : World) :
    Servo.complete p j (Servo.finish j st r x w).1 (Servo.finish j st r x w).2 = Servo.finish j st r x w :=
  Servo.complete_none p _ rfl

theorem Servo.complete_writing_ok {p : Params} {w : World} {todo : List RegW} {pos : Option Rat}
    (h : x.flight = some (.writing todo pos)) (hb : w.busOk todo.length) :
    Servo.complete p j x w = Servo.commit j pos x (w.wrote p todo) := by
  simp [Servo.complete, h, issueWrites_ok hb]

theorem Servo.complete_writing_fails {p : Params} {w : World} {todo : List RegW} {pos : Option Rat} {n : Nat}
    (h : x.flight = some (.writing todo pos)) (hn : n < todo.length) (hb : w.busOk n) (hf : w.busAt n ≠ .ok) :
    Servo.complete p j x w =
      Servo.finish j .busError none x (((w.wrote p (todo.take n)).regWrite p todo[n]).allStop p) := by
  simp [Servo.complete, h, issueWrites_fails hn hb hf]

end Servo

/-! Decoders. -/

section Qdec

variable {s : State} {d : Nat} {x : Qdec} {i : Instr} {start : Params → Qdec → World → Qdec × World}

theorem qdecCommand_halted (h : s.halted = true) : qdecCommand d i start s = .fault .halted := by
  simp [qdecCommand, h]

theorem qdecCommand_unbound (h : s.halted = false) (hd : s.qdec d = none) :
    qdecCommand d i start s = .next s.noInstance := by
  simp [qdecCommand, h, hd]

theorem qdecCommand_waits (h : s.halted = false) (hd : s.qdec d = some x) (hf : x.free = false) :
    qdecCommand d i start s = .next (s.putQdec d ({ x with ctl := x.ctl.enqueue (.command i) }, s.world)) := by
  simp [qdecCommand, h, hd, hf]

theorem qdecCommand_runs (h : s.halted = false) (hd : s.qdec d = some x) (hf : x.free = true) :
    qdecCommand d i start s = .next (s.putQdec d (start s.params x s.world)) := by
  simp [qdecCommand, h, hd, hf]

/-- Everything a decoder command can do when it answers a next state. -/
theorem qdecCommand_next {t : State} (h : qdecCommand d i start s = .next t) :
    s.halted = false ∧
      ((s.qdec d = none ∧ t = s.noInstance) ∨
        ∃ x, s.qdec d = some x ∧
          ((x.free = false ∧ t = s.putQdec d ({ x with ctl := x.ctl.enqueue (.command i) }, s.world)) ∨
            (x.free = true ∧ t = s.putQdec d (start s.params x s.world)))) := by
  cases hh : s.halted with
  | true => rw [qdecCommand_halted hh] at h; cases h
  | false =>
    refine ⟨rfl, ?_⟩
    cases hk : s.qdec d with
    | none => rw [qdecCommand_unbound hh hk] at h; cases h; exact .inl ⟨rfl, rfl⟩
    | some x =>
      refine .inr ⟨x, rfl, ?_⟩
      cases hf : x.free with
      | false => rw [qdecCommand_waits hh hk hf] at h; cases h; exact .inl ⟨rfl, rfl⟩
      | true => rw [qdecCommand_runs hh hk hf] at h; cases h; exact .inr ⟨rfl, rfl⟩

end Qdec

/-! The lengths of the runs of writes. -/

@[simp] theorem channelWrites_length (p : Params) (ch : Channel) (a b : Timing) : (channelWrites p ch a b).length = 4 := rfl

@[simp] theorem levelWrites_length (p : Params) (ch : Channel) (l : Level) : (levelWrites p ch l).length = 4 := rfl

@[simp] theorem coilWrites_length (p : Params) (c : Coil) (pol : Polarity) (d : Timing) :
    (coilWrites p c pol d).length = 12 := by simp [coilWrites]

@[simp] theorem entryWrites_length (p : Params) (c : Coils) (e : Entry) : (entryWrites p c e).length = 24 := by
  simp [entryWrites]

@[simp] theorem Stepper.writes_length (p : Params) (x : Stepper) : (x.writes p).length = 24 := by simp [Stepper.writes]

@[simp] theorem stopWrites_length (p : Params) (c : Coils) : (stopWrites p c).length = 24 := rfl

end Sys2Proof.Machine
end

