-- ==== Sys2Proof/Laws/Steps.lean ====
section
/-! SUPPORT. Everything exec and step can do, said once. -/

namespace Sys2Proof.Machine

/-- A command is its unit's command operation, started as a waiting command is. -/
theorem exec_eq (i : Instr) (s : State) : exec i s =
    match i.target.kind with
    | .stepper => stepperCommand i.target.inst i (fun p => Stepper.startJob p i.target.inst (.command i)) s
    | .servo => servoCommand i.target.inst i (fun p => Servo.startJob p i.target.inst (.command i)) s
    | .qdec => qdecCommand i.target.inst i (fun p => Qdec.startJob p i.target.inst (.command i)) s := by
  cases i <;> rfl

/-- Everything exec can do where it answers a next state: the instance is not bound, and the host alone is told; or it is not
free, and the command waits; or the command is started and run to its end. -/
theorem exec_next {i : Instr} {s t : State} (h : exec i s = .next t) : s.halted = false ∧
    ((s.bound i.target = false ∧ t = s.noInstance) ∨
      (∃ k x, i.target = ⟨.stepper, k⟩ ∧ s.stepper k = some x ∧
        (x.free = false ∧ t = s.putStepper k ({ x with ctl := x.ctl.enqueue (.command i) }, s.world) ∨
          x.free = true ∧ t = s.putStepper k (let r := Stepper.startJob s.params k (.command i) x s.world
            Stepper.complete s.params k r.1 r.2))) ∨
      (∃ j x, i.target = ⟨.servo, j⟩ ∧ s.servo j = some x ∧
        (x.free = false ∧ t = s.putServo j ({ x with ctl := x.ctl.enqueue (.command i) }, s.world) ∨
          x.free = true ∧ t = s.putServo j (let r := Servo.startJob s.params j (.command i) x s.world
            Servo.complete s.params j r.1 r.2))) ∨
      ∃ d x, i.target = ⟨.qdec, d⟩ ∧ s.qdec d = some x ∧
        (x.free = false ∧ t = s.putQdec d ({ x with ctl := x.ctl.enqueue (.command i) }, s.world) ∨
          x.free = true ∧ t = s.putQdec d (Qdec.startJob s.params d (.command i) x s.world))) := by
  rw [exec_eq] at h
  rcases hT : i.target with ⟨kind, n⟩
  rw [hT] at h
  cases kind <;> simp only at h
  · obtain ⟨hh, ⟨hn, rfl⟩ | ⟨x, hx, hr⟩⟩ := stepperCommand_next h
    · exact ⟨hh, .inl ⟨by simp [State.bound, hn], rfl⟩⟩
    · exact ⟨hh, .inr (.inl ⟨n, x, rfl, hx, hr⟩)⟩
  · obtain ⟨hh, ⟨hn, rfl⟩ | ⟨x, hx, hr⟩⟩ := servoCommand_next h
    · exact ⟨hh, .inl ⟨by simp [State.bound, hn], rfl⟩⟩
    · exact ⟨hh, .inr (.inr (.inl ⟨n, x, rfl, hx, hr⟩))⟩
  · obtain ⟨hh, ⟨hn, rfl⟩ | ⟨x, hx, hr⟩⟩ := qdecCommand_next h
    · exact ⟨hh, .inl ⟨by simp [State.bound, hn], rfl⟩⟩
    · exact ⟨hh, .inr (.inr (.inr ⟨n, x, rfl, hx, hr⟩))⟩

/-- What a move other than a command can do to stepper k and the world. -/
def Stepper.Moved (p : Params) (k : Nat) (x : Stepper) (w : World) (r : Stepper × World) : Prop :=
  (x.free = true ∧ r = Stepper.finish k .illegalCommand none x w) ∨
    (∃ j, r = ({ x with ctl := x.ctl.enqueue j }, w)) ∨ r = Stepper.turn p k x w

/-- What a move other than a command can do to servo j and the world. -/
def Servo.Moved (p : Params) (j : Nat) (x : Servo) (w : World) (r : Servo × World) : Prop :=
  (x.free = true ∧ r = Servo.finish j .illegalCommand none x w) ∨
    (∃ job, r = ({ x with ctl := x.ctl.enqueue job }, w)) ∨ r = Servo.turn p j x w

/-- What a move other than a command can do to decoder d and the world. -/
def Qdec.Moved (p : Params) (d : Nat) (x : Qdec) (w : World) (r : Qdec × World) : Prop :=
  (x.free = true ∧ r = Qdec.finish d .illegalCommand none x w) ∨
    (∃ j, r = ({ x with ctl := x.ctl.enqueue j }, w)) ∨ r = Qdec.turn p d x w ∨ r = x.poll p w

/-- The next states a move can lead to. -/
inductive State.Move (s : State) : State → Prop where
  | command (i : Instr) {t : State} (h : exec i s = .next t) : Move s t
  | nobody : Move s s.noInstance
  | stepper (k : Nat) {x : Stepper} {r : Stepper × World} (hx : s.stepper k = some x)
      (hr : Stepper.Moved s.params k x s.world r) : Move s (s.putStepper k r)
  | servo (j : Nat) {x : Servo} {r : Servo × World} (hx : s.servo j = some x) (hr : Servo.Moved s.params j x s.world r) :
      Move s (s.putServo j r)
  | qdec (d : Nat) {x : Qdec} {r : Qdec × World} (hx : s.qdec d = some x) (hr : Qdec.Moved s.params d x s.world r) :
      Move s (s.putQdec d r)
  | shutdown : Move s s.shutdown
  | setFreq {hz : Rat} (h : freqLegal hz = true) : Move s (s.setFreq hz)
  | outsideWrite {a : RegAddr} (b : Byte) (h : a ∉ s.blockAddrs) : Move s (s.outsideWrite a b)
  | outsideAllStop : Move s s.outsideAllStop

theorem State.move_sendJob (s : State) (who : Target) (j : Job) : s.Move (s.sendJob who j) := by
  unfold State.sendJob
  split <;> split
  · exact .nobody
  · exact .stepper _ ‹_› (.inr (.inl ⟨_, rfl⟩))
  · exact .nobody
  · exact .servo _ ‹_› (.inr (.inl ⟨_, rfl⟩))
  · exact .nobody
  · exact .qdec _ ‹_› (.inr (.inl ⟨_, rfl⟩))

theorem State.move_rejectAt (s : State) (who : Target) : s.Move (s.rejectAt who) := by
  unfold State.rejectAt
  split <;> split
  · exact .nobody
  · refine .stepper _ ‹_› ?_
    split
    · exact .inl ⟨‹_›, rfl⟩
    · exact .inr (.inl ⟨_, rfl⟩)
  · exact .nobody
  · refine .servo _ ‹_› ?_
    split
    · exact .inl ⟨‹_›, rfl⟩
    · exact .inr (.inl ⟨_, rfl⟩)
  · exact .nobody
  · refine .qdec _ ‹_› ?_
    split
    · exact .inl ⟨‹_›, rfl⟩
    · exact .inr (.inl ⟨_, rfl⟩)

theorem State.move_turnOf {s t : State} {who : Target} (h : s.turnOf who = some t) : s.Move t := by
  unfold State.turnOf at h
  split at h <;> obtain ⟨x, hx, rfl⟩ := Option.map_eq_some_iff.mp h
  · exact .stepper _ hx (.inr (.inr rfl))
  · exact .servo _ hx (.inr (.inr rfl))
  · exact .qdec _ hx (.inr (.inr (.inl rfl)))

theorem State.move_pollOf {s t : State} {d : Nat} (h : s.pollOf d = some t) : s.Move t := by
  obtain ⟨x, hx, rfl⟩ := Option.map_eq_some_iff.mp h
  exact .qdec _ hx (.inr (.inr (.inr rfl)))

theorem orNoAgent_next {o : Option State} {t : State} (h : orNoAgent o = .next t) : o = some t := by
  unfold orNoAgent at h
  split at h <;> simp_all

/-- One event that leads to a next state is a move. -/
theorem takeEvent_next {e : Event} {s t : State} (h : takeEvent e s = .next t) : s.Move t := by
  cases e <;> simp only [takeEvent] at h
  case frame bytes =>
    unfold hostFrame at h
    split at h
    · exact .command _ h
    · cases h
      unfold State.rejectFrame
      split
      · exact .nobody
      · exact s.move_rejectAt _
  case send bytes =>
    cases h
    unfold State.sendFrame
    split
    · exact s.move_sendJob _ _
    · split
      · exact .nobody
      · exact s.move_sendJob _ _
  case turn who => exact State.move_turnOf (orNoAgent_next h)
  case poll d => exact State.move_pollOf (orNoAgent_next h)
  case shutdown => cases h; exact .shutdown
  case setFreq hz =>
    split at h
    · cases h; exact .setFreq ‹_›
    · cases h
  case outsideWrite a b =>
    split at h
    · cases h
    · cases h; exact .outsideWrite b ‹_›
  case outsideAllStop => cases h; exact .outsideAllStop

/-- A step that leads to a next state is a move of the state with that move taken off the schedule; the block was not
halted. -/
theorem step_next {s t : State} (h : step s = .next t) : s.halted = false ∧ s.afterEvent.Move t := by
  unfold step at h
  split at h
  · cases h
  · exact ⟨by simpa using ‹¬s.halted = true›, takeEvent_next h⟩

end Sys2Proof.Machine
end

