-- ==== Sys2Proof/Tests/Slice0.lean ====
section
/-! SUPPORT. Tests on single steps, their expected results taken from spec/95_test_vectors.md (named as there), and for every
statement of Certificates/Slice0/Obligations.lean that has hypotheses a witness that meets them. -/

/- One theorem at a time: elaborated side by side, their threads' stacks together pass the memory limit of the check. -/
set_option Elab.async false

namespace Sys2Proof.Tests

open Sys2Proof.Machine

/-! A block with every open parameter given a value, as 95_test_vectors.md's conventions have it. -/

def p0 : Params :=
  { launchParams with
    curve := exampleCurve
    devAddr := 0x60
    servoLimits := ⟨1, 3 / 2, 2⟩
    countsPerUnit := 4
    pollIntervalNs := 1000
    ringSize := 4
    qdecPins := [(17, 27)] }

def st0 : Stepper := Stepper.reset defaultSm1

def sv0 : Servo := Servo.reset ⟨1, 3 / 2, 2⟩ 0

def qd0 : Qdec := Qdec.reset 4 (17, 27)

/-- The inputs of one step: outcomes of register writes, answers of the time source, levels of the lines. The registers hold 0. -/
def w0 (bus : List BusDraw) (time : List Word64) (lines : List Bool) : World :=
  { World.reset 50 with
    regs := (List.range 256).map fun a => (a, 0)
    bus := ⟨bus, 0⟩
    time := ⟨time, 0⟩
    lines := ⟨lines, 0⟩ }

/-- `n` accepted writes. -/
def oks (n : Nat) : World := w0 (List.replicate n .ok) [] []

/-- "SM1", "S01" and Q0 alone are bound, as given. -/
def block (x : Stepper) (v : Servo) (q : Qdec) (w : World) : State where
  params := p0
  st := [some x, none]
  sv := some v :: List.replicate 15 none
  qd := [q]
  world := w
  events := ⟨[], 0⟩
  halted := false

def withSt (x : Stepper) (w : World) : State := block x sv0 qd0 w

def withSv (v : Servo) (w : World) : State := block st0 v qd0 w

def withQd (q : Qdec) (w : World) : State := block st0 sv0 q w

/-- The next state of an outcome meets a check. -/
def next (o : Host.Outcome State Fault Refusal) (f : State → Bool) : Bool :=
  match o with
  | .next t => f t
  | .fault _ => false
  | .refused _ => false

/-- The register writes of the record, as addresses and bytes. -/
def writes (s : State) : List (Nat × Nat) := s.world.log.map fun e => (e.addr.toNat, e.byte.toNat)

/-- The statuses answered. -/
def codes (s : State) : List Nat := s.world.answers.map fun a => a.status.code.toNat

/-- The results answered. -/
def results (s : State) : List (Option Word64) := s.world.answers.map fun a => a.result

/-! Well-formedness: the one check is on the instance number. -/

theorem test_wellformed_last_instance : WellFormed (.stGetstep 15) := by decide

theorem test_wellformed_refuses_instance_16 : ¬ WellFormed (.stGetstep 16) := by decide

/-! Decoding (V-ENC-1, one frame per command; V-ENC-2; V-ENC-3). -/

theorem test_decode_setmode : decode [0x00, 0x11, 0x02] = .ok (.stSetmode 1 .halfStep) := by decide +kernel

theorem test_decode_setspr : decode [0x01, 0x10, 0xC8, 0, 0, 0] = .ok (.stSetspr 0 200) := by decide +kernel

theorem test_decode_setinterval :
    decode [0x02, 0x10, 0, 0, 0, 0, 0, 0, 0x24, 0x40, 0x01] = .ok (.stSetinterval 0 0x4024000000000000 true) := by
  decide +kernel

theorem test_decode_onestep : decode [0x03, 0x10] = .ok (.stOnestep 0) := by decide +kernel

theorem test_decode_onestepdir : decode [0x04, 0x10, 0x01] = .ok (.stOnestepdir 0 .reverse) := by decide +kernel

theorem test_decode_step :
    decode [0x05, 0x10, 0xFC, 0xFF, 0xFF, 0xFF, 0xFF, 0xFF, 0xFF, 0xFF] = .ok (.stStep 0 (BitVec.ofInt 64 (-4))) := by
  decide +kernel

theorem test_decode_rotate :
    decode [0x06, 0x10, 0, 0, 0, 0, 0, 0, 0xF4, 0x3F] = .ok (.stRotate 0 0x3FF4000000000000) := by decide +kernel

theorem test_decode_getstep : decode [0x07, 0x11] = .ok (.stGetstep 1) := by decide +kernel

theorem test_decode_stop : decode [0x08, 0x10] = .ok (.stStop 0) := by decide +kernel

theorem test_decode_setlimits :
    decode [0x00, 0x20, 0, 0, 0, 0, 0, 0, 0xF0, 0x3F, 0, 0, 0, 0, 0, 0, 0xF8, 0x3F, 0, 0, 0, 0, 0, 0, 0, 0x40] =
      .ok (.svSetlimits 0 0x3FF0000000000000 0x3FF8000000000000 0x4000000000000000) := by decide +kernel

theorem test_decode_setrange :
    decode [0x01, 0x20, 0, 0, 0, 0, 0, 0, 0, 0, 0, 0, 0, 0, 0, 0, 0x59, 0x40] =
      .ok (.svSetrange 0 0 0x4059000000000000) := by decide +kernel

theorem test_decode_setpw :
    decode [0x02, 0x21, 0, 0, 0, 0, 0, 0, 0xF8, 0x3F] = .ok (.svSetpw 1 0x3FF8000000000000) := by decide +kernel

theorem test_decode_setpos :
    decode [0x03, 0x2F, 0, 0, 0, 0, 0, 0, 0x39, 0x40] = .ok (.svSetpos 15 0x4039000000000000) := by decide +kernel

theorem test_decode_svgetpos : decode [0x04, 0x20] = .ok (.svGetpos 0) := by decide +kernel

theorem test_decode_poll : decode [0x00, 0x30] = .ok (.qdPoll 0) := by decide +kernel

theorem test_decode_qdgetpos : decode [0x01, 0x30] = .ok (.qdGetpos 0) := by decide +kernel

theorem test_decode_getderiv :
    decode [0x02, 0x30, 0, 0, 0, 0, 0, 0, 0xE0, 0x3F] = .ok (.qdGetderiv 0 0x3FE0000000000000) := by decide +kernel

theorem test_decode_qdreset : decode [0x03, 0x30] = .ok (.qdReset 0) := by decide +kernel

theorem test_decode_refuses_units :
    decode [0x00, 0x00] = .error .reservedUnit ∧ decode [0x00, 0x40] = .error .reservedUnit ∧
      decode [0x00, 0xF0] = .error .reservedUnit := by decide +kernel

theorem test_decode_refuses_opcodes :
    decode [0x09, 0x10] = .error .reservedOp ∧ decode [0xFF, 0x10] = .error .reservedOp ∧
      decode [0x05, 0x20] = .error .reservedOp ∧ decode [0x04, 0x30] = .error .reservedOp := by decide +kernel

theorem test_decode_refuses_enums :
    decode [0x00, 0x10, 0x04] = .error .badEnum ∧ decode [0x04, 0x10, 0x02] = .error .badEnum ∧
      decode [0x02, 0x10, 0, 0, 0, 0, 0, 0, 0x24, 0x40, 0x02] = .error .badEnum := by decide +kernel

theorem test_decode_refuses_lengths :
    decode [0x03, 0x10, 0x00] = .error .badLength ∧ decode [0x01, 0x10, 0xC8, 0, 0] = .error .badLength ∧
      decode [0x05, 0x10] = .error .badLength ∧ decode [0x05] = .error .noHeader := by decide +kernel

theorem test_assemble :
    (assemble "ST.STEP SM1, -4").map encode = some [0x05, 0x10, 0xFC, 0xFF, 0xFF, 0xFF, 0xFF, 0xFF, 0xFF, 0xFF] ∧
      (assemble "ST.SETINTERVAL SM1, 10.0, TRUE").map encode =
        some [0x02, 0x10, 0, 0, 0, 0, 0, 0, 0x24, 0x40, 0x01] ∧
      (assemble "SV.SETPOS S16, 25.0").map encode = some [0x03, 0x2F, 0, 0, 0, 0, 0, 0, 0x39, 0x40] := by
  decide +kernel

theorem test_assemble_pseudo :
    (assemble "ST.FWD SM1, 7").map encode = some [0x05, 0x10, 0x07, 0, 0, 0, 0, 0, 0, 0] ∧
      (assemble "ST.REV SM2, 1").map encode = some [0x05, 0x11, 0xFF, 0xFF, 0xFF, 0xFF, 0xFF, 0xFF, 0xFF, 0xFF] ∧
      (assemble "ST.HALT SM1").map encode = some [0x05, 0x10, 0, 0, 0, 0, 0, 0, 0, 0] ∧
      (assemble "ST.REV SM1, 9223372036854775808").map encode = some [0x05, 0x10, 0, 0, 0, 0, 0, 0, 0, 0x80] := by
  decide +kernel

/-- The first and the last row of the opcode table, run as the first command after reset. -/
theorem test_first_command_after_reset :
    next (step (State.reset.withFetchWord 16 0x1000)) (fun _ => true) = true ∧
      next (step (State.reset.withFetchWord 16 0x3003)) (fun _ => true) = true := by decide

/-! Launch (60_exceptions.md R296, R297). -/

theorem test_launch_binds :
    launchBindings = ⟨[], [1, 0], [15, 14, 1, 0]⟩ ∧
      (claimAll [.dc "M2", .stepper "SM1", .stepper "SM2", .dc "M3", .servo "S17", .stepper "SM2"] Bindings.none).1 =
        [.bound, .channelConflict, .bound, .channelConflict, .invalidChannelName, .alreadyAllocated] := by
  decide +kernel

/-! Steppers. -/

/-- V-ST-4. -/
theorem test_setmode :
    next (exec (.stSetmode 0 .multiStep) (withSt { st0 with step := BitVec.ofInt 64 (-5) } (oks 0)))
      (fun t => codes t = [0] && writes t = [] && (t.stepper 0).map (fun x => (x.mode, x.step)) = some (.multiStep, 0)) =
      true := by decide +kernel

/-- V-ST-8. -/
theorem test_setspr :
    next (exec (.stSetspr 0 0) (withSt st0 (oks 0))) (fun t => codes t = [2] && (t.stepper 0).map (·.spr) = some none) = true ∧
      next (exec (.stSetspr 0 0xFFFFFFFF) (withSt st0 (oks 0)))
        (fun t => codes t = [0] && (t.stepper 0).map (·.spr) = some (some 0xFFFFFFFF)) = true := by decide +kernel

/-- V-ST-8: −1.0, NaN and −0.0. -/
theorem test_setinterval :
    next (exec (.stSetinterval 0 0xBFF0000000000000 true) (withSt st0 (oks 0))) (fun t => codes t = [2]) = true ∧
      next (exec (.stSetinterval 0 0x7FF8000000000000 false) (withSt st0 (oks 0))) (fun t => codes t = [2]) = true ∧
      next (exec (.stSetinterval 0 0x8000000000000000 true) (withSt st0 (oks 0)))
        (fun t => codes t = [0] && (t.stepper 0).map (fun x => (x.interval, x.kill)) = some (0, true)) = true := by
  decide +kernel

/-- V-ST-1: the 24 register writes of the first step. -/
theorem test_onestep :
    next (exec (.stOnestep 0) (withSt st0 (oks 24)))
      (fun t => codes t = [0] && (t.stepper 0).map (·.step) = some 1 && writes t =
        [(0x26, 0), (0x27, 0), (0x28, 0xFF), (0x29, 0x0F), (0x2E, 0), (0x2F, 0x10), (0x30, 0), (0x31, 0),
          (0x2A, 0), (0x2B, 0), (0x2C, 0), (0x2D, 0x10), (0x3A, 0), (0x3B, 0), (0x3C, 0), (0x3D, 0),
          (0x32, 0), (0x33, 0x10), (0x34, 0), (0x35, 0), (0x36, 0), (0x37, 0), (0x38, 0), (0x39, 0x10)]) = true := by
  decide +kernel

/-- V-ST-10: the 5th write fails. -/
theorem test_onestep_bus_error :
    next (exec (.stOnestep 0) (withSt st0 (w0 [.ok, .ok, .ok, .ok, .errorLost] [] [])))
      (fun t => codes t = [3] && (t.stepper 0).map (fun x => (x.step, x.run)) = some (1, .idle) && writes t =
        [(0x26, 0), (0x27, 0), (0x28, 0xFF), (0x29, 0x0F), (0x2E, 0), (0xFA, 0), (0xFB, 0), (0xFC, 0), (0xFD, 0)]) =
      true := by decide +kernel

/-- 40_stepper.md R135's example. -/
theorem test_onestepdir :
    next (exec (.stOnestepdir 0 .reverse) (withSt st0 (oks 24)))
      (fun t => codes t = [0] && (t.stepper 0).map (fun x => (x.dir, x.step)) = some (.reverse, BitVec.ofInt 64 (-1))) =
      true := by decide +kernel

/-- 40_stepper.md R137's example. -/
theorem test_step :
    next (exec (.stStep 0 3) (withSt { st0 with mode := .halfStep } (oks 72)))
      (fun t => codes t = [0] && (t.stepper 0).map (fun x => (x.step, x.dir, x.run)) = some (3, .forward, .idle) &&
        (writes t).length = 72) = true := by decide +kernel

/-- V-ST-9: late by one nanosecond under KILL; and early, where the step sleeps to its deadline. -/
theorem test_step_deadline :
    next (exec (.stStep 0 1) (withSt { st0 with interval := 10, kill := true } (w0 (List.replicate 24 .ok) [1000, 10001001] [])))
        (fun t => codes t = [4] && (t.stepper 0).map (·.step) = some 1 &&
          (writes t).drop 24 = [(0xFA, 0), (0xFB, 0), (0xFC, 0), (0xFD, 0)]) = true ∧
      next (exec (.stStep 0 1) (withSt { st0 with interval := 10 } (w0 (List.replicate 24 .ok) [1000, 2001000] [])))
        (fun t => codes t = [0] && t.world.clock = 10001000) = true := by decide +kernel

/-- V-ST-8: 1.25 turns of 2 steps are 3 steps, −1.25 turns are −2. -/
theorem test_rotate :
    next (exec (.stRotate 0 0x3FF4000000000000) (withSt { st0 with spr := some 2 } (oks 72)))
        (fun t => codes t = [0] && (t.stepper 0).map (·.step) = some 3) = true ∧
      next (exec (.stRotate 0 0xBFF4000000000000) (withSt { st0 with spr := some 2 } (oks 48)))
        (fun t => codes t = [0] && (t.stepper 0).map (·.step) = some (BitVec.ofInt 64 (-2))) = true := by decide +kernel

/-- V-ST-8: SPR unset is found before NaN; then an infinity and 1e30 are out of range. -/
theorem test_rotate_refuses :
    next (exec (.stRotate 0 0x7FF8000000000000) (withSt st0 (oks 0))) (fun t => codes t = [2]) = true ∧
      next (exec (.stRotate 0 0x7FF0000000000000) (withSt { st0 with spr := some 200 } (oks 0))) (fun t => codes t = [1]) =
        true ∧
      next (exec (.stRotate 0 0x46293E5939A08CEA) (withSt { st0 with spr := some 200 } (oks 0))) (fun t => codes t = [1]) =
        true := by decide +kernel

/-- V-ST-11. -/
theorem test_getstep :
    next (exec (.stGetstep 0) (withSt { st0 with step := BitVec.ofInt 64 (-1) } (oks 0)))
      (fun t => codes t = [0] && results t = [some 0xFFFFFFFFFFFFFFFF]) = true := by decide +kernel

/-- V-ST-7: the six channels, in order. -/
theorem test_stop :
    next (exec (.stStop 0) (withSt { st0 with dir := .reverse, step := 12 } (oks 24)))
      (fun t => codes t = [0] && (t.stepper 0).map (fun x => (x.dir, x.step)) = some (.reverse, 12) &&
        (writes t).map (·.1) = [0x26, 0x27, 0x28, 0x29, 0x2E, 0x2F, 0x30, 0x31, 0x2A, 0x2B, 0x2C, 0x2D, 0x3A, 0x3B, 0x3C,
          0x3D, 0x32, 0x33, 0x34, 0x35, 0x36, 0x37, 0x38, 0x39] && (writes t).all (fun e => e.2 = 0)) = true := by
  decide +kernel

/-- V-ST-2: both conventions at −32, −3, 0, 9 and 2^63 − 1. -/
theorem test_table_index :
    ([-32, -3, 0, 9, 2 ^ 63 - 1].map fun n => (tableIndex .floorMod .multiStep n, tableIndex .absLegacy .multiStep n)) =
        [(31, 1), (28, 4), (31, 1), (8, 8), (30, 30)] ∧
      ([-32, -3, 0, 9, 2 ^ 63 - 1].map fun n => (tableIndex .floorMod .halfStep n, tableIndex .absLegacy .halfStep n)) =
        [(7, 1), (4, 4), (7, 1), (0, 0), (6, 6)] := by decide +kernel

/-! Servos. -/

/-- 41_servo.md R181's examples. -/
theorem test_setlimits :
    next (exec (.svSetlimits 0 0x3FF0000000000000 0x3FF8000000000000 0x4000000000000000) (withSv sv0 (oks 0)))
        (fun t => codes t = [0] && (t.servo 0).map (·.limits) = some ⟨1, 3 / 2, 2⟩) = true ∧
      next (exec (.svSetlimits 0 0x3FF0000000000000 0x3FF0000000000000 0x4000000000000000) (withSv sv0 (oks 0)))
        (fun t => codes t = [1]) = true := by decide +kernel

/-- 41_servo.md R182's example, and equal bounds. -/
theorem test_setrange :
    next (exec (.svSetrange 0 0 0x4059000000000000) (withSv sv0 (oks 0)))
        (fun t => codes t = [0] && (t.servo 0).map (fun x => (x.minX, x.maxX)) = some (0, 100)) = true ∧
      next (exec (.svSetrange 0 0 0x8000000000000000) (withSv sv0 (oks 0))) (fun t => codes t = [1]) = true := by
  decide +kernel

/-- 41_servo.md R184's example: 1.5 ms of 20 ms. -/
theorem test_setpw :
    next (exec (.svSetpw 0 0x3FF8000000000000) (withSv sv0 (oks 4)))
      (fun t => codes t = [0] && writes t = [(6, 0), (7, 0), (8, 0x33), (9, 1)]) = true := by decide +kernel

/-- At 1000 Hz a width of 1.5 ms lies within the limits and above the period. -/
theorem test_setpw_above_period :
    next (exec (.svSetpw 0 0x3FF8000000000000) (withSv sv0 { oks 0 with freqHz := 1000 }))
      (fun t => codes t = [1] && writes t = []) = true := by decide +kernel

/-- 41_servo.md R186's example. -/
theorem test_setpos :
    next (exec (.svSetpos 0 0x4039000000000000) (withSv { sv0 with maxX := 100 } (oks 4)))
      (fun t => codes t = [0] && writes t = [(6, 0), (7, 0), (8, 0x66), (9, 1)] && (t.servo 0).map (·.pos) = some (some 25)) =
      true := by decide +kernel

/-- Outside the range; and a failing write keeps the old position. -/
theorem test_setpos_refuses :
    next (exec (.svSetpos 0 0x4062C00000000000) (withSv { sv0 with maxX := 100 } (oks 4))) (fun t => codes t = [1]) = true ∧
      next (exec (.svSetpos 0 0x4039000000000000) (withSv { sv0 with maxX := 100, pos := some 7 } (w0 [.ok, .errorLanded] [] [])))
        (fun t => codes t = [3] && writes t = [(6, 0), (7, 0), (0xFA, 0), (0xFB, 0), (0xFC, 0), (0xFD, 0)] &&
          (t.servo 0).map (·.pos) = some (some 7)) = true := by decide +kernel

/-- 41_servo.md R188's example, and before the first position. -/
theorem test_svgetpos :
    next (exec (.svGetpos 0) (withSv { sv0 with pos := some 25 } (oks 0)))
        (fun t => codes t = [0] && results t = [some 0x4039000000000000]) = true ∧
      next (exec (.svGetpos 0) (withSv sv0 (oks 0))) (fun t => codes t = [5] && results t = [none]) = true := by
  decide +kernel

/-! Decoders. -/

/-- 42_quadrature.md R234's example. -/
theorem test_poll :
    next (exec (.qdPoll 0) (withQd qd0 (w0 [] [40] [true, false])))
      (fun t => codes t = [0] && (t.qdec 0).map (fun x => (x.gray, x.pos, x.count, x.lastT, x.lastPos, x.newest p0)) ==
        some (1, 1, 1, some 40, some 1, ⟨40, 1 / 4⟩)) = true := by decide +kernel

/-- Two states away under HOLD: nothing moves; and the counter wraps at 2^31 − 1 (R226). -/
theorem test_poll_invalid_and_wrap :
    next (exec (.qdPoll 0) (withQd qd0 (w0 [] [40] [true, true])))
        (fun t => (t.qdec 0).map (fun x => (x.gray, x.pos)) = some (0, 0)) = true ∧
      next (exec (.qdPoll 0) (withQd { qd0 with pos := 2 ^ 31 - 1 } (w0 [] [40] [true, false])))
        (fun t => (t.qdec 0).map (·.pos) = some (-(2 ^ 31))) = true := by decide +kernel

/-- Two samples, 5/2 the newest. -/
def qd2 : Qdec :=
  { qd0 with ring := [⟨100, 1 / 2⟩, ⟨200, 5 / 2⟩, ⟨0, 0⟩, ⟨0, 0⟩], head := 2, count := 2, lastT := some 200, lastPos := some 10, pos := 10 }

/-- 42_quadrature.md R231's example, and an empty ring. -/
theorem test_qdgetpos :
    next (exec (.qdGetpos 0) (withQd qd2 (oks 0))) (fun t => codes t = [0] && results t = [some 0x4004000000000000]) = true ∧
      next (exec (.qdGetpos 0) (withQd qd0 (oks 0))) (fun t => codes t = [5]) = true := by decide +kernel

/-- The oldest sample is taken: (5/2 − 1/2) · 10^9 / (1100 − 100) = 2000000; and a window of 0 takes the newest: 0. -/
theorem test_getderiv :
    next (exec (.qdGetderiv 0 0x3FF0000000000000) (withQd qd2 (w0 [] [1100] [])))
        (fun t => codes t = [0] && results t = [some 0x413E848000000000]) = true ∧
      next (exec (.qdGetderiv 0 0) (withQd qd2 (w0 [] [1100] []))) (fun t => codes t = [0] && results t = [some 0]) = true := by
  decide +kernel

/-- A negative window, an empty ring, and no time between. -/
theorem test_getderiv_refuses :
    next (exec (.qdGetderiv 0 0xBFF0000000000000) (withQd qd2 (oks 0))) (fun t => codes t = [1]) = true ∧
      next (exec (.qdGetderiv 0 0) (withQd qd0 (oks 0))) (fun t => codes t = [5]) = true ∧
      next (exec (.qdGetderiv 0 0) (withQd { qd0 with ring := [⟨100, 1⟩, ⟨0, 0⟩, ⟨0, 0⟩, ⟨0, 0⟩], head := 1, count := 1 }
        (w0 [] [100] []))) (fun t => codes t = [6] && results t = [none]) = true := by decide +kernel

/-- 42_quadrature.md R233: the newest value becomes the offset. -/
theorem test_qdreset :
    next (exec (.qdReset 0) (withQd qd2 (oks 0)))
      (fun t => codes t = [0] && (t.qdec 0).map (fun x => (x.offset, x.pos, x.count)) = some (5 / 2, 10, 2)) = true := by
  decide +kernel

/-! Conversions (00_scope.md R13). -/

theorem test_to_binary64 :
    Binary64.ofRat (3 / 2) = 0x3FF8000000000000 ∧ Binary64.ofRat (4 / 3) = 0x3FF5555555555555 ∧
      Binary64.ofRat (8 / 5) = 0x3FF999999999999A ∧ Binary64.ofRat (1 / 2 ^ 1074) = 1 := by decide +kernel

/-! Witnesses: for each statement, a state and operands that meet its hypotheses, clause by clause. -/

theorem witness_StepRunsTheDecodedCommand :
    ((withSt st0 (oks 0)).withFrame [0x07, 0x10]).halted = false ∧
      ((withSt st0 (oks 0)).withFrame [0x07, 0x10]).nextEvent = .frame [0x07, 0x10] ∧
      decode [0x07, 0x10] = .ok (.stGetstep 0) := ⟨rfl, rfl, by decide +kernel⟩

theorem witness_DecodeOfEncode : WellFormed (.svSetlimits 0 0 0 0) ∧ WellFormed (.qdReset 15) := by decide

theorem witness_OnlyEncodingsDecode : decode [0x03, 0x3F] = .ok (.qdReset 15) := by decide +kernel

theorem witness_PseudoInstructionsExpand :
    (pseudoFwd 0 1).isSome = true ∧ (pseudoFwd 0 (2 ^ 63 - 1)).isSome = true ∧ pseudoFwd 0 (2 ^ 63) = none ∧
      (pseudoRev 0 (2 ^ 63)).isSome = true ∧ pseudoRev 0 (2 ^ 63 + 1) = none ∧ pseudoFwd 0 0 = none ∧ pseudoRev 0 0 = none := by
  decide +kernel

theorem witness_LaunchLeavesResetValues :
    (State.launch p0 50 launchBindings).stepper 1 = some (Stepper.reset defaultSm2) ∧
      (State.launch p0 50 launchBindings).servo 15 = some (Servo.reset ⟨1, 3 / 2, 2⟩ 15) ∧
      (State.launch p0 50 launchBindings).qdec 0 = some qd0 := by decide +kernel

theorem witness_LaunchMeetsTheInvariant :
    State.launchChecked p0 24 launchClaims = some (State.launch p0 24 launchBindings) ∧
      (State.launchChecked p0 1526 launchClaims).isSome = true := ⟨if_pos (by decide +kernel), by decide +kernel⟩

theorem inv_st0 (w : World) : Stepper.Inv p0 w st0 :=
  ⟨by decide +kernel, by decide +kernel, by decide +kernel, Nat.zero_le _, fun _ h => absurd h List.not_mem_nil⟩

theorem inv_sv0 : Servo.Inv p0 sv0 := ⟨by decide +kernel, by decide +kernel, fun _ h => absurd h List.not_mem_nil⟩

theorem inv_qd0 (w : World) (h : w.clock = 0) : Qdec.Inv p0 w qd0 := by
  rw [Qdec.Inv, h]
  decide +kernel

/-- A block of three instances that each keep their rules keeps the invariant. -/
theorem inv_block {x : Stepper} {w : World} (hx : Stepper.Inv p0 w x) (hq : Qdec.Inv p0 w qd0)
    (hf : freqLegal w.freqHz = true) (hm : Memory.wf w.regs = true) : (withSt x w).Inv := by
  refine ⟨(by decide +kernel : paramsLegal p0 = true), hf, hm, rfl, rfl, ?_, ?_, ?_⟩
  · intro o ho y hy
    obtain rfl | rfl : o = some x ∨ o = none := by simpa [withSt, block] using ho
    · obtain rfl : x = y := by simpa using hy
      exact hx
    · cases hy
  · intro o ho y hy
    obtain rfl | rfl : o = some sv0 ∨ o = none := by simpa [withSt, block] using ho
    · obtain rfl : sv0 = y := by simpa using hy
      exact inv_sv0
    · cases hy
  · intro y hy
    obtain rfl : y = qd0 := by simpa [withSt, block] using hy
    exact hq

theorem witness_StepKeepsTheInvariant :
    (withSt st0 (oks 24)).Inv ∧
      next (step ((withSt st0 (oks 24)).withFrame [0x03, 0x10])) (fun _ => true) = true :=
  ⟨inv_block (inv_st0 _) (inv_qd0 _ rfl) (by decide +kernel) (by decide +kernel), by decide +kernel⟩

/-- A stepper in the middle of a run, asleep. -/
def stSleeping : Stepper :=
  { st0 with interval := 10, step := 1, run := .running 2 (some 1000), flight := some (.sleeping 10001000) }

theorem witness_StepKeepsTheInvariant_in_a_run :
    (withSt stSleeping { oks 24 with clock := 1000 }).Inv ∧
      next (step { withSt stSleeping { oks 24 with clock := 1000 } with events := ⟨[.turn ⟨.stepper, 0⟩], 0⟩ })
        (fun t => t.world.clock = 10001000) = true :=
  ⟨inv_block ⟨by decide +kernel, by decide +kernel, by decide +kernel, by decide +kernel, fun _ h => absurd h List.not_mem_nil⟩
    (by decide +kernel) (by decide +kernel) (by decide +kernel), by decide +kernel⟩

theorem witness_BindingIsPermanent :
    next (step ((withSt st0 (oks 0)).withFrame [0x07, 0x10])) (fun _ => true) = true := by decide +kernel

theorem witness_BlockWritesOnlyItsRegisters :
    (withSv sv0 (oks 4)).Inv ∧
      next (step ((withSv sv0 (oks 4)).withFrame [0x02, 0x20, 0, 0, 0, 0, 0, 0, 0xF8, 0x3F]))
        (fun t => (writes t).length = 4) = true :=
  ⟨inv_block (inv_st0 _) (inv_qd0 _ rfl) (by decide +kernel) (by decide +kernel), by decide +kernel⟩

theorem witness_TimeNeverGoesBack :
    (w0 [] [7] []).clock.toNat ≤ (0 : Word64).toNat ∧ (w0 [] [7] []).nowValue = 7 ∧
      next (step ((withQd qd0 (w0 [] [40] [false, false])).withFrame [0x00, 0x30])) (fun t => t.world.clock = 40) = true := by
  decide +kernel

theorem witness_CommandsTouchOneInstance :
    next (exec (.stOnestep 0) (withSt st0 (oks 24))) (fun _ => true) = true := by decide +kernel

theorem witness_RegistersOutsideTheChannelsKeep :
    (∀ r ∈ (withSt st0 (oks 24)).addrsOf ⟨.stepper, 0⟩, r.toNat ≠ 0x25) ∧
      next (exec (.stOnestep 0) (withSt st0 (oks 24))) (fun t => codes t = [0]) = true := by decide +kernel

theorem witness_RegistersOutsideTheChannelsKeep_after_an_all_stop :
    (∀ r ∈ allStopReach p0, r.toNat ≠ 0xF9) ∧
      next (exec (.stOnestep 0) (withSt st0 (w0 [.errorLost] [] []))) (fun t => codes t = [3]) = true := by decide +kernel

/-- The move that comes next in the schedule. -/
def withEvent (s : State) (e : Event) : State := { s with events := ⟨[e], 0⟩ }

/-- A register of the block's (the first of channel 8), one of another's (the last register of channel 5), and the device's own MODE1; the all-stop; and the ends of
FREQ_HZ. -/
theorem witness_RegistersOutsideTheChannelsKeep_of_others :
    (withSt st0 (oks 0)).halted = false ∧ (0x26 : RegAddr) ∈ (withSt st0 (oks 0)).blockAddrs ∧
      (0x1D : RegAddr) ∉ (withSt st0 (oks 0)).blockAddrs ∧ (0 : RegAddr) ∉ (withSt st0 (oks 0)).blockAddrs ∧
      (withEvent (withSt st0 (oks 0)) (.outsideWrite 0 0x21)).nextEvent = .outsideWrite 0 0x21 ∧
      (withEvent (withSt st0 (oks 0)) .outsideAllStop).nextEvent = .outsideAllStop ∧
      (withEvent (withSt st0 (oks 0)) (.setFreq 24)).nextEvent = .setFreq 24 ∧
      (withEvent (withSt st0 (oks 0)) (.setFreq 1527)).nextEvent = .setFreq 1527 :=
  ⟨rfl, by decide +kernel, by decide +kernel, by decide +kernel, rfl, rfl, rfl, rfl⟩

/-- The five refusing statuses, one command each. -/
theorem witness_RefusalsChangeNothing :
    next (exec (.svSetpw 0 0) (withSv sv0 (oks 0))) (fun t => codes t = [1]) = true ∧
      next (exec (.stSetspr 0 0) (withSt st0 (oks 0))) (fun t => codes t = [2]) = true ∧
      next (exec (.svGetpos 0) (withSv sv0 (oks 0))) (fun t => codes t = [5]) = true ∧
      next (exec (.qdGetderiv 0 0) (withQd { qd2 with count := 1 } (w0 [] [200] []))) (fun t => codes t = [6]) = true ∧
      next (exec (.stOnestep 1) (withSt st0 (oks 0))) (fun t => codes t = [7]) = true := by decide +kernel

theorem witness_UnboundInstanceIsIllegal :
    (withSt st0 (oks 0)).halted = false ∧ (withSt st0 (oks 0)).bound ⟨.stepper, 1⟩ = false ∧
      (withSt st0 (oks 0)).bound ⟨.servo, 15⟩ = false ∧ (withSt st0 (oks 0)).bound ⟨.qdec, 1⟩ = false ∧
      (withEvent (withSt st0 (oks 0)) (.turn ⟨.stepper, 1⟩)).nextEvent = .turn ⟨.stepper, 1⟩ ∧
      (withEvent (withSt st0 (oks 0)) (.poll 1)).nextEvent = .poll 1 :=
  ⟨rfl, rfl, rfl, rfl, rfl, rfl⟩

/-- An illegal frame naming each kind of bound instance, one naming an unbound one, and two naming none; an instance that is busy;
and one whose turn has come. -/
theorem witness_IllegalFrameChangesNothing :
    ([[0x09, 0x10], [0x05, 0x20], [0x04, 0x30], [0x09, 0x12], [0x00, 0x40], [0x05]].map fun b =>
        ((decode b).toBool, (frameTarget b).map (fun t => ((withSt st0 (oks 0)).bound t, (withSt st0 (oks 0)).freeAt t)))) =
      [(false, some (true, true)), (false, some (true, true)), (false, some (true, true)), (false, some (false, false)),
        (false, none), (false, none)] ∧
      stSleeping.free = false ∧ ({ sv0 with flight := some (.stopping .busError) } : Servo).free = false ∧
      ({ qd0 with ctl := { qd0.ctl with waiting := [.illegal] } } : Qdec).free = false ∧ st0.flight = none ∧
      sv0.flight = none ∧ ({ st0.ctl with waiting := [.illegal] } : Ctl).waiting = [.illegal] := by
  decide +kernel

theorem witness_BusyInstanceMakesACommandWait :
    (withSt stSleeping (oks 0)).halted = false ∧ (withSt stSleeping (oks 0)).bound ⟨.stepper, 0⟩ = true ∧
      (withSt stSleeping (oks 0)).freeAt ⟨.stepper, 0⟩ = false ∧
      (withSv { sv0 with flight := some (.stopping .busError) } (oks 0)).freeAt ⟨.servo, 0⟩ = false ∧
      (withQd { qd0 with ctl := { qd0.ctl with waiting := [.illegal] } } (oks 0)).freeAt ⟨.qdec, 0⟩ = false := by
  decide +kernel

theorem witness_TurnsReachWhatExecReaches :
    (withSt st0 (oks 24)).freeAt ⟨.stepper, 0⟩ = true ∧
      next (exec (.stOnestep 0) (withSt st0 (oks 24))) (fun t =>
        State.turns ⟨.stepper, 0⟩ 26 ((withSt st0 (oks 24)).sendJob ⟨.stepper, 0⟩ (.command (.stOnestep 0))) = some t) =
        true := by decide +kernel

/-- The all-stop of a failed command is one turn, and STATUS the next (20_memory.md R75): between them nobody is answered. -/
theorem test_allstop_before_status :
    (let r := Servo.turn p0 0 { sv0 with flight := some (.stopping .busError) } (oks 0)
      let q := Servo.turn p0 0 r.1 r.2
      ((r.1.ctl.status, r.1.free, r.2.log.length, r.2.answers.length), q.1.ctl.statusByte, q.1.free, q.2.log.length,
        q.2.answers.length)) = ((.ok, false, 4, 0), 3, true, 4, 1) := by decide +kernel

theorem witness_ShutdownHaltsForGood :
    (withSt stSleeping (oks 0)).halted = false ∧ (withEvent (withSt stSleeping (oks 0)) .shutdown).nextEvent = .shutdown :=
  ⟨rfl, rfl⟩

theorem witness_FailedWriteMayOrMayNotLand :
    (oks 1).busNext = .ok ∧ (w0 [.errorLanded] [] []).busNext = .errorLanded ∧ (w0 [.errorLost] [] []).busNext = .errorLost := by
  decide +kernel

/-- "SM1" is free. -/
theorem ready_stepper (x : Stepper) (w : World) (h : x.free = true) : StepperReady (withSt x w) 0 x := ⟨rfl, rfl, h⟩

/-- "S01" is free. -/
theorem ready_servo (x : Servo) (w : World) (h : x.free = true) : ServoReady (withSv x w) 0 x := ⟨rfl, rfl, h⟩

/-- Q0 is free. -/
theorem ready_qdec (x : Qdec) (w : World) (h : x.free = true) : QdecReady (withQd x w) 0 x := ⟨rfl, rfl, h⟩

theorem oks_ok (n : Nat) : (oks n).busOk n := by
  intro i hi
  simp [World.busAt, oks, w0, Tape.peek, hi]

/-- The premise of ST.SETMODE's, ST.SETSPR's and ST.GETSTEP's statements. -/
theorem witness_SetmodeResetsTheCounter : StepperReady (withSt st0 (oks 0)) 0 st0 := ready_stepper _ _ rfl

theorem witness_SetsprStoresANonzeroCount : StepperReady (withSt st0 (oks 0)) 0 st0 := ready_stepper _ _ rfl

theorem witness_GetstepReturnsTheCounter : StepperReady (withSt st0 (oks 0)) 0 st0 := ready_stepper _ _ rfl

/-- −0.0 is stored; NaN and the least negative operand are not. -/
theorem witness_SetintervalStoresANonnegativeDelay :
    StepperReady (withSt st0 (oks 0)) 0 st0 ∧ realOperand 0x8000000000000000 = some 0 ∧
      realOperand 0x7FF0000000000001 = none ∧ (realOperand 0x8000000000000001).any (· < 0) = true :=
  ⟨ready_stepper _ _ rfl, by decide +kernel, by decide +kernel, by decide +kernel⟩

theorem witness_OnestepMovesAndWrites : StepperReady (withSt st0 (oks 24)) 0 st0 ∧ (withSt st0 (oks 24)).world.busOk 24 :=
  ⟨ready_stepper _ _ rfl, oks_ok 24⟩

theorem witness_OnestepdirSetsTheDirection :
    StepperReady (withSt st0 (oks 24)) 0 st0 ∧ (withSt st0 (oks 24)).world.busOk 24 :=
  ⟨ready_stepper _ _ rfl, oks_ok 24⟩

theorem witness_StopZeroesAllSixChannels :
    StepperReady (withSt st0 (oks 24)) 0 st0 ∧ (withSt st0 (oks 24)).world.busOk 24 :=
  ⟨ready_stepper _ _ rfl, oks_ok 24⟩

/-- Both directions, away from the wrap and at it (V-ST-6). -/
theorem witness_CounterIsMonotonicAwayFromTheWrap :
    StepperReady (withSt st0 (oks 24)) 0 st0 ∧
      ([(Dir.forward, (2 : Int) ^ 63 - 2), (.forward, 2 ^ 63 - 1), (.reverse, -(2 ^ 63) + 1), (.reverse, -(2 ^ 63))].map fun e =>
          next (exec (.stOnestep 0) (withSt { st0 with dir := e.1, step := BitVec.ofInt 64 e.2 } (oks 24)))
            (fun t => (t.stepper 0).map (·.step.toInt) = some
              (if e.2 = 2 ^ 63 - 1 then -(2 ^ 63) else if e.2 = -(2 ^ 63) then 2 ^ 63 - 1
              else if e.1 = .forward then e.2 + 1 else e.2 - 1))) = [true, true, true, true] :=
  ⟨ready_stepper _ _ rfl, by decide +kernel⟩

theorem witness_StepRunsAllItsSteps :
    StepperReady (withSt st0 (oks 24)) 0 st0 ∧ (BitVec.ofInt 64 (-1) : Word64) ≠ 0 ∧ st0.interval = 0 ∧
      (withSt st0 (oks 24)).world.busOk (24 * (BitVec.ofInt 64 (-1)).toInt.natAbs) :=
  ⟨ready_stepper _ _ rfl, by decide, rfl, oks_ok 24⟩

/-- One paced step back, early, ends OK. -/
theorem witness_SuccessfulStepMovedByN :
    StepperReady (withSt { st0 with interval := 10 } (w0 (List.replicate 24 .ok) [1000, 2000] [])) 0 { st0 with interval := 10 } ∧
      next (exec (.stStep 0 (BitVec.ofInt 64 (-1))) (withSt { st0 with interval := 10 } (w0 (List.replicate 24 .ok) [1000, 2000] [])))
        (fun t => t.world.answers = [⟨some ⟨.stepper, 0⟩, .ok, none⟩] && (t.stepper 0).isSome) = true :=
  ⟨ready_stepper _ _ rfl, by decide +kernel⟩

theorem witness_PacedRunLastsAtLeastNTimesT :
    StepperReady (withSt { st0 with interval := 10 } (w0 (List.replicate 24 .ok) [1000, 2000] [])) 0 { st0 with interval := 10 } ∧
      p0.numeric = .exact ∧ (0 : Rat) ≤ 10 ∧
      next (exec (.stStep 0 1) (withSt { st0 with interval := 10 } (w0 (List.replicate 24 .ok) [1000, 2000] [])))
        (fun t => t.world.answers = [⟨some ⟨.stepper, 0⟩, .ok, none⟩]) = true :=
  ⟨ready_stepper _ _ rfl, rfl, by decide +kernel, by decide +kernel⟩

/-- Late by one under KILL, on time exactly, late by one without KILL, and early by one (V-ST-9): T is 10000000. -/
theorem witness_DeadlineDecidesAPacedStep :
    StepperReady (withSt { st0 with interval := 10, kill := true } (w0 (List.replicate 24 .ok) [1000, 10001001] [])) 0
        { st0 with interval := 10, kill := true } ∧
      (w0 (List.replicate 24 .ok) [1000, 10001001] []).busOk 24 ∧ ((10 : Rat) * 10 ^ 6 = 10000000) ∧
      ([10001001, 10001000, 10000999].map fun t1 =>
          ((w0 (List.replicate 24 .ok) [1000, t1] []).afterNow.nowValue.toNat : Int) -
            (w0 (List.replicate 24 .ok) [1000, t1] []).nowValue.toNat) = [10000001, 10000000, 9999999] := by
  refine ⟨ready_stepper _ _ rfl, ?_, by decide +kernel, by decide +kernel⟩
  unfold World.busOk
  decide +kernel

/-- The first and the last of 24 writes; the first write of the second of two steps; runs of 0 and of 3 steps by ST.ROTATE; and a
paced run whose second step fails. -/
theorem witness_BusErrorEndsAStepperCommand :
    StepperReady (withSt st0 (w0 [.errorLost] [] [])) 0 st0 ∧ (w0 [.errorLost] [] []).busOk 0 ∧
      (w0 [.errorLost] [] []).busAt 0 ≠ .ok ∧ (w0 (List.replicate 23 .ok ++ [.errorLanded]) [] []).busOk 23 ∧
      (w0 (List.replicate 23 .ok ++ [.errorLanded]) [] []).busAt 23 ≠ .ok ∧
      (w0 (List.replicate 24 .ok ++ [.errorLanded]) [] []).busOk 24 ∧
      (w0 (List.replicate 24 .ok ++ [.errorLanded]) [] []).busAt 24 ≠ .ok ∧
      RunsBy (withSt st0 (oks 0)) 0 st0 (.stStep 0 (-2)) (-2) ∧
      RunsBy (withSt st0 (oks 0)) 0 { st0 with spr := some 2 } (.stRotate 0 0x3FC0000000000000) 0 ∧
      RunsBy (withSt st0 (oks 0)) 0 { st0 with spr := some 2 } (.stRotate 0 0x3FF4000000000000) 3 ∧
      next (exec (.stStep 0 2) (withSt { st0 with interval := 10 } (w0 (List.replicate 24 .ok ++ [.errorLost]) [1000, 2000, 10001000] [])))
        (fun t => t.world.answers = [⟨some ⟨.stepper, 0⟩, .busError, none⟩]) = true := by
  refine ⟨ready_stepper _ _ rfl, fun i hi => absurd hi (Nat.not_lt_zero i), by decide +kernel, ?_, by decide +kernel, ?_,
    by decide +kernel, .inl rfl, .inr ⟨0x3FC0000000000000, 1 / 8, 2, rfl, rfl, rfl, ?_⟩,
    .inr ⟨0x3FF4000000000000, 5 / 4, 2, rfl, rfl, rfl, ?_⟩, by decide +kernel⟩ <;>
    (try unfold World.busOk) <;> decide +kernel

/-- Counts 3 and 0, the least count that fits, and the greatest one an operand of SPR 1 gives. -/
theorem witness_RotateRunsTheRoundedCount :
    StepperReady (withSt { st0 with spr := some 2 } (oks 72)) 0 { st0 with spr := some 2 } ∧
      (oks 72).busOk (24 * 3) ∧ (oks 24).busOk 24 ∧
      ([(0x3FF4000000000000, 2), (0x3FC0000000000000, 2), (0xC3E0000000000000, 1), (0x43DFFFFFFFFFFFFF, 1)].map
          fun e : Word64 × Nat => (realOperand e.1).map (fun q : Rat => (q * e.2 + 1 / 2).floor)) =
        [some 3, some 0, some (-(2 ^ 63)), some (2 ^ 63 - 1024)] :=
  ⟨ready_stepper _ _ rfl, oks_ok 72, oks_ok 24, by decide +kernel⟩

/-- No SPR; NaN; 2^63 with SPR 1, and the first operand below −2^63. -/
theorem witness_RotateRefusesInOrder :
    StepperReady (withSt st0 (oks 0)) 0 st0 ∧ st0.spr = none ∧
      StepperReady (withSt { st0 with spr := some 1 } (oks 0)) 0 { st0 with spr := some 1 } ∧
      realOperand 0x7FF8000000000000 = none ∧
      ([0x43E0000000000000, 0xC3E0000000000001].map fun e : Word64 => (realOperand e).map (fun q : Rat => (q * 1 + 1 / 2).floor)) =
        [some (2 ^ 63), some (-(2 ^ 63) - 2048)] :=
  ⟨ready_stepper _ _ rfl, rfl, ready_stepper _ _ rfl, by decide +kernel, by decide +kernel⟩

/-- There and back: 1 turn of 2 steps returns, 1.25 turns end one step higher. -/
theorem witness_RotateThereAndBack :
    StepperReady (withSt { st0 with spr := some 2 } (oks 120)) 0 { st0 with spr := some 2 } ∧
      ([0x3FF0000000000000, 0x3FF4000000000000].map fun r : Word64 =>
          next (exec (.stRotate 0 r) (withSt { st0 with spr := some 2 } (oks 120))) (fun t =>
            codes t = [0] && next (exec (.stRotate 0 (r ^^^ 0x8000000000000000)) t) (fun u =>
              codes u = [0, 0] && (u.stepper 0).map (·.step) = some (if r = 0x3FF0000000000000 then 0 else 1)))) =
        [true, true] :=
  ⟨ready_stepper _ _ rfl, by decide +kernel⟩

/-- The premise of SV.GETPOS's statement, with a position and without one. -/
theorem witness_GetposReturnsThePosition :
    ServoReady (withSv sv0 (oks 0)) 0 sv0 ∧ sv0.pos = none ∧
      ServoReady (withSv { sv0 with pos := some 25 } (oks 0)) 0 { sv0 with pos := some 25 } :=
  ⟨ready_servo _ _ rfl, rfl, ready_servo _ _ rfl⟩

/-- An ordered triple, and one that is not finite. -/
theorem witness_SetlimitsDemandsOrder :
    ServoReady (withSv sv0 (oks 0)) 0 sv0 ∧ realOperand 0x3FF0000000000000 = some 1 ∧
      realOperand 0x3FF8000000000000 = some (3 / 2) ∧ realOperand 0x4000000000000000 = some 2 ∧
      realOperand 0x7FF0000000000000 = none :=
  ⟨ready_servo _ _ rfl, by decide +kernel, by decide +kernel, by decide +kernel, by decide +kernel⟩

/-- An ordered pair; equal bounds are the edge of the other clause. -/
theorem witness_SetrangeDemandsOrder :
    ServoReady (withSv sv0 (oks 0)) 0 sv0 ∧ realOperand 0xBFF0000000000000 = some (-1) ∧ realOperand 0 = some 0 :=
  ⟨ready_servo _ _ rfl, by decide +kernel, by decide +kernel⟩

/-- MINPW, MAXPW and the period are all accepted: at 500 Hz the width 2 ms is MAXPW and the period. -/
theorem witness_SetpwWritesTheDuty :
    ServoReady (withSv sv0 (oks 4)) 0 sv0 ∧ freqLegal 500 = true ∧ realOperand 0x3FF0000000000000 = some sv0.limits.min ∧
      realOperand 0x4000000000000000 = some sv0.limits.max ∧ sv0.limits.max ≤ 1000 / 500 ∧ 0 < sv0.limits.min ∧
      (oks 4).busOk 4 :=
  ⟨ready_servo _ _ rfl, by decide +kernel, by decide +kernel, by decide +kernel, by decide +kernel, by decide +kernel,
    oks_ok 4⟩

/-- Not finite; below the least limit; above the greatest; within the limits and above the period of 1526 Hz. -/
theorem witness_SetpwRefusesOutOfRange :
    ServoReady (withSv sv0 (oks 0)) 0 sv0 ∧ freqLegal 1526 = true ∧ realOperand 0x7FF8000000000000 = none ∧
      (realOperand 0x3FEFFFFFFFFFFFFF).any (· < sv0.limits.min) = true ∧
      (realOperand 0x4000000000000001).any (sv0.limits.max < ·) = true ∧
      (realOperand 0x3FF8000000000000).any ((1000 / 1526 : Rat) < ·) = true :=
  ⟨ready_servo _ _ rfl, by decide +kernel, by decide +kernel, by decide +kernel, by decide +kernel, by decide +kernel⟩

/-- The width that is the whole period. -/
theorem witness_DutyFitsTwelveBits :
    p0.numeric = .exact ∧ freqLegal 1000 = true ∧ (0 : Rat) < 1 ∧ (1 : Rat) ≤ 1000 / 1000 ∧ servoDuty p0 1000 1 = 4095 := by
  decide +kernel

/-- Both ends of the range, at a period that fits and at one that does not. -/
theorem witness_SetposMapsInverted :
    ServoReady (withSv { sv0 with maxX := 100 } (oks 4)) 0 { sv0 with maxX := 100 } ∧ limitsOrdered sv0.limits = true ∧
      (0 : Rat) < 100 ∧ realOperand 0 = some 0 ∧ realOperand 0x4059000000000000 = some 100 ∧ (oks 4).busOk 4 ∧
      sv0.limits.max ≤ 1000 / 50 ∧ (1000 : Rat) / 1526 < sv0.limits.min :=
  ⟨ready_servo _ _ rfl, by decide +kernel, by decide +kernel, by decide +kernel, by decide +kernel, oks_ok 4,
    by decide +kernel, by decide +kernel⟩

/-- 0, 100, and the first operand above 100. -/
theorem witness_SetposEndsAreSwapped :
    ServoReady (withSv { sv0 with maxX := 100 } (oks 4)) 0 { sv0 with maxX := 100 } ∧ limitsOrdered sv0.limits = true ∧
      realOperand 0 = some 0 ∧ realOperand 0x4059000000000000 = some 100 ∧
      (realOperand 0x4059000000000001).any ((100 : Rat) < ·) = true ∧ sv0.limits.max ≤ 1000 / 50 ∧ (oks 4).busOk 4 :=
  ⟨ready_servo _ _ rfl, by decide +kernel, by decide +kernel, by decide +kernel, by decide +kernel, by decide +kernel, oks_ok 4⟩

/-- The first and the last of the four writes fail; a width at MINPW of SV.SETPW, and position 25 of SV.SETPOS. -/
theorem witness_BusErrorKeepsThePosition :
    ServoReady (withSv { sv0 with maxX := 100 } (w0 [.errorLost] [] [])) 0 { sv0 with maxX := 100 } ∧
      (w0 [.errorLost] [] []).busOk 0 ∧ (w0 [.errorLost] [] []).busAt 0 ≠ .ok ∧
      (w0 [.ok, .ok, .ok, .errorLost] [] []).busOk 3 ∧ (w0 [.ok, .ok, .ok, .errorLost] [] []).busAt 3 ≠ .ok ∧
      realOperand 0x3FF0000000000000 = some sv0.limits.min ∧ realOperand 0x4039000000000000 = some 25 ∧
      servoWidth p0 { sv0 with maxX := 100 } 25 (oks 0) = 7 / 4 ∧
      ([1, 7 / 4].map fun q : Rat => (decide (sv0.limits.min ≤ q), decide (q ≤ sv0.limits.max),
        Num.lt (servoPeriod p0 50) (.fin q))) = [(true, true, false), (true, true, false)] := by
  refine ⟨ready_servo _ _ rfl, fun i hi => absurd hi (Nat.not_lt_zero i), by decide +kernel, ?_, by decide +kernel,
    by decide +kernel, by decide +kernel, by decide +kernel, by decide +kernel⟩
  unfold World.busOk
  decide +kernel

/-- −0, the least positive operand and the greatest finite one. -/
theorem witness_FiniteOperandsSurviveConversion :
    realOperand 0x8000000000000000 = some 0 ∧ realOperand 1 = some (1 / 2 ^ 1074) ∧
      realOperand 0x7FEFFFFFFFFFFFFF = some (2 ^ 1024 - 2 ^ 971) := by decide +kernel

/-- The four kinds of transition from GRAY 1: to 2, to 0, to 1 and to 3. -/
theorem witness_PollMovesTheCounter :
    QdecReady (withQd { qd0 with gray := 1 } (w0 [] [] [true, true])) 0 { qd0 with gray := 1 } ∧
      ([[true, true], [false, false], [true, false], [false, true]].map fun l =>
          next (exec (.qdPoll 0) (withQd { qd0 with gray := 1 } (w0 [] [40] l)))
            (fun t => (t.qdec 0).map (fun x => (x.gray, x.pos)) = some (match l with
              | [true, true] => (2, 1)
              | [false, false] => (0, -1)
              | _ => (1, 0)))) = [true, true, true, true] :=
  ⟨ready_qdec _ _ rfl, by decide +kernel⟩

/-- The decoder's own poll of 42_quadrature.md R234's example: it counts, publishes and answers nobody, while a command waits. -/
theorem witness_PollMovesTheCounter_by_itself :
    next (step (withEvent (withQd { qd0 with ctl := { qd0.ctl with waiting := [.illegal] } } (w0 [] [40] [true, false]))
      (.poll 0))) (fun t => codes t = [] && (t.qdec 0).map (fun x => (x.gray, x.pos, x.newest p0)) ==
        some (1, 1, ⟨40, 1 / 4⟩)) = true := by decide +kernel

/-- From GRAY 1 the pair (0, 1) is two states away. -/
theorem witness_FourPollsCountFour :
    qd0.gray = 0 ∧ (if false then (if true then (2 : BitVec 2) else 1) else (if true then 3 else 0)) = 1 + 2 := by decide

/-- Never pushed; the counter moved; just due; and one nanosecond early. -/
theorem witness_PollPushesWhenDue :
    p0.numeric = .exact ∧ 0 < p0.countsPerUnit ∧ qd0.lastT = none ∧
      ((qd2.poll p0 (w0 [] [201] [true, false])).1.lastPos, (qd2.poll p0 (w0 [] [1200] [false, false])).1.count,
        (qd2.poll p0 (w0 [] [1199] [false, false])).1.count) = (some 11, 3, 2) := by decide +kernel

/-- A full ring, its next place the last. -/
theorem witness_RingKeepsTheNewestSamples :
    qd0.ring.length = p0.ringSize ∧ ({ qd0 with head := 3, count := 4 } : Qdec).head < p0.ringSize ∧
      ({ qd0 with head := 3, count := 4 } : Qdec).count ≤ p0.ringSize := by decide +kernel

theorem witness_GetposReturnsThePublishedValue :
    QdecReady (withQd qd0 (oks 0)) 0 qd0 ∧ qd0.count = 0 ∧ QdecReady (withQd qd2 (oks 0)) 0 qd2 ∧ 0 < qd2.count ∧
      p0.numeric = .exact := ⟨ready_qdec _ _ rfl, rfl, ready_qdec _ _ rfl, by decide, rfl⟩

theorem witness_PublishedValueFollowsTheCounter :
    p0.numeric = .exact ∧ 0 < p0.countsPerUnit ∧ qd2.ring.length = p0.ringSize ∧ qd2.head < p0.ringSize ∧
      qd2.lastPos = some 10 ∧ (qd2.newest p0).v = (10 : Int) / p0.countsPerUnit := by decide +kernel

/-- The newest sample is itself older than the window; no sample is, so the oldest is taken; and the oldest is of this very
time. -/
theorem witness_GetderivMeasuresFromTheRightSample :
    QdecReady (withQd qd2 (w0 [] [1100] [])) 0 qd2 ∧ realOperand 0 = some 0 ∧ realOperand 0x3FF0000000000000 = some 1 ∧
      qd2.samples p0 = [⟨200, 5 / 2⟩, ⟨100, 1 / 2⟩] ∧ (200 : Rat) < 1100 - 0 * 10 ^ 9 ∧ (1100 : Rat) - 1 * 10 ^ 9 ≤ 200 ∧
      1 + 1 = qd2.count ∧
      (w0 [] [1100] []).nowValue = 1100 ∧
      ({ qd2 with count := 1 } : Qdec).samples p0 = [⟨200, 5 / 2⟩] ∧ (w0 [] [200] []).nowValue = 200 :=
  ⟨ready_qdec _ _ rfl, by decide +kernel, by decide +kernel, by decide +kernel, by decide +kernel, by decide +kernel,
    by decide +kernel, by decide +kernel, by decide +kernel, by decide +kernel⟩

/-- An infinite window, the least negative one, and a window of 0 on an empty ring. -/
theorem witness_GetderivRefusesInOrder :
    QdecReady (withQd qd0 (oks 0)) 0 qd0 ∧ realOperand 0x7FF0000000000000 = none ∧
      (realOperand 0x8000000000000001).any (· < 0) = true ∧ realOperand 0 = some 0 ∧ qd0.count = 0 :=
  ⟨ready_qdec _ _ rfl, by decide +kernel, by decide +kernel, by decide +kernel, rfl⟩

theorem witness_ResetZeroesThePublishedPosition :
    QdecReady (withQd qd2 (oks 0)) 0 qd2 ∧ p0.numeric = .exact ∧ 0 < qd2.count ∧ qd0.count = 0 :=
  ⟨ready_qdec _ _ rfl, rfl, by decide, rfl⟩

end Sys2Proof.Tests
end

section
/-! PROOFS. Launch and reset: the state they leave meets the invariant (00_scope.md R7, 70_reset_and_hazards.md R310). -/

namespace Sys2Proof.Machine

theorem Stepper.reset_inv (p : Params) (w : World) (c : Coils) : Stepper.Inv p w (Stepper.reset c) := by
  refine ⟨le_refl _, ?noSpr, ?idle, Nat.zero_le _, ?noWrites⟩
  case noSpr => exact Option.some_ne_none _ |>.symm
  case idle => simp [Stepper.reset, Stepper.inRun]
  case noWrites => exact fun _ h => absurd h List.not_mem_nil

theorem Servo.reset_inv {p : Params} {l : Limits} (hl : limitsOrdered l = true) (ch : Channel) :
    Servo.Inv p (Servo.reset l ch) :=
  ⟨hl, zero_lt_one, fun _ h => absurd h List.not_mem_nil⟩

theorem Qdec.reset_inv {p : Params} {w : World} (hring : 1 ≤ p.ringSize) (pins : Nat × Nat) :
    Qdec.Inv p w (Qdec.reset p.ringSize pins) := by
  have hhalf : (0 : Int) < 2 ^ (p.posBits - 1) := by positivity
  refine ⟨?low, hhalf, List.length_replicate, hring, Nat.zero_le _, ?lastT, ?lastPos, Nat.zero_le _, ?samples⟩
  case low => exact neg_nonpos.mpr hhalf.le
  case lastT | lastPos => simp [Qdec.reset]
  case samples =>
    intro e he
    rw [List.eq_of_mem_replicate he]
    exact Nat.zero_le _

/-- The ranges of 00_scope.md R7 that the invariant of a servo and of a decoder rest on. -/
theorem paramsLegal_ranges {p : Params} (h : paramsLegal p = true) :
    limitsOrdered p.servoLimits = true ∧ 1 ≤ p.ringSize := by
  simp only [paramsLegal, Bool.and_eq_true, decide_eq_true_eq] at h
  tauto

theorem State.launch_inv {p : Params} {freq : Rat} (hp : paramsLegal p = true) (hf : freqLegal freq = true)
    (b : Bindings) : (State.launch p freq b).Inv := by
  obtain ⟨hlimits, hring⟩ := paramsLegal_ranges hp
  refine ⟨hp, hf, Memory.initial_wf, rfl, rfl, ?steppers, ?servos, ?decoders⟩
  case steppers =>
    intro o ho x hx
    obtain ⟨c, rfl⟩ : ∃ c, x = Stepper.reset c := by
      simp only [State.launch, List.mem_cons, List.not_mem_nil, or_false] at ho
      rcases ho with rfl | rfl <;> exact ⟨_, (Option.mem_some.mp (Option.mem_ite_none_right.mp hx).2).symm⟩
    exact Stepper.reset_inv _ _ c
  case servos =>
    intro o ho x hx
    obtain ⟨j, -, rfl⟩ := List.mem_map.mp ho
    obtain ⟨-, hx⟩ := Option.mem_ite_none_right.mp hx
    obtain rfl := Option.mem_some.mp hx
    exact Servo.reset_inv hlimits _
  case decoders =>
    intro x hx
    obtain ⟨pins, -, rfl⟩ := List.mem_map.mp hx
    exact Qdec.reset_inv hring pins

/-- A launch happens exactly where its parameters and frequency are legal. -/
theorem State.launchChecked_eq_some {p : Params} {freq : Rat} {cs : List Claim} {s : State} :
    State.launchChecked p freq cs = some s ↔
      (paramsLegal p = true ∧ freqLegal freq = true) ∧ State.launch p freq (claimAll cs Bindings.none).2 = s := by
  simp [State.launchChecked]

/-- A value that gives way to a legal one where it is not legal itself is legal. -/
theorem ite_else_legal {α : Type} (legal : α → Bool) (a : α) {d : α} (hd : legal d = true) :
    legal (if legal a then a else d) = true := by
  split
  · assumption
  · exact hd

/-- The parameters behind State.reset are legal, whatever the OPEN ones are. -/
theorem launchParams_legal : paramsLegal launchParams = true := by
  have hcurve : curveRises launchParams.curve = true := ite_else_legal curveRises _ (by decide)
  have hlimits : limitsOrdered launchParams.servoLimits = true := ite_else_legal limitsOrdered _ (by decide +kernel)
  have hdev : (0x40 ≤ launchParams.devAddr && launchParams.devAddr ≤ 0x77) = true :=
    ite_else_legal (fun a : BitVec 7 => 0x40 ≤ a && a ≤ 0x77) _ (by decide)
  have hcounts : 0 < launchParams.countsPerUnit := by
    simpa [launchParams] using ite_else_legal (fun c : Rat => 0 < c) Config.countsPerUnit (d := 1) (by decide +kernel)
  have hring : 1 ≤ launchParams.ringSize := by
    simpa [launchParams] using ite_else_legal (fun n : Nat => 1 ≤ n) Config.ringSize (d := 1) (by decide)
  have hchans : launchParams.servoChans.length = 16 := rfl
  have hbits : 1 ≤ launchParams.posBits := by decide
  have hpins : launchParams.qdecPins.length ≤ 16 := by decide
  simp only [Bool.and_eq_true, decide_eq_true_eq] at hdev
  simp only [paramsLegal, hcurve, hlimits, hdev, hcounts, hring, hchans, hbits, hpins, decide_true, Bool.and_true]

theorem launchFreq_legal : freqLegal launchFreq = true := ite_else_legal freqLegal _ (by decide +kernel)

/-- Settles O7: State.reset is a launch with legal parameters and frequency. -/
theorem resetMeetsTheInvariant : Obligations.ResetMeetsTheInvariant :=
  State.launch_inv launchParams_legal launchFreq_legal launchBindings

/-- Settles O8: a launch that happens leaves every bound instance in its reset state, which meets the invariant. -/
theorem launchMeetsTheInvariant : Obligations.LaunchMeetsTheInvariant := by
  intro p freq cs s h
  obtain ⟨⟨hp, hf⟩, rfl⟩ := State.launchChecked_eq_some.mp h
  exact State.launch_inv hp hf _

end Sys2Proof.Machine
end

section
/-! PROOFS. binary64 (00_scope.md R13): the value of a finite operand converts back to the operand, but for the sign of zero. -/

namespace Sys2Proof.Machine

/-! The fields of a word. -/

/-- The sign as bit 63 of the word's number. -/
def Binary64.signBit (neg : Bool) : Nat := if neg then 2 ^ 63 else 0

/-- The integer significand of a finite operand: the fraction, with the hidden bit where the exponent field is not 0. -/
def Binary64.significand (b : Word64) : Nat :=
  if Binary64.expo b = 0 then Binary64.frac b else 2 ^ 52 + Binary64.frac b

/-- The exponent of a finite operand's leading place: -1022 for a subnormal operand and for a zero. -/
def Binary64.leadExponent (b : Word64) : Int := max (Binary64.expo b : Int) 1 - 1023

theorem Binary64.frac_lt (b : Word64) : Binary64.frac b < 2 ^ 52 := Nat.mod_lt _ (by decide)

theorem Binary64.expo_lt (b : Word64) : Binary64.expo b < 2048 := Nat.mod_lt _ (by decide)

/-- A word is its three fields. -/
theorem Binary64.toNat_eq_fields (b : Word64) :
    b.toNat = Binary64.signBit (Binary64.neg b) + (Binary64.expo b * 2 ^ 52 + Binary64.frac b) := by
  have hb := b.isLt
  rw [Binary64.signBit, Binary64.neg, BitVec.msb_eq_decide, Binary64.expo, Binary64.frac]
  simp only [decide_eq_true_eq]
  split <;> omega

theorem Binary64.significand_lt (b : Word64) : Binary64.significand b < 2 ^ 53 := by
  have hf := Binary64.frac_lt b
  rw [Binary64.significand]
  split <;> omega

theorem Binary64.leadExponent_ge (b : Word64) : -1022 ≤ Binary64.leadExponent b := by
  rw [Binary64.leadExponent]
  omega

/-- Above the least exponent the hidden bit is set. -/
theorem Binary64.leadExponent_eq_or_normal (b : Word64) :
    Binary64.leadExponent b = -1022 ∨ 2 ^ 52 ≤ Binary64.significand b := by
  rw [Binary64.leadExponent, Binary64.significand]
  split <;> omega

/-- Exponent and fraction fields, as one number, from the leading place and the significand. -/
theorem Binary64.fields_eq (b : Word64) :
    (Binary64.leadExponent b + 1022).toNat * 2 ^ 52 + Binary64.significand b =
      Binary64.expo b * 2 ^ 52 + Binary64.frac b := by
  rw [Binary64.leadExponent, Binary64.significand]
  split <;> omega

/-! The value. -/

/-- `scaled` is what its name says: `±m · 2^e`. -/
theorem Binary64.scaled_eq (neg : Bool) (m : Nat) (e : Int) :
    Binary64.scaled neg m e = (if neg then -1 else 1) * ((m : Rat) * 2 ^ e) := by
  have hsign : ((if neg then -(m : Int) else m : Int) : Rat) = (if neg then -1 else 1) * (m : Rat) := by
    cases neg <;> simp
  rw [Binary64.scaled, ← mul_assoc, ← hsign]
  split
  · rename_i he
    obtain ⟨n, rfl⟩ := Int.eq_ofNat_of_zero_le he
    simp [Rat.mkRat_eq_div]
  · rename_i he
    obtain ⟨n, rfl⟩ := Int.exists_eq_neg_ofNat (le_of_not_ge he)
    simp [Rat.mkRat_eq_div, div_eq_mul_inv]

/-- The operands that are read as rationals are the finite ones, each with its exact value. -/
theorem realOperand_eq_some {b : Word64} {q : Rat} :
    realOperand b = some q ↔ Binary64.expo b ≠ 2047 ∧
      q = (if Binary64.neg b then -1 else 1) *
        ((Binary64.significand b : Rat) * 2 ^ (Binary64.leadExponent b - 52)) := by
  rw [← Binary64.scaled_eq, Binary64.significand, Binary64.leadExponent, realOperand, Binary64.value]
  by_cases hinf : Binary64.expo b = 2047
  · split_ifs <;> simp [hinf]
  · by_cases hsub : Binary64.expo b = 0
    · simp [hsub, eq_comm]
    · have hexp : max (Binary64.expo b : Int) 1 - 1023 - 52 = Binary64.expo b - 1075 := by omega
      simp [hinf, hsub, hexp, eq_comm]

/-! Rounding. -/

theorem Binary64.divNearestEven_exact {b : Nat} (hb : 0 < b) (m : Nat) : Binary64.divNearestEven (m * b) b = m := by
  simp [Binary64.divNearestEven, Nat.mul_mod_left, Nat.mul_div_cancel _ hb, hb]

/-- A power of 2 with an integer exponent as a fraction of natural powers. -/
theorem two_zpow_eq_div (e : Int) : (2 : Rat) ^ e = 2 ^ e.toNat / 2 ^ (-e).toNat := by
  rw [← zpow_natCast, ← zpow_natCast, ← zpow_sub₀ two_ne_zero]
  congr 1
  omega

theorem two_zpow_le_iff {q : Rat} (hq : 0 < q) (e : Int) : (2 : Rat) ^ e ≤ q ↔ e ≤ Int.log 2 q :=
  Int.zpow_le_iff_le_log one_lt_two hq

theorem lt_two_zpow_iff {q : Rat} (hq : 0 < q) (e : Int) : q < (2 : Rat) ^ e ↔ Int.log 2 q < e :=
  Int.lt_zpow_iff_log_lt one_lt_two hq

theorem two_zpow_le_div_iff {n d : Nat} (hd : 0 < d) (e : Int) :
    (2 : Rat) ^ e ≤ n / d ↔ d * 2 ^ e.toNat ≤ n * 2 ^ (-e).toNat := by
  rw [two_zpow_eq_div, div_le_div_iff₀ (by positivity) (by exact_mod_cast hd), mul_comm]
  exact_mod_cast Iff.rfl

/-- `exponent` is the floor of the binary logarithm. -/
theorem Binary64.exponent_eq_log {n d : Nat} (hn : 0 < n) (hd : 0 < d) :
    Binary64.exponent n d = Int.log 2 ((n : Rat) / d) := by
  have hn' : (0 : Rat) < n := by exact_mod_cast hn
  have hd' : (0 : Rat) < d := by exact_mod_cast hd
  have hq : (0 : Rat) < n / d := div_pos hn' hd'
  have hnlow : (2 : Rat) ^ (n.log2 : Int) ≤ n := by exact_mod_cast Nat.log2_self_le hn.ne'
  have hnhigh : (n : Rat) < 2 ^ (n.log2 + 1 : Int) := by exact_mod_cast Nat.lt_log2_self
  have hdlow : (2 : Rat) ^ (d.log2 : Int) ≤ d := by exact_mod_cast Nat.log2_self_le hd.ne'
  have hdhigh : (d : Rat) < 2 ^ (d.log2 + 1 : Int) := by exact_mod_cast Nat.lt_log2_self
  have hlow : (2 : Rat) ^ (n.log2 - d.log2 - 1 : Int) ≤ n / d := by
    rw [sub_sub, zpow_sub₀ two_ne_zero]
    gcongr
  have hhigh : (n : Rat) / d < 2 ^ (n.log2 - d.log2 + 1 : Int) := by
    rw [sub_add_eq_add_sub, zpow_sub₀ two_ne_zero]
    gcongr
  rw [two_zpow_le_iff hq] at hlow
  rw [lt_two_zpow_iff hq] at hhigh
  simp only [Binary64.exponent, ← two_zpow_le_div_iff hd, two_zpow_le_iff hq]
  split <;> omega

/-- A value `M · 2^(E - 52)` in range, its significand normal unless its exponent is the least, is not rounded. -/
theorem Binary64.magnitude_exact {n d M : Nat} {E : Int} (hd : 0 < d) (hM : 0 < M) (hlt : M < 2 ^ 53) (hE : -1022 ≤ E)
    (hnormal : E = -1022 ∨ 2 ^ 52 ≤ M) (hmax : E ≤ 1023) (h : (n : Rat) / d = M * 2 ^ (E - 52)) :
    Binary64.magnitude n d = (E + 1022).toNat * 2 ^ 52 + M := by
  have hd' : (d : Rat) ≠ 0 := by exact_mod_cast hd.ne'
  have hpos : (0 : Rat) < M * 2 ^ (E - 52) := by positivity
  have hn : 0 < n := by
    rcases Nat.eq_zero_or_pos n with rfl | hn
    · simp [← h] at hpos
    · exact hn
  have hlead : max (Binary64.exponent n d) (-1022) = E := by
    have hhigh : Int.log 2 ((n : Rat) / d) < E + 1 := by
      have hM' : (M : Rat) < 2 ^ (53 : Int) := by exact_mod_cast hlt
      have hsplit : E + 1 = 53 + (E - 52) := by ring
      rw [← lt_two_zpow_iff (h ▸ hpos), h, hsplit, zpow_add₀ two_ne_zero]
      gcongr
    have hlow : E = -1022 ∨ E ≤ Int.log 2 ((n : Rat) / d) := by
      refine hnormal.imp_right fun hbig => ?_
      have hM' : (2 : Rat) ^ (52 : Int) ≤ M := by exact_mod_cast hbig
      have hsplit : E = 52 + (E - 52) := by ring
      rw [← two_zpow_le_iff (h ▸ hpos), h]
      nth_rw 1 [hsplit]
      rw [zpow_add₀ two_ne_zero]
      gcongr
    rw [Binary64.exponent_eq_log hn hd]
    omega
  have hcross : n * 2 ^ (52 - E).toNat = M * (d * 2 ^ (E - 52).toNat) := by
    rw [two_zpow_eq_div, neg_sub] at h
    field_simp at h
    rw [mul_left_comm, ← mul_assoc]
    exact_mod_cast h
  rw [Binary64.magnitude]
  simp only [hlead, hcross, Binary64.divNearestEven_exact (Nat.mul_pos hd (Nat.two_pow_pos _))]
  omega

theorem Binary64.ofRat_of_ne_zero {q : Rat} (hq : q ≠ 0) :
    Binary64.ofRat q =
      BitVec.ofNat 64 (Binary64.signBit (decide (q < 0)) + Binary64.magnitude q.num.natAbs q.den) := by
  simp [Binary64.ofRat, Binary64.signBit, Rat.num_ne_zero.mpr hq]

/-- The operands of value 0 are +0 and -0. -/
theorem Binary64.eq_zero_of_significand {b : Word64} (h : Binary64.significand b = 0) :
    b = 0 ∨ b = 0x8000000000000000 := by
  have hb := Binary64.toNat_eq_fields b
  have hfields : Binary64.expo b = 0 ∧ Binary64.frac b = 0 := by
    unfold Binary64.significand at h
    split at h <;> omega
  rw [hfields.1, hfields.2] at hb
  cases hneg : Binary64.neg b <;> rw [hneg] at hb
  · exact .inl (BitVec.eq_of_toNat_eq hb)
  · exact .inr (BitVec.eq_of_toNat_eq hb)

/-- A finite operand other than a zero is its significand at a power of 2, which rounding to nearest leaves as it is. -/
theorem Binary64.ofRat_realOperand {b : Word64} {q : Rat} (h : realOperand b = some q)
    (hM : 0 < Binary64.significand b) : Binary64.ofRat q = b := by
  obtain ⟨hfin, hq⟩ := realOperand_eq_some.mp h
  generalize hv : (Binary64.significand b : Rat) * 2 ^ (Binary64.leadExponent b - 52) = v at hq
  have hpos : 0 < v := hv ▸ by positivity
  obtain ⟨hq0, hsign⟩ : q ≠ 0 ∧ decide (q < 0) = Binary64.neg b := by
    cases hneg : Binary64.neg b <;> simp [hq, hneg, hpos.le, hpos, hpos.ne']
  have habs : |q| = v := by
    rw [hq, abs_mul, abs_of_pos hpos]
    cases Binary64.neg b <;> simp
  have hmax : Binary64.leadExponent b ≤ 1023 := by
    have := Binary64.expo_lt b
    rw [Binary64.leadExponent]
    omega
  have hmagnitude : Binary64.magnitude q.num.natAbs q.den = Binary64.expo b * 2 ^ 52 + Binary64.frac b := by
    rw [← Binary64.fields_eq]
    exact Binary64.magnitude_exact q.den_pos hM (Binary64.significand_lt b) (Binary64.leadExponent_ge b)
      (Binary64.leadExponent_eq_or_normal b) hmax
      (by rw [hv, ← habs, Rat.abs_def, Rat.divInt_eq_div, Int.cast_natCast, Int.cast_natCast])
  rw [Binary64.ofRat_of_ne_zero hq0, hsign, hmagnitude, ← Binary64.toNat_eq_fields, BitVec.ofNat_toNat,
    BitVec.setWidth_eq]

/-- Settles O51: a zero operand converts to +0, and every other finite operand to itself. -/
theorem finiteOperandsSurviveConversion : Obligations.FiniteOperandsSurviveConversion := by
  intro b q h
  rcases Nat.eq_zero_or_pos (Binary64.significand b) with hzero | hM
  · obtain rfl : q = 0 := by simp [(realOperand_eq_some.mp h).2, hzero]
    rcases Binary64.eq_zero_of_significand hzero with rfl | rfl <;> rfl
  · have hb : b ≠ 0x8000000000000000 := by
      rintro rfl
      exact absurd hM (by decide)
    rw [if_neg hb, Binary64.ofRat_realOperand h hM]

end Sys2Proof.Machine
end

section
/-! PROOFS. The invariant of the block, the shared part: what every operation on the world keeps (20_memory.md R61;
60_exceptions.md R290). -/

namespace Sys2Proof.Machine

/-- `w'` keeps of `w` what the invariant asks of a world: its time source has not turned back, its frequency stays legal, and
its register file stays canonical. -/
structure World.Keeps (w w' : World) : Prop where
  clock : w.clock.toNat ≤ w'.clock.toNat
  freq : freqLegal w.freqHz = true → freqLegal w'.freqHz = true
  regs : Memory.wf w.regs = true → Memory.wf w'.regs = true

theorem World.Keeps.refl (w : World) : w.Keeps w := ⟨le_refl _, id, id⟩

theorem World.Keeps.trans {w w' w'' : World} (h : w.Keeps w') (h' : w'.Keeps w'') : w.Keeps w'' :=
  ⟨h.clock.trans h'.clock, h'.freq ∘ h.freq, h'.regs ∘ h.regs⟩

theorem World.regWrite_keeps (p : Params) (r : RegW) (w : World) : w.Keeps (w.regWrite p r) :=
  ⟨le_refl _, id, World.regWrite_wf p r⟩

theorem World.allStop_keeps (p : Params) (w : World) : w.Keeps (w.allStop p) := ⟨le_refl _, id, World.allStop_wf p⟩

theorem World.answer_keeps (who : Option Target) (c : Ctl) (w : World) : w.Keeps (w.answer who c) := ⟨le_refl _, id, id⟩

theorem World.answerNobody_keeps (w : World) : w.Keeps w.answerNobody := ⟨le_refl _, id, id⟩

theorem World.afterNow_keeps (w : World) : w.Keeps w.afterNow := ⟨w.nowValue_ge, id, id⟩

theorem World.wake_keeps {n : Nat} (h : canWake n = true) (w : World) : w.Keeps (w.wake n) := ⟨w.wake_ge n h, id, id⟩

theorem World.afterLine_keeps (w : World) : w.Keeps w.afterLine := ⟨le_refl _, id, id⟩

theorem World.afterWidth_keeps (p : Params) (v : Servo) (q : Rat) (w : World) : w.Keeps (w.afterWidth p v q) :=
  ⟨le_refl _, id, id⟩

theorem World.afterSample_keeps (p : Params) (n : Int) (w : World) : w.Keeps (w.afterSample p n) := ⟨le_refl _, id, id⟩

theorem issueWrites_keeps (p : Params) (ws : List RegW) (w : World) : w.Keeps (issueWrites p ws w).2 := by
  obtain ⟨-, hclock, hfreq, -⟩ := issueWrites_frame p ws w
  exact ⟨hclock ▸ le_refl _, fun h => hfreq ▸ h, issueWrites_wf p ws⟩

/-- The four writes of a channel go to its four registers (20_memory.md R63, R65). -/
theorem channelWrites_addrs (p : Params) (ch : Channel) (on off : Timing) :
    (channelWrites p ch on off).map Prod.fst = channelAddrs p ch := rfl

/-- Membership of the addresses of a run of writes, read off the list of its addresses. -/
theorem addrs_of_map_fst {ws : List RegW} {as : List RegAddr} (h : ws.map Prod.fst = as) : ∀ r ∈ ws, r.1 ∈ as :=
  fun _ hr => h ▸ List.mem_map_of_mem hr

end Sys2Proof.Machine
end

section
/-! PROOFS. The invariant of a stepper (10_state.md R26, R28, R30): every action keeps it. -/

namespace Sys2Proof.Machine

/-- What ST.SETINTERVAL and ST.SETSPR keep (10_state.md R26, R28). -/
def Stepper.Tuned (x : Stepper) : Prop := 0 ≤ x.interval ∧ x.spr ≠ some 0

/-- Going from `x` and `w` to `r` keeps what the invariant asks of the world, and the invariant of the stepper. -/
def Stepper.Safe (p : Params) (x : Stepper) (w : World) (r : Stepper × World) : Prop :=
  w.Keeps r.2 ∧ (Stepper.Inv p w x → Stepper.Inv p r.2 r.1)

variable {p : Params} {k : Nat} {x y : Stepper} {w w' : World} {r r' : Stepper × World}

theorem Stepper.Safe.refl (p : Params) (x : Stepper) (w : World) : Stepper.Safe p x w (x, w) := ⟨.refl w, id⟩

theorem Stepper.Safe.trans (h : Stepper.Safe p x w r) (h' : Stepper.Safe p r.1 r.2 r') : Stepper.Safe p x w r' :=
  ⟨h.1.trans h'.1, h'.2 ∘ h.2⟩

theorem Stepper.Inv.tuned (h : Stepper.Inv p w x) : x.Tuned := ⟨h.1, h.2.1⟩

theorem Stepper.Inv.run_iff (h : Stepper.Inv p w x) : x.inRun = true ↔ x.run ≠ .idle := h.2.2.1

theorem Stepper.Inv.started (h : Stepper.Inv p w x) : (x.startTime.getD 0).toNat ≤ w.clock.toNat := h.2.2.2.1

theorem Stepper.Inv.todo_addrs (h : Stepper.Inv p w x) : ∀ r ∈ x.todo, r.1 ∈ x.addrs p := h.2.2.2.2

theorem Stepper.Inv.run_idle (h : Stepper.Inv p w x) (hout : x.inRun = false) : x.run = .idle := by
  by_contra hrun
  simp [h.run_iff.mpr hrun] at hout

/-- Only the start time ties a stepper to the world, and time does not turn back. -/
theorem Stepper.Inv.mono (h : Stepper.Inv p w x) (hw : w.clock.toNat ≤ w'.clock.toNat) : Stepper.Inv p w' x :=
  ⟨h.tuned.1, h.tuned.2, h.run_iff, h.started.trans hw, h.todo_addrs⟩

/-- Where no write is to come, none is to come outside the channels. -/
theorem Stepper.no_todo (h : x.todo = []) : ∀ r ∈ x.todo, r.1 ∈ x.addrs p := by simp [h]

/-- The invariant between runs. -/
theorem Stepper.inv_of_idle (ht : x.Tuned) (hrun : x.run = .idle) (hout : x.inRun = false)
    (htodo : ∀ r ∈ x.todo, r.1 ∈ x.addrs p) : Stepper.Inv p w x :=
  ⟨ht.1, ht.2, by simp [hrun, hout], by simp [Stepper.startTime, hrun], htodo⟩

/-- The invariant within a run. -/
theorem Stepper.inv_of_running {n : Nat} {t : Option Word64} (ht : x.Tuned) (hrun : x.run = .running n t)
    (hin : x.inRun = true) (hstart : (t.getD 0).toNat ≤ w.clock.toNat) (htodo : ∀ r ∈ x.todo, r.1 ∈ x.addrs p) :
    Stepper.Inv p w x :=
  ⟨ht.1, ht.2, by simp [hrun, hin], by simpa [Stepper.startTime, hrun] using hstart, htodo⟩

/-- The writes of a table entry go to the stepper's own channels (40_stepper.md R128). -/
theorem Stepper.writes_addrs (p : Params) (x : Stepper) : ∀ r ∈ x.writes p, r.1 ∈ x.addrs p := addrs_of_map_fst rfl

/-- So do those of a stop (40_stepper.md R145). -/
theorem stopWrites_addrs (p : Params) (x : Stepper) : ∀ r ∈ stopWrites p x.coils, r.1 ∈ x.addrs p :=
  addrs_of_map_fst rfl

/-! How a command ends. -/

/-- A command that ends with RUN idle. -/
theorem Stepper.finish_safe {st : Status} {res : Option Word64} (hw : w.Keeps w')
    (hy : Stepper.Inv p w x → y.Tuned ∧ y.run = .idle) : Stepper.Safe p x w (Stepper.finish k st res y w') :=
  ⟨hw.trans (World.answer_keeps _ _ _), fun h =>
    Stepper.inv_of_idle (hy h).1 (hy h).2 rfl (Stepper.no_todo rfl)⟩

/-- A command that ends outside a run and changes nothing else. -/
theorem Stepper.finish_safe_of_out {st : Status} {res : Option Word64} (hout : x.inRun = false) (hw : w.Keeps w') :
    Stepper.Safe p x w (Stepper.finish k st res x w') :=
  Stepper.finish_safe hw fun h => ⟨h.tuned, h.run_idle hout⟩

theorem Stepper.stopAndEnd_safe {st : Status} (hw : w.Keeps w') :
    Stepper.Safe p x w (Stepper.stopAndEnd p k st x w') :=
  Stepper.finish_safe (hw.trans (World.allStop_keeps p w')) fun h => ⟨h.tuned, rfl⟩

/-- A failure within a run: RUN is idle, and the all-stop is to come. -/
theorem Stepper.stopping_safe {st : Status} (hw : w.Keeps w') :
    Stepper.Safe p x w ({ x with run := .idle, flight := some (.stopping st) }, w') :=
  ⟨hw, fun h => Stepper.inv_of_idle h.tuned rfl rfl (Stepper.no_todo rfl)⟩

/-! A run. -/

theorem Stepper.pace_keeps (p : Params) (x : Stepper) (w : World) : w.Keeps (x.pace p w).2 := by
  unfold Stepper.pace
  split
  · exact World.afterNow_keeps w
  · exact .refl w

theorem Stepper.stepDone_safe (hw : w.Keeps w') : Stepper.Safe p x w (x.stepDone, w') :=
  ⟨hw, fun h => Stepper.inv_of_running h.tuned rfl rfl (h.started.trans hw.clock) (Stepper.no_todo rfl)⟩

theorem Stepper.sleeping_safe {wakeAt : Nat} (hin : x.inRun = true) (hw : w.Keeps w') :
    Stepper.Safe p x w ({ x with flight := some (.sleeping wakeAt) }, w') := by
  refine ⟨hw, fun h => ⟨h.tuned.1, h.tuned.2, ?_, h.started.trans hw.clock, Stepper.no_todo rfl⟩⟩
  simpa [Stepper.inRun] using h.run_iff.mp hin

theorem Stepper.beginPaced_safe (p : Params) (x : Stepper) (w : World) :
    Stepper.Safe p x w (Stepper.beginPaced p x w) :=
  ⟨w.afterNow_keeps, fun h => Stepper.inv_of_running h.tuned rfl rfl (le_refl _) (Stepper.writes_addrs p _)⟩

theorem Stepper.finishPaced_safe {rest : Stepper → World → Stepper × World} {todo : List RegW}
    (hrest : ∀ y v, Stepper.Safe p y v (rest y v)) (hin : x.inRun = true) :
    Stepper.Safe p x w (Stepper.finishPaced p k rest todo x w) := by
  have hwrites := issueWrites_keeps p todo w
  have hpace := hwrites.trans (x.pace_keeps p (issueWrites p todo w).2)
  unfold Stepper.finishPaced
  dsimp only
  split
  · split
    case h_1 => exact (Stepper.stepDone_safe hpace).trans (hrest _ _)
    case h_2 => exact Stepper.stopAndEnd_safe hpace
    case h_3 wakeAt _ =>
      split
      · rename_i hwake
        exact (Stepper.stepDone_safe (hpace.trans (World.wake_keeps hwake _))).trans (hrest _ _)
      · exact Stepper.sleeping_safe hin hpace
  · exact Stepper.stopAndEnd_safe hwrites

theorem Stepper.runLoop_safe (p : Params) (k n : Nat) (x : Stepper) (w : World) :
    Stepper.Safe p x w (Stepper.runLoop p k n x w) := by
  induction n generalizing x w with
  | zero => exact Stepper.finish_safe (.refl w) fun h => ⟨h.tuned, rfl⟩
  | succ n ih => exact (Stepper.beginPaced_safe p x w).trans (Stepper.finishPaced_safe ih rfl)

theorem Stepper.complete_safe (p : Params) (k : Nat) (x : Stepper) (w : World) :
    Stepper.Safe p x w (Stepper.complete p k x w) := by
  unfold Stepper.complete
  split
  case h_1 => exact .refl p x w
  case h_2 => exact Stepper.runLoop_safe p k _ x w
  case h_3 todo hf => exact Stepper.finishPaced_safe (Stepper.runLoop_safe p k _) (by simp [Stepper.inRun, hf])
  case h_4 todo hf =>
    have hwrites := issueWrites_keeps p todo w
    dsimp only
    split
    · exact Stepper.finish_safe_of_out (by simp [Stepper.inRun, hf]) hwrites
    · exact Stepper.stopAndEnd_safe hwrites
  case h_5 wakeAt hf =>
    split
    · rename_i hwake
      exact (Stepper.stepDone_safe (World.wake_keeps hwake w)).trans (Stepper.runLoop_safe p k _ _ _)
    · exact .refl p x w
  case h_6 st hf => exact Stepper.finish_safe_of_out (by simp [Stepper.inRun, hf]) (World.allStop_keeps p w)
  case h_7 st hf => exact Stepper.finish_safe_of_out (by simp [Stepper.inRun, hf]) (.refl w)

/-! The start of each command, at a stepper that has none in flight. -/

/-- A command that starts by leaving writes to its own channels to be issued. -/
theorem Stepper.writing_safe {todo : List RegW} (hy : Stepper.Inv p w x → y.Tuned ∧ y.run = .idle)
    (htodo : ∀ r ∈ todo, r.1 ∈ y.addrs p) :
    Stepper.Safe p x w ({ y with flight := some (.writing todo false) }, w) :=
  ⟨.refl w, fun h => Stepper.inv_of_idle (hy h).1 (hy h).2 rfl htodo⟩

section Start

variable (hout : x.inRun = false)
include hout

theorem Stepper.startSetmode_safe (m : Mode) : Stepper.Safe p x w (Stepper.startSetmode k m x w) :=
  Stepper.finish_safe (.refl w) fun h => ⟨h.tuned, h.run_idle hout⟩

theorem Stepper.startSetspr_safe (v : BitVec 32) : Stepper.Safe p x w (Stepper.startSetspr k v x w) := by
  unfold Stepper.startSetspr
  split
  · exact Stepper.finish_safe_of_out hout (.refl w)
  · rename_i hv
    exact Stepper.finish_safe (.refl w) fun h => ⟨⟨h.tuned.1, by simpa using hv⟩, h.run_idle hout⟩

theorem Stepper.startSetinterval_safe (ms : Word64) (kill : Bool) :
    Stepper.Safe p x w (Stepper.startSetinterval k ms kill x w) := by
  unfold Stepper.startSetinterval
  split
  · exact Stepper.finish_safe_of_out hout (.refl w)
  · split
    · exact Stepper.finish_safe_of_out hout (.refl w)
    · rename_i hq
      exact Stepper.finish_safe (.refl w) fun h => ⟨⟨not_lt.mp hq, h.tuned.2⟩, h.run_idle hout⟩

theorem Stepper.startOnestep_safe : Stepper.Safe p x w (Stepper.startOnestep p x w) :=
  Stepper.writing_safe (y := x.advance) (fun h => ⟨h.tuned, h.run_idle hout⟩) (Stepper.writes_addrs p _)

theorem Stepper.startOnestepdir_safe (d : Dir) : Stepper.Safe p x w (Stepper.startOnestepdir p d x w) :=
  Stepper.writing_safe (y := Stepper.advance { x with dir := d }) (fun h => ⟨h.tuned, h.run_idle hout⟩)
    (Stepper.writes_addrs p _)

theorem Stepper.startStop_safe : Stepper.Safe p x w (Stepper.startStop p x w) :=
  Stepper.writing_safe (fun h => ⟨h.tuned, h.run_idle hout⟩) (stopWrites_addrs p x)

theorem Stepper.startCount_safe (n : Int) : Stepper.Safe p x w (Stepper.startCount p n x w) := by
  unfold Stepper.startCount
  split
  · exact Stepper.startStop_safe hout
  · exact ⟨.refl w, fun h =>
      Stepper.inv_of_running h.tuned rfl rfl (Nat.zero_le _) (Stepper.no_todo rfl)⟩

theorem Stepper.startRotate_safe (revs : Word64) : Stepper.Safe p x w (Stepper.startRotate p k revs x w) := by
  have hrefuse : ∀ st, Stepper.Safe p x w (Stepper.finish k st none x w) := fun _ =>
    Stepper.finish_safe_of_out hout (.refl w)
  unfold Stepper.startRotate
  split
  · exact hrefuse _
  · split
    · exact hrefuse _
    · split
      · exact hrefuse _
      · split
        · exact Stepper.startCount_safe hout _
        · exact hrefuse _

theorem Stepper.startJob_safe (j : Job) : Stepper.Safe p x w (Stepper.startJob p k j x w) := by
  cases j with
  | illegal => exact Stepper.finish_safe_of_out hout (.refl w)
  | command i =>
    cases i with
    | stSetmode _ m => exact Stepper.startSetmode_safe hout m
    | stSetspr _ v => exact Stepper.startSetspr_safe hout v
    | stSetinterval _ ms kill => exact Stepper.startSetinterval_safe hout ms kill
    | stOnestep _ => exact Stepper.startOnestep_safe hout
    | stOnestepdir _ d => exact Stepper.startOnestepdir_safe hout d
    | stStep _ n => exact Stepper.startCount_safe hout _
    | stRotate _ revs => exact Stepper.startRotate_safe hout revs
    | stGetstep _ => exact Stepper.finish_safe_of_out hout (.refl w)
    | stStop _ => exact Stepper.startStop_safe hout
    | _ => exact .refl p x w

end Start

/-! One atomic action. -/

theorem Stepper.turn_safe (p : Params) (k : Nat) (x : Stepper) (w : World) :
    Stepper.Safe p x w (Stepper.turn p k x w) := by
  unfold Stepper.turn
  split
  case h_1 hf =>
    split
    · exact .refl p x w
    · exact Stepper.startJob_safe (x := { x with ctl := _ }) (by simp [Stepper.inRun, hf]) _
  case h_2 =>
    split
    · exact Stepper.finish_safe (.refl w) fun h => ⟨h.tuned, rfl⟩
    · exact Stepper.beginPaced_safe p x w
  case h_3 r rs paced hf =>
    split
    · refine ⟨World.regWrite_keeps p r w, fun h => ⟨h.tuned.1, h.tuned.2, ?_, h.started, fun q hq => h.todo_addrs q ?_⟩⟩
      · simpa [Stepper.inRun, hf] using h.run_iff
      · simpa [Stepper.todo, hf] using .inr hq
    · exact Stepper.stopping_safe (World.regWrite_keeps p r w)
  case h_4 hf => exact Stepper.finish_safe_of_out (by simp [Stepper.inRun, hf]) (.refl w)
  case h_5 hf =>
    have hpace := x.pace_keeps p w
    dsimp only
    split
    · exact Stepper.stepDone_safe hpace
    · exact Stepper.stopping_safe hpace
    · exact Stepper.sleeping_safe (by simp [Stepper.inRun, hf]) hpace
  case h_6 wakeAt hf =>
    split
    · rename_i hwake
      exact Stepper.stepDone_safe (World.wake_keeps hwake w)
    · exact .refl p x w
  case h_7 st hf =>
    exact ⟨World.allStop_keeps p w, fun h =>
      Stepper.inv_of_idle h.tuned (h.run_idle (by simp [Stepper.inRun, hf])) rfl (Stepper.no_todo rfl)⟩
  case h_8 st hf => exact Stepper.finish_safe_of_out (by simp [Stepper.inRun, hf]) (.refl w)

theorem Stepper.free_out (h : x.free = true) : x.inRun = false := by
  simp [Stepper.inRun, Stepper.free_flight h]

theorem Stepper.Moved.safe (h : Stepper.Moved p k x w r) : Stepper.Safe p x w r := by
  obtain ⟨hfree, rfl⟩ | ⟨j, rfl⟩ | rfl := h
  · exact Stepper.finish_safe_of_out (Stepper.free_out hfree) (.refl w)
  · exact ⟨.refl w, id⟩
  · exact Stepper.turn_safe p k x w

theorem Stepper.halt_inv (h : Stepper.Inv p w x) : Stepper.Inv p w x.halt :=
  Stepper.inv_of_idle h.tuned rfl rfl (Stepper.no_todo rfl)

end Sys2Proof.Machine
end

section
/-! PROOFS. The invariant of a servo (10_state.md R32, R33): every action keeps it. -/

namespace Sys2Proof.Machine

/-- Going from `x` and `w` to `r` keeps what the invariant asks of the world, and the invariant of the servo. -/
def Servo.Safe (p : Params) (x : Servo) (w : World) (r : Servo × World) : Prop :=
  w.Keeps r.2 ∧ (Servo.Inv p x → Servo.Inv p r.1)

variable {p : Params} {j : Nat} {x y : Servo} {w w' : World} {r r' : Servo × World}

theorem Servo.Safe.refl (p : Params) (x : Servo) (w : World) : Servo.Safe p x w (x, w) := ⟨.refl w, id⟩

theorem Servo.Safe.trans (h : Servo.Safe p x w r) (h' : Servo.Safe p r.1 r.2 r') : Servo.Safe p x w r' :=
  ⟨h.1.trans h'.1, h'.2 ∘ h.2⟩

theorem Servo.Inv.ordered (h : Servo.Inv p x) : limitsOrdered x.limits = true ∧ x.minX < x.maxX := ⟨h.1, h.2.1⟩

/-- Where no write is to come, the limits and the range are all that matters. -/
theorem Servo.inv_of_no_todo (h : limitsOrdered x.limits = true ∧ x.minX < x.maxX) (htodo : x.todo = []) :
    Servo.Inv p x :=
  ⟨h.1, h.2, by simp [htodo]⟩

theorem Servo.finish_safe {st : Status} {res : Option Word64} (hw : w.Keeps w')
    (hy : Servo.Inv p x → limitsOrdered y.limits = true ∧ y.minX < y.maxX) :
    Servo.Safe p x w (Servo.finish j st res y w') :=
  ⟨hw.trans (World.answer_keeps _ _ _), fun h => Servo.inv_of_no_todo (hy h) rfl⟩

/-- A command that ends and changes neither the limits nor the range. -/
theorem Servo.finish_safe_same {st : Status} {res : Option Word64} (hw : w.Keeps w') :
    Servo.Safe p x w (Servo.finish j st res x w') :=
  Servo.finish_safe hw Servo.Inv.ordered

theorem Servo.commit_safe {pos : Option Rat} (hw : w.Keeps w') : Servo.Safe p x w (Servo.commit j pos x w') :=
  Servo.finish_safe hw Servo.Inv.ordered

theorem Servo.complete_safe (p : Params) (j : Nat) (x : Servo) (w : World) :
    Servo.Safe p x w (Servo.complete p j x w) := by
  unfold Servo.complete
  split
  case h_1 => exact .refl p x w
  case h_2 todo pos hf =>
    have hwrites := issueWrites_keeps p todo w
    dsimp only
    split
    · exact Servo.commit_safe hwrites
    · exact Servo.finish_safe_same (hwrites.trans (World.allStop_keeps p _))
  case h_3 => exact Servo.finish_safe_same (World.allStop_keeps p w)
  case h_4 => exact Servo.finish_safe_same (.refl w)

/-! The start of each command. -/

theorem Servo.startSetlimits_safe (a b c : Word64) : Servo.Safe p x w (Servo.startSetlimits j a b c x w) := by
  unfold Servo.startSetlimits
  split
  · split
    · rename_i hlt
      exact Servo.finish_safe (.refl w) fun h => ⟨by simpa [limitsOrdered, and_assoc] using hlt, h.ordered.2⟩
    · exact Servo.finish_safe_same (.refl w)
  · exact Servo.finish_safe_same (.refl w)

theorem Servo.startSetrange_safe (a b : Word64) : Servo.Safe p x w (Servo.startSetrange j a b x w) := by
  unfold Servo.startSetrange
  split
  · split
    · rename_i hlt
      exact Servo.finish_safe (.refl w) fun h => ⟨h.ordered.1, hlt⟩
    · exact Servo.finish_safe_same (.refl w)
  · exact Servo.finish_safe_same (.refl w)

theorem Servo.startWidth_safe (ms : Rat) (pos : Option Rat) (hw : w.Keeps w') :
    Servo.Safe p x w (Servo.startWidth p j ms pos x w') := by
  unfold Servo.startWidth
  split
  · exact Servo.finish_safe_same hw
  · split
    · exact Servo.finish_safe_same hw
    · exact ⟨hw, fun h => ⟨h.ordered.1, h.ordered.2, addrs_of_map_fst (channelWrites_addrs p x.ch 0 _)⟩⟩

theorem Servo.startSetpw_safe (ms : Word64) : Servo.Safe p x w (Servo.startSetpw p j ms x w) := by
  unfold Servo.startSetpw
  split
  · exact Servo.finish_safe_same (.refl w)
  · exact Servo.startWidth_safe _ _ (.refl w)

theorem Servo.startSetpos_safe (q : Word64) : Servo.Safe p x w (Servo.startSetpos p j q x w) := by
  unfold Servo.startSetpos
  split
  · exact Servo.finish_safe_same (.refl w)
  · split
    · exact Servo.finish_safe_same (.refl w)
    · exact Servo.startWidth_safe _ _ (World.afterWidth_keeps p x _ w)

theorem Servo.startGetpos_safe : Servo.Safe p x w (Servo.startGetpos j x w) := by
  unfold Servo.startGetpos
  split <;> exact Servo.finish_safe_same (.refl w)

theorem Servo.startJob_safe (job : Job) : Servo.Safe p x w (Servo.startJob p j job x w) := by
  cases job with
  | illegal => exact Servo.finish_safe_same (.refl w)
  | command i =>
    cases i with
    | svSetlimits _ a b c => exact Servo.startSetlimits_safe a b c
    | svSetrange _ a b => exact Servo.startSetrange_safe a b
    | svSetpw _ ms => exact Servo.startSetpw_safe ms
    | svSetpos _ q => exact Servo.startSetpos_safe q
    | svGetpos _ => exact Servo.startGetpos_safe
    | _ => exact .refl p x w

/-! One atomic action. -/

theorem Servo.turn_safe (p : Params) (j : Nat) (x : Servo) (w : World) : Servo.Safe p x w (Servo.turn p j x w) := by
  unfold Servo.turn
  split
  case h_1 =>
    split
    · exact .refl p x w
    · exact Servo.startJob_safe (x := { x with ctl := _ }) _
  case h_2 r rs pos hf =>
    have hwrite := World.regWrite_keeps p r w
    split
    · exact ⟨hwrite, fun ⟨hl, hr, htodo⟩ => ⟨hl, hr, fun q hq => htodo q (by simpa [Servo.todo, hf] using .inr hq)⟩⟩
    · exact ⟨hwrite, fun h => Servo.inv_of_no_todo h.ordered rfl⟩
  case h_3 => exact Servo.commit_safe (.refl w)
  case h_4 => exact ⟨World.allStop_keeps p w, fun h => Servo.inv_of_no_todo h.ordered rfl⟩
  case h_5 => exact Servo.finish_safe_same (.refl w)

theorem Servo.Moved.safe (h : Servo.Moved p j x w r) : Servo.Safe p x w r := by
  obtain ⟨-, rfl⟩ | ⟨job, rfl⟩ | rfl := h
  · exact Servo.finish_safe_same (.refl w)
  · exact ⟨.refl w, id⟩
  · exact Servo.turn_safe p j x w

theorem Servo.halt_inv (h : Servo.Inv p x) : Servo.Inv p x.halt := Servo.inv_of_no_todo h.ordered rfl

end Sys2Proof.Machine
end

section
/-! PROOFS. The invariant of a decoder (10_state.md R38 to R41): every action keeps it, where POS has a width. -/

namespace Sys2Proof.Machine

/-- Going from `x` and `w` to `r` keeps what the invariant asks of the world, and the invariant of the decoder. -/
def Qdec.Safe (p : Params) (x : Qdec) (w : World) (r : Qdec × World) : Prop :=
  w.Keeps r.2 ∧ (1 ≤ p.posBits → Qdec.Inv p w x → Qdec.Inv p r.2 r.1)

variable {p : Params} {d : Nat} {x : Qdec} {w w' : World} {r : Qdec × World}

theorem Qdec.Safe.refl (p : Params) (x : Qdec) (w : World) : Qdec.Safe p x w (x, w) := ⟨.refl w, fun _ => id⟩

/-- LASTT and the samples stay at or before a time source that does not turn back. -/
theorem Qdec.Inv.mono (h : Qdec.Inv p w x) (hw : w.clock.toNat ≤ w'.clock.toNat) : Qdec.Inv p w' x := by
  obtain ⟨hlow, hhigh, hlen, hhead, hcount, hlastT, hlastPos, hlast, hring⟩ := h
  exact ⟨hlow, hhigh, hlen, hhead, hcount, hlastT, hlastPos, hlast.trans hw, fun e he => (hring e he).trans hw⟩

/-- A command that ends and leaves everything but OFFSET and the response as it was. -/
theorem Qdec.finish_safe {st : Status} {res : Option Word64} {offset : Rat} (hw : w.Keeps w') :
    Qdec.Safe p x w (Qdec.finish d st res { x with offset := offset } w') :=
  ⟨hw.trans (World.answer_keeps _ _ _), fun _ h => h.mono hw.clock⟩

/-! The poll. -/

/-- The wrapped counter is in its width (42_quadrature.md R226). -/
theorem wrapPos_range (hbits : 1 ≤ p.posBits) (n : Int) :
    -(2 ^ (p.posBits - 1)) ≤ wrapPos p n ∧ wrapPos p n < 2 ^ (p.posBits - 1) := by
  have hwidth : 2 ^ p.posBits = 2 * 2 ^ (p.posBits - 1) := by rw [← pow_succ', Nat.sub_add_cancel hbits]
  have hpos : 0 < 2 ^ p.posBits := Nat.two_pow_pos _
  have hlow := Int.le_bmod (x := n) hpos
  have hhigh := Int.bmod_lt (x := n) hpos
  rw [wrapPos]
  rw [hwidth] at hlow hhigh ⊢
  push_cast at hlow hhigh
  omega

/-- Observing the lines changes GRAY and POS alone, and POS stays in its width. -/
theorem Qdec.observe_inv (hbits : 1 ≤ p.posBits) (o : BitVec 2) (h : Qdec.Inv p w x) :
    Qdec.Inv p w (x.observe p o) := by
  obtain ⟨-, -, hrest⟩ := id h
  unfold Qdec.observe
  split
  · exact ⟨(wrapPos_range hbits _).1, (wrapPos_range hbits _).2, hrest⟩
  · split
    · exact ⟨(wrapPos_range hbits _).1, (wrapPos_range hbits _).2, hrest⟩
    · split
      · exact h
      · split <;> exact h

theorem Qdec.publish_safe (p : Params) (x : Qdec) (w : World) : Qdec.Safe p x w (x.publish p w) := by
  unfold Qdec.publish
  dsimp only
  split
  · refine ⟨w.afterNow_keeps.trans (World.afterSample_keeps p _ _), fun _ h => ?_⟩
    obtain ⟨hlow, hhigh, hlen, hhead, hcount, -, -, -, hring⟩ := h
    have hsize : 0 < p.ringSize := Nat.zero_lt_of_lt hhead
    have hfull : 0 < min (x.count + 1) p.ringSize := lt_min (Nat.succ_pos _) hsize
    refine ⟨hlow, hhigh, ?len, Nat.mod_lt _ hsize, Nat.min_le_right _ _, ?lastT, ?lastPos, le_refl _, ?ring⟩
    case len => simpa [Qdec.push] using hlen
    case lastT | lastPos => exact iff_of_true rfl hfull
    case ring =>
      intro e he
      obtain he | rfl := List.mem_or_eq_of_mem_set he
      · exact (hring e he).trans w.nowValue_ge
      · exact le_refl _
  · exact ⟨w.afterNow_keeps, fun _ h => h.mono w.nowValue_ge⟩

theorem Qdec.poll_safe (p : Params) (x : Qdec) (w : World) : Qdec.Safe p x w (x.poll p w) := by
  have hpublish := (x.observe p (observed (w.lineNext x.pinA) (w.afterLine.lineNext x.pinB))).publish_safe p
    w.afterLine.afterLine
  exact ⟨w.afterLine_keeps.trans (w.afterLine.afterLine_keeps.trans hpublish.1), fun hbits h =>
    hpublish.2 hbits (Qdec.observe_inv hbits _ h)⟩

/-! The start of each command, which is also its end. -/

theorem Qdec.startPoll_safe : Qdec.Safe p x w (Qdec.startPoll p d x w) := by
  have hpoll := x.poll_safe p w
  exact ⟨hpoll.1.trans (World.answer_keeps _ _ _), hpoll.2⟩

theorem Qdec.startGetpos_safe : Qdec.Safe p x w (Qdec.startGetpos p d x w) := by
  unfold Qdec.startGetpos
  split <;> exact Qdec.finish_safe (.refl w)

theorem Qdec.startGetderiv_safe (window : Word64) : Qdec.Safe p x w (Qdec.startGetderiv p d window x w) := by
  unfold Qdec.startGetderiv
  split
  · exact Qdec.finish_safe (.refl w)
  · split
    · exact Qdec.finish_safe (.refl w)
    · split
      · exact Qdec.finish_safe (.refl w)
      · dsimp only
        split <;> exact Qdec.finish_safe w.afterNow_keeps

theorem Qdec.startJob_safe (j : Job) : Qdec.Safe p x w (Qdec.startJob p d j x w) := by
  cases j with
  | illegal => exact Qdec.finish_safe (.refl w)
  | command i =>
    cases i with
    | qdPoll _ => exact Qdec.startPoll_safe
    | qdGetpos _ => exact Qdec.startGetpos_safe
    | qdGetderiv _ window => exact Qdec.startGetderiv_safe window
    | qdReset _ => exact Qdec.finish_safe (.refl w)
    | _ => exact .refl p x w

theorem Qdec.turn_safe (p : Params) (d : Nat) (x : Qdec) (w : World) : Qdec.Safe p x w (Qdec.turn p d x w) := by
  unfold Qdec.turn
  split
  · exact .refl p x w
  · exact Qdec.startJob_safe (x := { x with ctl := _ }) _

theorem Qdec.Moved.safe (h : Qdec.Moved p d x w r) : Qdec.Safe p x w r := by
  obtain ⟨-, rfl⟩ | ⟨j, rfl⟩ | rfl | rfl := h
  · exact Qdec.finish_safe (.refl w)
  · exact ⟨.refl w, fun _ => id⟩
  · exact Qdec.turn_safe p d x w
  · exact x.poll_safe p w

end Sys2Proof.Machine
end

section
/-! PROOFS. The state: a command changes one instance, a step runs the command of the host's frame, and every step keeps the
invariant of the block. -/

namespace Sys2Proof.Machine

section

variable {s t : State} {w : World} {k : Nat}

/-! Looking a bound instance up in the state's lists. -/

theorem State.stepper_mem {x : Stepper} (h : s.stepper k = some x) : some x ∈ s.st := by
  have hk := State.stepper_lt h
  rw [State.stepper, List.getElem?_eq_getElem hk] at h
  exact List.mem_of_getElem h

theorem State.servo_mem {x : Servo} (h : s.servo k = some x) : some x ∈ s.sv := by
  have hk := State.servo_lt h
  rw [State.servo, List.getElem?_eq_getElem hk] at h
  exact List.mem_of_getElem h

theorem State.qdec_mem {x : Qdec} (h : s.qdec k = some x) : x ∈ s.qd := List.mem_of_getElem? h

/-! What the invariant says of one instance. -/

theorem paramsLegal_posBits {p : Params} (h : paramsLegal p = true) : 1 ≤ p.posBits := by
  simp only [paramsLegal, Bool.and_eq_true, decide_eq_true_eq] at h
  tauto

theorem State.Inv.stepper {x : Stepper} (h : s.Inv) (hx : s.stepper k = some x) : Stepper.Inv s.params s.world x := by
  obtain ⟨-, -, -, -, -, hsteppers, -, -⟩ := h
  exact hsteppers _ (State.stepper_mem hx) x rfl

theorem State.Inv.servo {x : Servo} (h : s.Inv) (hx : s.servo k = some x) : Servo.Inv s.params x := by
  obtain ⟨-, -, -, -, -, -, hservos, -⟩ := h
  exact hservos _ (State.servo_mem hx) x rfl

theorem State.Inv.qdec {x : Qdec} (h : s.Inv) (hx : s.qdec k = some x) : Qdec.Inv s.params s.world x := by
  obtain ⟨-, -, -, -, -, -, -, hdecoders⟩ := h
  exact hdecoders x (State.qdec_mem hx)

/-! The invariant after one part of the state changed. -/

theorem State.Inv.withWorld (h : s.Inv) (hw : s.world.Keeps w) : ({ s with world := w } : State).Inv := by
  obtain ⟨hp, hfreq, hregs, hst, hsv, hsteppers, hservos, hdecoders⟩ := h
  exact ⟨hp, hw.freq hfreq, hw.regs hregs, hst, hsv, fun o ho x hx => (hsteppers o ho x hx).mono hw.clock, hservos,
    fun x hx => (hdecoders x hx).mono hw.clock⟩

theorem State.Inv.putStepper {x : Stepper} {r : Stepper × World} (h : s.Inv) (hx : s.stepper k = some x)
    (hr : Stepper.Safe s.params x s.world r) : (s.putStepper k r).Inv := by
  have hinv := hr.2 (h.stepper hx)
  obtain ⟨hp, hfreq, hregs, hst, hsv, hsteppers, hservos, hdecoders⟩ := h.withWorld hr.1
  refine ⟨hp, hfreq, hregs, (List.length_set ..).trans hst, hsv, ?_, hservos, hdecoders⟩
  intro o ho y hy
  obtain ho | rfl := List.mem_or_eq_of_mem_set ho
  · exact hsteppers o ho y hy
  · exact Option.mem_some.mp hy ▸ hinv

theorem State.Inv.putServo {x : Servo} {r : Servo × World} (h : s.Inv) (hx : s.servo k = some x)
    (hr : Servo.Safe s.params x s.world r) : (s.putServo k r).Inv := by
  have hinv := hr.2 (h.servo hx)
  obtain ⟨hp, hfreq, hregs, hst, hsv, hsteppers, hservos, hdecoders⟩ := h.withWorld hr.1
  refine ⟨hp, hfreq, hregs, hst, (List.length_set ..).trans hsv, hsteppers, ?_, hdecoders⟩
  intro o ho y hy
  obtain ho | rfl := List.mem_or_eq_of_mem_set ho
  · exact hservos o ho y hy
  · exact Option.mem_some.mp hy ▸ hinv

theorem State.Inv.putQdec {x : Qdec} {r : Qdec × World} (h : s.Inv) (hx : s.qdec k = some x)
    (hr : Qdec.Safe s.params x s.world r) : (s.putQdec k r).Inv := by
  have hinv := hr.2 (paramsLegal_posBits h.1) (h.qdec hx)
  obtain ⟨hp, hfreq, hregs, hst, hsv, hsteppers, hservos, hdecoders⟩ := h.withWorld hr.1
  refine ⟨hp, hfreq, hregs, hst, hsv, hsteppers, hservos, ?_⟩
  intro y hy
  obtain hy | rfl := List.mem_or_eq_of_mem_set hy
  · exact hdecoders y hy
  · exact hinv

theorem State.Inv.shutdown (h : s.Inv) : s.shutdown.Inv := by
  obtain ⟨hp, hfreq, hregs, hst, hsv, hsteppers, hservos, hdecoders⟩ :=
    h.withWorld (World.allStop_keeps s.params s.world)
  refine ⟨hp, hfreq, hregs, (List.length_map _).trans hst, (List.length_map _).trans hsv, ?steppers, ?servos, ?decoders⟩
  case steppers =>
    intro o ho y hy
    obtain ⟨o', ho', rfl⟩ := List.mem_map.mp ho
    obtain ⟨x, hx, rfl⟩ := Option.mem_map.mp hy
    exact Stepper.halt_inv (hsteppers o' ho' x hx)
  case servos =>
    intro o ho y hy
    obtain ⟨o', ho', rfl⟩ := List.mem_map.mp ho
    obtain ⟨x, hx, rfl⟩ := Option.mem_map.mp hy
    exact Servo.halt_inv (hservos o' ho' x hx)
  case decoders =>
    intro y hy
    obtain ⟨x, hx, rfl⟩ := List.mem_map.mp hy
    exact hdecoders x hx

/-! Commands and moves. -/

theorem State.Inv.after_exec {i : Instr} (h : s.Inv) (ht : exec i s = .next t) : t.Inv := by
  obtain ⟨-, ⟨-, rfl⟩ | ⟨k, x, -, hx, hr⟩ | ⟨j, x, -, hx, hr⟩ | ⟨d, x, -, hx, hr⟩⟩ := exec_next ht
  · exact h.withWorld (World.answerNobody_keeps _)
  · obtain ⟨-, rfl⟩ | ⟨hfree, rfl⟩ := hr
    · exact h.putStepper hx ⟨.refl _, id⟩
    · exact h.putStepper hx ((Stepper.startJob_safe (Stepper.free_out hfree) _).trans (Stepper.complete_safe _ _ _ _))
  · obtain ⟨-, rfl⟩ | ⟨-, rfl⟩ := hr
    · exact h.putServo hx ⟨.refl _, id⟩
    · exact h.putServo hx ((Servo.startJob_safe _).trans (Servo.complete_safe _ _ _ _))
  · obtain ⟨-, rfl⟩ | ⟨-, rfl⟩ := hr
    · exact h.putQdec hx ⟨.refl _, fun _ => id⟩
    · exact h.putQdec hx (Qdec.startJob_safe _)

theorem State.Move.inv (hm : s.Move t) (h : s.Inv) : t.Inv := by
  cases hm with
  | command i ht => exact h.after_exec ht
  | nobody => exact h.withWorld (World.answerNobody_keeps _)
  | stepper k hx hr => exact h.putStepper hx hr.safe
  | servo j hx hr => exact h.putServo hx hr.safe
  | qdec d hx hr => exact h.putQdec hx hr.safe
  | shutdown => exact h.shutdown
  | setFreq hlegal => exact h.withWorld ⟨le_refl _, fun _ => hlegal, id⟩
  | outsideWrite b _ => exact h.withWorld ⟨le_refl _, id, Memory.write_wf _ b⟩
  | outsideAllStop => exact h.withWorld (World.allStop_keeps _ _)

end

/-- Settles O9: a step is a move of the state with that move taken off the schedule, and every move keeps the invariant. -/
theorem stepKeepsTheInvariant : Obligations.StepKeepsTheInvariant := by
  intro s t h hstep
  obtain ⟨-, hmove⟩ := step_next hstep
  exact hmove.inv h

/-- Settles O14: whatever a command does, it puts back no instance but the one it addresses. -/
theorem commandsTouchOneInstance : Obligations.CommandsTouchOneInstance := by
  intro i s t h
  obtain ⟨-, ⟨-, rfl⟩ | ⟨k, x, hi, -, hr⟩ | ⟨j, x, hi, -, hr⟩ | ⟨d, x, hi, -, hr⟩⟩ := exec_next h
  · exact ⟨rfl, rfl, rfl, fun _ _ => rfl, fun _ _ => rfl, fun _ _ => rfl⟩
  · rw [hi]
    obtain ⟨-, rfl⟩ | ⟨-, rfl⟩ := hr <;> exact State.putStepper_sameBut s k _
  · rw [hi]
    obtain ⟨-, rfl⟩ | ⟨-, rfl⟩ := hr <;> exact State.putServo_sameBut s j _
  · rw [hi]
    obtain ⟨-, rfl⟩ | ⟨-, rfl⟩ := hr <;> exact State.putQdec_sameBut s d _

/-- Settles O1: the step takes the frame, the frame decodes, and its command is run. -/
theorem stepRunsTheDecodedCommand : Obligations.StepRunsTheDecodedCommand := by
  intro s bytes i hrun hnext hdecode
  refine ⟨?_, rfl⟩
  calc step s = takeEvent s.nextEvent s.afterEvent := by simp [step, hrun]
    _ = hostFrame bytes s.afterEvent := by rw [hnext, takeEvent]
    _ = exec i s.afterEvent := by rw [hostFrame, hdecode]

end Sys2Proof.Machine
end

section
/-! PROOFS. The register write port (20_memory.md R60, R61, R70): which writes an operation adds to the record, and which
registers it leaves alone. -/

namespace Sys2Proof.Machine

variable {p : Params} {as bs cs ds : List RegAddr} {w w' w'' : World}

/-- Going from `w` to `w'` adds to the record only writes to registers of `as`. -/
def World.Records (as : List RegAddr) (w w' : World) : Prop := ∃ new, w'.log = w.log ++ new ∧ ∀ e ∈ new, e.addr ∈ as

theorem World.Records.of_log_eq (h : w'.log = w.log) : w.Records as w' := ⟨[], by simp [h], by simp⟩

theorem World.Records.mono (h : w.Records as w') (hsub : as ⊆ bs) : w.Records bs w' := by
  obtain ⟨new, hlog, hnew⟩ := h
  exact ⟨new, hlog, fun e he => hsub (hnew e he)⟩

theorem World.Records.trans (h : w.Records as w') (h' : w'.Records as w'') : w.Records as w'' := by
  obtain ⟨new, hlog, hnew⟩ := h
  obtain ⟨new', hlog', hnew'⟩ := h'
  refine ⟨new ++ new', by rw [hlog', hlog, List.append_assoc], fun e he => ?_⟩
  exact (List.mem_append.mp he).elim (hnew e) (hnew' e)

/-- Going from `w` to `w'` adds to the record only writes to registers of `as`, and changes no register but those of `bs`. -/
structure World.Touches (as bs : List RegAddr) (w w' : World) : Prop where
  records : w.Records as w'
  keeps : ∀ a, (∀ r ∈ bs, r.toNat ≠ a) → Memory.read w'.regs a = Memory.read w.regs a

theorem World.Touches.of_eq (hlog : w'.log = w.log) (hregs : w'.regs = w.regs) : w.Touches as bs w' :=
  ⟨.of_log_eq hlog, fun _ _ => by rw [hregs]⟩

theorem World.Touches.mono (h : w.Touches as bs w') (has : as ⊆ cs) (hbs : bs ⊆ ds) : w.Touches cs ds w' :=
  ⟨h.records.mono has, fun a ha => h.keeps a fun r hr => ha r (hbs hr)⟩

theorem World.Touches.trans (h : w.Touches as bs w') (h' : w'.Touches as bs w'') : w.Touches as bs w'' :=
  ⟨h.records.trans h'.records, fun a ha => (h'.keeps a ha).trans (h.keeps a ha)⟩

theorem World.regWrite_touches (p : Params) (r : RegW) (w : World) : w.Touches [r.1] [r.1] (w.regWrite p r) := by
  refine ⟨⟨_, rfl, by simp⟩, fun a ha => ?_⟩
  rw [World.regWrite_regs]
  split
  · exact Memory.read_write_other _ (ha r.1 List.mem_cons_self) _
  · rfl

theorem World.allStop_touches (p : Params) (w : World) : w.Touches (allStopAddrs p) (allStopReach p) (w.allStop p) :=
  ⟨⟨_, rfl, by simp⟩, fun _ ha => Memory.read_writeAll_other _ _ _ ha⟩

/-- Writes that are all accepted touch their own registers, whatever the time source does meanwhile. -/
theorem World.WroteInTime.touches {ws : List RegW} (h : World.WroteInTime p ws w w') (hws : ∀ r ∈ ws, r.1 ∈ as) :
    w.Touches as as w' := by
  refine ⟨⟨_, h.log, ?_⟩, fun a ha => ?_⟩
  · intro e he
    obtain ⟨r, hr, rfl⟩ := List.mem_map.mp he
    exact hws r hr
  · rw [h.regs]
    exact Memory.read_after_other _ _ fun r hr => ha r.1 (hws r hr)

theorem World.wrote_inTime (p : Params) (ws : List RegW) (w : World) : World.WroteInTime p ws w (w.wrote p ws) :=
  ⟨rfl, rfl, rfl, rfl, rfl, rfl, rfl⟩

/-- Writes up to one that fails touch their own registers. -/
theorem World.failed_touches {ws : List RegW} {j : Nat} (hj : j < ws.length) (hws : ∀ r ∈ ws, r.1 ∈ as) :
    w.Touches as as ((w.wrote p (ws.take j)).regWrite p ws[j]) := by
  have hlast : [ws[j].1] ⊆ as := by simpa using hws _ (List.getElem_mem hj)
  exact ((World.wrote_inTime p _ w).touches fun r hr => hws r (List.mem_of_mem_take hr)).trans
    ((World.regWrite_touches p _ _).mono hlast hlast)

/-! A command that runs to its end. -/

/-- Going from `w` to `w'`, a command touches its own registers `as` alone; or it sends the all-stop, and then the one answer it
gives says so (60_exceptions.md R274). -/
def World.Ran (p : Params) (as : List RegAddr) (w w' : World) : Prop :=
  w.Touches as as w' ∨
    w.Touches (as ++ allStopAddrs p) (as ++ allStopReach p) w' ∧
      ∃ b, w'.answers = w.answers ++ [b] ∧ b.status.stopsAll = true

/-- What a command does before its end, without an answer, and then at its end. -/
theorem World.Ran.after (h : w'.Ran p as w'') (htouch : w.Touches as as w') (hans : w'.answers = w.answers) :
    w.Ran p as w'' := by
  obtain h | ⟨hstop, hb⟩ := h
  · exact .inl (htouch.trans h)
  · exact .inr ⟨(htouch.mono (List.subset_append_left ..) (List.subset_append_left ..)).trans hstop, hans ▸ hb⟩

/-- A command that sends the all-stop and answers one of the statuses that do. -/
theorem World.allStop_ran {who : Option Target} {c : Ctl} (hst : c.status.stopsAll = true) :
    w.Ran p as ((w.allStop p).answer who c) :=
  .inr ⟨((World.allStop_touches p w).mono (List.subset_append_right ..) (List.subset_append_right ..)).trans
    (.of_eq rfl rfl), _, rfl, hst⟩

theorem World.Ran.records (h : w.Ran p as w') : w.Records (as ++ allStopAddrs p) w' := by
  obtain h | ⟨hstop, -⟩ := h
  · exact h.records.mono (List.subset_append_left ..)
  · exact hstop.records

theorem World.Ran.keeps (h : w.Ran p as w') {a : Nat} (ha : ∀ r ∈ as, r.toNat ≠ a)
    (hstop : (∀ b, w'.answers = w.answers ++ [b] → b.status.stopsAll = false) ∨ ∀ r ∈ allStopReach p, r.toNat ≠ a) :
    Memory.read w'.regs a = Memory.read w.regs a := by
  obtain h | ⟨h, b, hb, hst⟩ := h
  · exact h.keeps a ha
  · obtain hno | hreach := hstop
    · simp [hno b hb] at hst
    · exact h.keeps a fun r hr => (List.mem_append.mp hr).elim (ha r) (hreach r)

/-- Every register of every channel is behind the all-channels registers (20_memory.md R70). -/
theorem channelAddrs_subset_allStopReach (p : Params) (ch : Channel) : channelAddrs p ch ⊆ allStopReach p := by
  have hreg : ∀ k ∈ [(0 : RegAddr), 1, 2, 3], chanAddr p ch + k ∈ allStopReach p := fun k hk =>
    List.mem_flatMap.mpr ⟨k, hk, .tail _ (List.mem_map.mpr ⟨ch.val, List.mem_range.mpr ch.isLt, rfl⟩)⟩
  intro a ha
  simp only [channelAddrs, List.mem_cons, List.not_mem_nil, or_false] at ha
  obtain rfl | rfl | rfl | rfl := ha
  · simpa using hreg 0 (by simp)
  · exact hreg 1 (by simp)
  · exact hreg 2 (by simp)
  · exact hreg 3 (by simp)

/-- Settles O22: each register of a channel is among those the all-stop sets to 0. -/
theorem allStopTurnsEveryOutputOff : Obligations.AllStopTurnsEveryOutputOff := by
  intro p w
  refine ⟨fun ch => ?_, rfl, rfl, rfl, rfl⟩
  have hzero : ∀ a ∈ channelAddrs p ch, Memory.read (w.allStop p).regs a.toNat = some 0 := fun a ha =>
    Memory.read_writeAll_mem _ _ _ (channelAddrs_subset_allStopReach p ch ha)
  simp only [channelAddrs, List.forall_mem_cons] at hzero
  obtain ⟨h0, h1, h2, h3, -⟩ := hzero
  rw [channelBytes, h0, h1, h2, h3]

/-- Settles O23: a write that lands is read back, one that is lost leaves the register file alone, and either touches the one
register. -/
theorem failedWriteMayOrMayNotLand : Obligations.FailedWriteMayOrMayNotLand := by
  intro p r w
  have hland : landed w.busNext = true → Memory.read (w.regWrite p r).regs r.1.toNat = some r.2 := fun h => by
    rw [World.regWrite_regs, if_pos h, Memory.read_write_same]
  refine ⟨fun h => hland (by rw [h, landed]), fun h => hland (by rw [h, landed]), fun h => ?_, fun a ha => ?_⟩
  · rw [World.regWrite_regs, h, landed, if_neg Bool.false_ne_true]
  · exact (World.regWrite_touches p r w).keeps a (by simpa using ha.symm)

end Sys2Proof.Machine
end

section
/-! PROOFS. The registers of an instance (20_memory.md R61, R71): what a command run to its end, and each
atomic action, can write. -/

namespace Sys2Proof.Machine

variable {p : Params} {k : Nat} {w w' : World}

/-! Steppers. -/

section Stepper

variable {x y : Stepper} {r : Stepper × World} {as : List RegAddr}

/-- A command that ends and has written no further register. -/
theorem Stepper.finish_ran {st : Status} {res : Option Word64} : w.Ran p as (Stepper.finish k st res y w).2 :=
  .inl (.of_eq rfl rfl)

theorem Stepper.stopAndEnd_ran {st : Status} (hst : st.stopsAll = true) :
    w.Ran p as (Stepper.stopAndEnd p k st y w).2 :=
  World.allStop_ran hst

/-- A paced step writes the registers of its writes, and then those of the rest of the run. -/
theorem Stepper.finishPaced_ran {rest : Stepper → World → Stepper × World} {todo : List RegW}
    (htodo : ∀ q ∈ todo, q.1 ∈ as) (hrest : ∀ v : World, v.Ran p as (rest y.stepDone v).2) :
    w.Ran p as (Stepper.finishPaced p k rest todo y w).2 := by
  obtain ⟨j, hj, -, -, he⟩ | ⟨-, w', hw, ⟨-, he⟩ | ⟨-, wakeAt, he⟩ | he⟩ :=
    Stepper.finishPaced_spec p k rest todo y w
  all_goals rw [he]
  · exact (Stepper.stopAndEnd_ran rfl).after (World.failed_touches hj htodo) rfl
  · exact (Stepper.stopAndEnd_ran rfl).after (hw.touches htodo) hw.answers
  · exact .inl (hw.touches htodo)
  · exact (hrest w').after (hw.touches htodo) hw.answers

theorem Stepper.runLoop_ran (p : Params) (k n : Nat) (x : Stepper) (w : World) :
    w.Ran p (x.addrs p) (Stepper.runLoop p k n x w).2 := by
  induction n generalizing x w with
  | zero => exact Stepper.finish_ran
  | succ n ih =>
    have hstep : w.afterNow.Ran p (x.addrs p) (Stepper.runLoop p k (n + 1) x w).2 :=
      Stepper.finishPaced_ran (Stepper.writes_addrs p (Stepper.beginPaced p x w).1)
        fun v => ih (Stepper.beginPaced p x w).1.stepDone v
    exact hstep.after (.of_eq rfl rfl) rfl

/-- What starting a command can do: it ends at once; or it leaves writes to the stepper's own registers, or a run, to come. -/
def Stepper.Started (p : Params) (k : Nat) (x : Stepper) (w : World) (r : Stepper × World) : Prop :=
  (∃ st res y, r = Stepper.finish k st res y w) ∨
    ∃ y, r = (y, w) ∧ y.addrs p = x.addrs p ∧
      (y.flight = none ∨ y.flight = some .stepping ∨
        ∃ todo, y.flight = some (.writing todo false) ∧ ∀ q ∈ todo, q.1 ∈ x.addrs p)

theorem Stepper.startStop_started : Stepper.Started p k x w (Stepper.startStop p x w) :=
  .inr ⟨_, rfl, rfl, .inr (.inr ⟨_, rfl, stopWrites_addrs p x⟩)⟩

theorem Stepper.startCount_started (n : Int) : Stepper.Started p k x w (Stepper.startCount p n x w) := by
  unfold Stepper.startCount
  split
  · exact Stepper.startStop_started
  · exact .inr ⟨_, rfl, rfl, .inr (.inl rfl)⟩

theorem Stepper.startRotate_started (revs : Word64) :
    Stepper.Started p k x w (Stepper.startRotate p k revs x w) := by
  have hrefuse : ∀ st, Stepper.Started p k x w (Stepper.finish k st none x w) := fun st => .inl ⟨st, none, x, rfl⟩
  unfold Stepper.startRotate
  split
  · exact hrefuse _
  · split
    · exact hrefuse _
    · split
      · exact hrefuse _
      · split
        · exact Stepper.startCount_started _
        · exact hrefuse _

theorem Stepper.startSetinterval_started (ms : Word64) (kill : Bool) :
    Stepper.Started p k x w (Stepper.startSetinterval k ms kill x w) := by
  unfold Stepper.startSetinterval
  split
  · exact .inl ⟨_, _, _, rfl⟩
  · split <;> exact .inl ⟨_, _, _, rfl⟩

theorem Stepper.startSetspr_started (v : BitVec 32) : Stepper.Started p k x w (Stepper.startSetspr k v x w) := by
  unfold Stepper.startSetspr
  split <;> exact .inl ⟨_, _, _, rfl⟩

theorem Stepper.startJob_started (hflight : x.flight = none) (j : Job) :
    Stepper.Started p k x w (Stepper.startJob p k j x w) := by
  cases j with
  | illegal => exact .inl ⟨_, _, _, rfl⟩
  | command i =>
    cases i with
    | stSetmode _ m => exact .inl ⟨_, _, _, rfl⟩
    | stSetspr _ v => exact Stepper.startSetspr_started v
    | stSetinterval _ ms kill => exact Stepper.startSetinterval_started ms kill
    | stOnestep _ => exact .inr ⟨_, rfl, rfl, .inr (.inr ⟨_, rfl, Stepper.writes_addrs p x.advance⟩)⟩
    | stOnestepdir _ d =>
      exact .inr ⟨_, rfl, rfl, .inr (.inr ⟨_, rfl, Stepper.writes_addrs p (Stepper.advance { x with dir := d })⟩)⟩
    | stStep _ n => exact Stepper.startCount_started _
    | stRotate _ revs => exact Stepper.startRotate_started revs
    | stGetstep _ => exact .inl ⟨_, _, _, rfl⟩
    | stStop _ => exact Stepper.startStop_started
    | _ => exact .inr ⟨x, rfl, rfl, .inl hflight⟩

/-- A command that starts writes no register. -/
theorem Stepper.Started.log_eq (h : Stepper.Started p k x w r) : r.2.log = w.log := by
  obtain ⟨st, res, y, rfl⟩ | ⟨y, rfl, -, -⟩ := h <;> rfl

/-- A command started and then run to its end. -/
theorem Stepper.Started.ran (h : Stepper.Started p k x w r) :
    w.Ran p (x.addrs p) (Stepper.complete p k r.1 r.2).2 := by
  obtain ⟨st, res, y, rfl⟩ | ⟨y, rfl, haddrs, hf | hf | ⟨todo, hf, htodo⟩⟩ := h
  · rw [Stepper.complete_finish]
    exact Stepper.finish_ran
  · rw [Stepper.complete_none p w hf]
    exact .inl (.of_eq rfl rfl)
  · rw [Stepper.complete, hf, ← haddrs]
    exact Stepper.runLoop_ran p k _ y w
  · obtain ⟨he, -⟩ | ⟨j, hj, -, -, he⟩ := issueWrites_spec p todo w
    all_goals simp only [Stepper.complete, hf, he, if_true, Bool.false_eq_true, if_false]
    · exact Stepper.finish_ran.after ((World.wrote_inTime p todo w).touches htodo) rfl
    · exact (Stepper.stopAndEnd_ran rfl).after (World.failed_touches hj htodo) rfl

theorem Stepper.pace_log (p : Params) (x : Stepper) (w : World) : (x.pace p w).2.log = w.log := by
  unfold Stepper.pace
  split <;> rfl

/-- One atomic action records a write to the stepper's own registers, or the all-stop's, or none. -/
theorem Stepper.turn_records (htodo : ∀ q ∈ x.todo, q.1 ∈ x.addrs p) :
    w.Records (x.addrs p ++ allStopAddrs p) (Stepper.turn p k x w).2 := by
  unfold Stepper.turn
  split
  case h_1 hf =>
    split
    · exact .of_log_eq rfl
    · refine .of_log_eq (Stepper.Started.log_eq (Stepper.startJob_started ?_ _))
      exact hf
  case h_2 => split <;> exact .of_log_eq rfl
  case h_3 q qs paced hf =>
    have hq : [q.1] ⊆ x.addrs p ++ allStopAddrs p := by
      simpa using .inl (htodo q (by simp [Stepper.todo, hf]))
    split <;> exact (World.regWrite_touches p q w).records.mono hq
  case h_4 => exact .of_log_eq rfl
  case h_5 =>
    dsimp only
    split <;> exact .of_log_eq (x.pace_log p w)
  case h_6 => split <;> exact .of_log_eq rfl
  case h_7 => exact (World.allStop_touches p w).records.mono (List.subset_append_right ..)
  case h_8 => exact .of_log_eq rfl

theorem Stepper.Moved.records (h : Stepper.Moved p k x w r) (htodo : ∀ q ∈ x.todo, q.1 ∈ x.addrs p) :
    w.Records (x.addrs p ++ allStopAddrs p) r.2 := by
  obtain ⟨-, rfl⟩ | ⟨j, rfl⟩ | rfl := h
  · exact .of_log_eq rfl
  · exact .of_log_eq rfl
  · exact Stepper.turn_records htodo

end Stepper

/-! Servos. -/

section Servo

variable {x y : Servo} {r : Servo × World} {as : List RegAddr}

/-- `w'` has the registers, the record and the answers of `w`: all that a pulse width's computation leaves (log 14). -/
def World.Quiet (w w' : World) : Prop := w'.log = w.log ∧ w'.regs = w.regs ∧ w'.answers = w.answers

/-- What starting a command can do: it ends at once, or it leaves writes to the servo's own registers to come. -/
def Servo.Started (p : Params) (j : Nat) (x : Servo) (w : World) (r : Servo × World) : Prop :=
  ∃ w', w.Quiet w' ∧ ((∃ st res y, r = Servo.finish j st res y w') ∨
    ∃ y, r = (y, w') ∧ (y.flight = none ∨
      ∃ todo pos, y.flight = some (.writing todo pos) ∧ ∀ q ∈ todo, q.1 ∈ x.addrs p))

/-- A command that ends as it starts. -/
theorem Servo.finish_started (st : Status) (res : Option Word64) (y : Servo) :
    Servo.Started p k x w (Servo.finish k st res y w) :=
  ⟨w, ⟨rfl, rfl, rfl⟩, .inl ⟨st, res, y, rfl⟩⟩

theorem Servo.startWidth_started (ms : Rat) (pos : Option Rat) (hw : w.Quiet w') :
    Servo.Started p k x w (Servo.startWidth p k ms pos x w') := by
  refine ⟨w', hw, ?_⟩
  unfold Servo.startWidth
  split
  · exact .inl ⟨_, _, _, rfl⟩
  · split
    · exact .inl ⟨_, _, _, rfl⟩
    · exact .inr ⟨_, rfl, .inr ⟨_, _, rfl, addrs_of_map_fst (channelWrites_addrs p x.ch 0 _)⟩⟩

theorem Servo.startSetlimits_started (a b c : Word64) :
    Servo.Started p k x w (Servo.startSetlimits k a b c x w) := by
  unfold Servo.startSetlimits
  split
  · split <;> exact Servo.finish_started _ _ _
  · exact Servo.finish_started _ _ _

theorem Servo.startSetrange_started (a b : Word64) : Servo.Started p k x w (Servo.startSetrange k a b x w) := by
  unfold Servo.startSetrange
  split
  · split <;> exact Servo.finish_started _ _ _
  · exact Servo.finish_started _ _ _

theorem Servo.startSetpw_started (ms : Word64) : Servo.Started p k x w (Servo.startSetpw p k ms x w) := by
  unfold Servo.startSetpw
  split
  · exact Servo.finish_started _ _ _
  · exact Servo.startWidth_started _ _ ⟨rfl, rfl, rfl⟩

theorem Servo.startSetpos_started (q : Word64) : Servo.Started p k x w (Servo.startSetpos p k q x w) := by
  unfold Servo.startSetpos
  split
  · exact Servo.finish_started _ _ _
  · split
    · exact Servo.finish_started _ _ _
    · exact Servo.startWidth_started _ _ ⟨rfl, rfl, rfl⟩

theorem Servo.startGetpos_started : Servo.Started p k x w (Servo.startGetpos k x w) := by
  unfold Servo.startGetpos
  split <;> exact Servo.finish_started _ _ _

theorem Servo.startJob_started (hflight : x.flight = none) (job : Job) :
    Servo.Started p k x w (Servo.startJob p k job x w) := by
  cases job with
  | illegal => exact Servo.finish_started _ _ _
  | command i =>
    cases i with
    | svSetlimits _ a b c => exact Servo.startSetlimits_started a b c
    | svSetrange _ a b => exact Servo.startSetrange_started a b
    | svSetpw _ ms => exact Servo.startSetpw_started ms
    | svSetpos _ q => exact Servo.startSetpos_started q
    | svGetpos _ => exact Servo.startGetpos_started
    | _ => exact ⟨w, ⟨rfl, rfl, rfl⟩, .inr ⟨x, rfl, .inl hflight⟩⟩

/-- A command that starts writes no register. -/
theorem Servo.Started.log_eq (h : Servo.Started p k x w r) : r.2.log = w.log := by
  obtain ⟨w', ⟨hlog, -, -⟩, ⟨st, res, y, rfl⟩ | ⟨y, rfl, -⟩⟩ := h <;> exact hlog

/-- A command started and then run to its end. -/
theorem Servo.Started.ran (h : Servo.Started p k x w r) : w.Ran p (x.addrs p) (Servo.complete p k r.1 r.2).2 := by
  obtain ⟨w', ⟨hlog, hregs, hans⟩, hr⟩ := h
  suffices hrun : w'.Ran p (x.addrs p) (Servo.complete p k r.1 r.2).2 from hrun.after (.of_eq hlog hregs) hans
  obtain ⟨st, res, y, rfl⟩ | ⟨y, rfl, hf | ⟨todo, pos, hf, htodo⟩⟩ := hr
  · rw [Servo.complete_finish]
    exact .inl (.of_eq rfl rfl)
  · rw [Servo.complete_none p w' hf]
    exact .inl (.of_eq rfl rfl)
  · obtain ⟨he, -⟩ | ⟨j, hj, -, -, he⟩ := issueWrites_spec p todo w'
    all_goals simp only [Servo.complete, hf, he, if_true, Bool.false_eq_true, if_false]
    · exact .inl (((World.wrote_inTime p todo w').touches htodo).trans (.of_eq rfl rfl))
    · exact (World.allStop_ran rfl).after (World.failed_touches hj htodo) rfl

/-- One atomic action records a write to the servo's own registers, or the all-stop's, or none. -/
theorem Servo.turn_records (htodo : ∀ q ∈ x.todo, q.1 ∈ x.addrs p) :
    w.Records (x.addrs p ++ allStopAddrs p) (Servo.turn p k x w).2 := by
  unfold Servo.turn
  split
  case h_1 hf =>
    split
    · exact .of_log_eq rfl
    · refine .of_log_eq (Servo.Started.log_eq (Servo.startJob_started ?_ _))
      exact hf
  case h_2 q qs pos hf =>
    have hq : [q.1] ⊆ x.addrs p ++ allStopAddrs p := by
      simpa using .inl (htodo q (by simp [Servo.todo, hf]))
    split <;> exact (World.regWrite_touches p q w).records.mono hq
  case h_3 => exact .of_log_eq rfl
  case h_4 => exact (World.allStop_touches p w).records.mono (List.subset_append_right ..)
  case h_5 => exact .of_log_eq rfl

theorem Servo.Moved.records (h : Servo.Moved p k x w r) (htodo : ∀ q ∈ x.todo, q.1 ∈ x.addrs p) :
    w.Records (x.addrs p ++ allStopAddrs p) r.2 := by
  obtain ⟨-, rfl⟩ | ⟨job, rfl⟩ | rfl := h
  · exact .of_log_eq rfl
  · exact .of_log_eq rfl
  · exact Servo.turn_records htodo

end Servo

/-! Decoders: none of their actions writes a register. -/

section Qdec

variable {x : Qdec} {r : Qdec × World}

theorem Qdec.publish_touches {as bs : List RegAddr} (p : Params) (x : Qdec) (w : World) :
    w.Touches as bs (x.publish p w).2 := by
  unfold Qdec.publish
  dsimp only
  split <;> exact .of_eq rfl rfl

theorem Qdec.poll_touches {as bs : List RegAddr} (p : Params) (x : Qdec) (w : World) :
    w.Touches as bs (x.poll p w).2 := by
  have hlines : w.Touches as bs w.afterLine.afterLine := .of_eq rfl rfl
  exact hlines.trans (Qdec.publish_touches p _ _)

theorem Qdec.finish_touches {as bs : List RegAddr} {st : Status} {res : Option Word64} (hw : w.Touches as bs w') :
    w.Touches as bs (Qdec.finish k st res x w').2 :=
  hw.trans (.of_eq rfl rfl)

theorem Qdec.startJob_touches {as bs : List RegAddr} (p : Params) (k : Nat) (j : Job) (x : Qdec) (w : World) :
    w.Touches as bs (Qdec.startJob p k j x w).2 := by
  have hend : ∀ st res y, w.Touches as bs (Qdec.finish k st res y w).2 := fun _ _ _ =>
    Qdec.finish_touches (.of_eq rfl rfl)
  cases j with
  | illegal => exact hend _ _ _
  | command i =>
    cases i with
    | qdPoll _ => exact Qdec.finish_touches (x.poll_touches p w)
    | qdGetpos _ =>
      simp only [Qdec.startJob, Qdec.startGetpos]
      split <;> exact hend _ _ _
    | qdGetderiv _ window =>
      simp only [Qdec.startJob, Qdec.startGetderiv]
      split
      · exact hend _ _ _
      · split
        · exact hend _ _ _
        · split
          · exact hend _ _ _
          · split <;> exact Qdec.finish_touches (.of_eq rfl rfl)
    | qdReset _ => exact hend _ _ _
    | _ => exact .of_eq rfl rfl

theorem Qdec.turn_touches {as bs : List RegAddr} (p : Params) (k : Nat) (x : Qdec) (w : World) :
    w.Touches as bs (Qdec.turn p k x w).2 := by
  unfold Qdec.turn
  split
  · exact .of_eq rfl rfl
  · exact Qdec.startJob_touches p k _ _ w

theorem Qdec.Moved.touches {as bs : List RegAddr} (h : Qdec.Moved p k x w r) : w.Touches as bs r.2 := by
  obtain ⟨-, rfl⟩ | ⟨j, rfl⟩ | rfl | rfl := h
  · exact Qdec.finish_touches (.of_eq rfl rfl)
  · exact .of_eq rfl rfl
  · exact x.turn_touches p k w
  · exact x.poll_touches p w

end Qdec

end Sys2Proof.Machine
end

section
/-! PROOFS. The registers of the block (20_memory.md R61, R71): what a command and a step can write, and what
they leave alone. -/

namespace Sys2Proof.Machine

section

variable {s t : State} {k : Nat}

theorem State.addrsOf_stepper {x : Stepper} (h : s.stepper k = some x) :
    s.addrsOf ⟨.stepper, k⟩ = x.addrs s.params := by
  simp [State.addrsOf, h]

theorem State.addrsOf_servo {x : Servo} (h : s.servo k = some x) : s.addrsOf ⟨.servo, k⟩ = x.addrs s.params := by
  simp [State.addrsOf, h]

/-- The all-channels registers are the block's to write. -/
theorem State.allStopAddrs_subset_blockAddrs (s : State) : allStopAddrs s.params ⊆ s.blockAddrs :=
  List.Subset.trans (List.subset_append_right ..) (List.subset_append_right ..)

/-- So are the registers of a bound stepper. -/
theorem State.stepper_addrs_subset_blockAddrs {x : Stepper} (h : s.stepper k = some x) :
    x.addrs s.params ⊆ s.blockAddrs := fun _ ha =>
  List.mem_append_left _ (List.mem_flatMap.mpr ⟨some x, State.stepper_mem h, ha⟩)

/-- So are the registers of a bound servo. -/
theorem State.servo_addrs_subset_blockAddrs {x : Servo} (h : s.servo k = some x) :
    x.addrs s.params ⊆ s.blockAddrs := fun _ ha =>
  List.mem_append_right _ (List.mem_append_left _ (List.mem_flatMap.mpr ⟨some x, State.servo_mem h, ha⟩))

/-- The registers of an instance, bound or not, are the block's to write. -/
theorem State.addrsOf_subset_blockAddrs (s : State) (who : Target) : s.addrsOf who ⊆ s.blockAddrs := by
  unfold State.addrsOf
  split
  · split
    · exact State.stepper_addrs_subset_blockAddrs ‹_›
    · exact List.nil_subset _
  · split
    · exact State.servo_addrs_subset_blockAddrs ‹_›
    · exact List.nil_subset _
  · exact List.nil_subset _

/-- A command touches the registers of the instance it addresses, and the all-stop's where its answer says so. -/
theorem exec_ran {i : Instr} (h : exec i s = .next t) : s.world.Ran s.params (s.addrsOf i.target) t.world := by
  obtain ⟨-, ⟨-, rfl⟩ | ⟨k, x, hi, hx, hr⟩ | ⟨j, x, hi, hx, hr⟩ | ⟨d, x, hi, hx, hr⟩⟩ := exec_next h
  · exact .inl (.of_eq rfl rfl)
  · rw [hi, State.addrsOf_stepper hx]
    obtain ⟨-, rfl⟩ | ⟨hfree, rfl⟩ := hr
    · exact .inl (.of_eq rfl rfl)
    · exact (Stepper.startJob_started (Stepper.free_flight hfree) _).ran
  · rw [hi, State.addrsOf_servo hx]
    obtain ⟨-, rfl⟩ | ⟨hfree, rfl⟩ := hr
    · exact .inl (.of_eq rfl rfl)
    · exact (Servo.startJob_started (Servo.free_flight hfree) _).ran
  · obtain ⟨-, rfl⟩ | ⟨-, rfl⟩ := hr
    · exact .inl (.of_eq rfl rfl)
    · exact .inl (Qdec.startJob_touches _ _ _ _ _)

/-- What a move records: the writes the block may issue. -/
theorem State.Move.records (hm : s.Move t) (h : s.Inv) : s.world.Records s.blockAddrs t.world := by
  have hall := s.allStopAddrs_subset_blockAddrs
  have hstop : s.world.Records s.blockAddrs (s.world.allStop s.params) :=
    (World.allStop_touches s.params s.world).records.mono hall
  cases hm with
  | command i ht => exact (exec_ran ht).records.mono (List.append_subset.mpr ⟨s.addrsOf_subset_blockAddrs _, hall⟩)
  | nobody => exact .of_log_eq rfl
  | stepper k hx hr =>
    exact (hr.records (h.stepper hx).todo_addrs).mono
      (List.append_subset.mpr ⟨State.stepper_addrs_subset_blockAddrs hx, hall⟩)
  | servo j hx hr =>
    obtain ⟨-, -, htodo⟩ := h.servo hx
    exact (hr.records htodo).mono (List.append_subset.mpr ⟨State.servo_addrs_subset_blockAddrs hx, hall⟩)
  | qdec d hx hr => exact (hr.touches (bs := [])).records
  | shutdown => exact hstop
  | setFreq _ => exact .of_log_eq rfl
  | outsideWrite _ _ => exact .of_log_eq rfl
  | outsideAllStop => exact hstop

/-- A step of a block that is not halted takes the next move. -/
theorem step_eq_takeEvent (hrun : s.halted = false) {e : Event} (he : s.nextEvent = e) :
    step s = takeEvent e s.afterEvent := by
  simp [step, hrun, he]

end

/-- Settles O12: a step is a move of the state with that move taken off the schedule, which has the same registers, and what a
move records is writes to the block's own. -/
theorem blockWritesOnlyItsRegisters : Obligations.BlockWritesOnlyItsRegisters := by
  intro s t h hstep
  obtain ⟨-, hmove⟩ := step_next hstep
  exact hmove.records h

/-- Settles O15: a command touches its instance's registers, and those the all-stop reaches where it answers that it sent one;
each move of others is the update it names, or refused by the check on its operand. -/
theorem registersOutsideTheChannelsKeep : Obligations.RegistersOutsideTheChannelsKeep := by
  refine ⟨fun i s t a h ha hstop => (exec_ran h).keeps ha hstop, fun s hrun => ⟨?write, ?allStop, ?freq⟩⟩
  case write =>
    intro a b he
    rw [step_eq_takeEvent hrun he, takeEvent]
    refine ⟨fun ha => if_pos ha, fun ha => ⟨Memory.write s.world.regs a.toNat b, if_neg ha, ?_, ?_⟩⟩
    · exact Memory.read_write_same _ _ _
    · exact fun a' ha' => Memory.read_write_other _ ha'.symm _
  case allStop =>
    intro he
    rw [step_eq_takeEvent hrun he]
    rfl
  case freq =>
    intro hz he
    rw [step_eq_takeEvent hrun he, takeEvent]
    refine ⟨fun hlow hhigh => if_pos (by simp [freqLegal, hlow, hhigh]), fun hout => if_neg ?_⟩
    simpa [freqLegal, imp_iff_not_or] using hout

end Sys2Proof.Machine
end

section
/-! PROOFS. Uninterrupted execution by single turns (20_memory.md R74, R77): a command in flight reaches its end by turns of its
instance, and a command sent to an instance waits there until one. -/

namespace Sys2Proof.Machine

variable {p : Params} {k : Nat} {w : World}

/-! Steppers. -/

section Stepper

variable {x : Stepper}

/-- One turn of a stepper goes from `a` to `b`. -/
def Stepper.Turn (p : Params) (k : Nat) (a b : Stepper × World) : Prop := Stepper.turn p k a.1 a.2 = b

/-- Turns of a stepper, any number of them, go from `a` to `b`. -/
abbrev Stepper.Turns (p : Params) (k : Nat) : Stepper × World → Stepper × World → Prop :=
  Relation.ReflTransGen (Stepper.Turn p k)

/-- The all-stop and the end of a command are two turns. -/
theorem Stepper.stopping_turns (st : Status) (x : Stepper) (w : World) :
    Stepper.Turns p k ({ x with flight := some (.stopping st) }, w) (Stepper.finish k st none x (w.allStop p)) :=
  .head rfl (.single rfl)

/-- So are those of a command that failed and left RUN idle. -/
theorem Stepper.stopAndEnd_turns (st : Status) (x : Stepper) (w : World) :
    Stepper.Turns p k ({ x with run := .idle, flight := some (.stopping st) }, w) (Stepper.stopAndEnd p k st x w) :=
  Stepper.stopping_turns st { x with run := .idle } w

/-- Writes are issued one by one: all of them, or up to the first that fails, and then the command stops. -/
theorem Stepper.writing_turns {todo : List RegW} {paced : Bool} (hf : x.flight = some (.writing todo paced)) (w : World) :
    Stepper.Turns p k (x, w)
      (if (issueWrites p todo w).1 then ({ x with flight := some (.writing [] paced) }, (issueWrites p todo w).2)
      else Stepper.stopAndEnd p k .busError x (issueWrites p todo w).2) := by
  induction todo generalizing x w with
  | nil =>
    simp only [issueWrites, if_true, ← hf]
    exact .refl
  | cons r rs ih =>
    rw [issueWrites]
    by_cases hok : w.busNext = .ok
    · have hturn : Stepper.Turn p k (x, w) ({ x with flight := some (.writing rs paced) }, w.regWrite p r) := by
        simp [Stepper.Turn, Stepper.turn, hf, hok]
      rw [if_pos hok]
      exact .head hturn (ih (x := { x with flight := some (.writing rs paced) }) rfl _)
    · have hturn : Stepper.Turn p k (x, w)
          ({ x with run := .idle, flight := some (.stopping .busError) }, w.regWrite p r) := by
        simp [Stepper.Turn, Stepper.turn, hf, hok]
      rw [if_neg hok]
      exact .head hturn (Stepper.stopAndEnd_turns _ x _)

/-- A stepper with its writes issued, and a paced step's deadline to check (40_stepper.md R138). -/
theorem Stepper.turn_pace (p : Params) (k : Nat) (x : Stepper) (w : World) :
    Stepper.turn p k { x with flight := some (.writing [] true) } w =
      match (x.pace p w).1 with
      | .onward => (x.stepDone, (x.pace p w).2)
      | .late => ({ x with run := .idle, flight := some (.stopping .timingError) }, (x.pace p w).2)
      | .sleep wakeAt => ({ x with flight := some (.sleeping wakeAt) }, (x.pace p w).2) := rfl

/-- A paced step from its writes on, where the rest of the run goes by turns. -/
theorem Stepper.finishPaced_turns {rest : Stepper → World → Stepper × World} {todo : List RegW}
    (hf : x.flight = some (.writing todo true)) (hrest : ∀ v, Stepper.Turns p k (x.stepDone, v) (rest x.stepDone v)) :
    Stepper.Turns p k (x, w) (Stepper.finishPaced p k rest todo x w) := by
  refine (Stepper.writing_turns hf w).trans ?_
  unfold Stepper.finishPaced
  dsimp only
  split
  case isFalse => exact .refl
  case isTrue =>
    generalize (issueWrites p todo w).2 = v
    have hturn := Stepper.turn_pace p k x v
    split
    case h_1 hd =>
      simp only [hd] at hturn
      exact .head hturn (hrest _)
    case h_2 hd =>
      simp only [hd] at hturn
      exact .head hturn (Stepper.stopAndEnd_turns _ x _)
    case h_3 wakeAt hd =>
      simp only [hd] at hturn
      refine .head hturn ?_
      split
      · rename_i hwake
        have hwoken : Stepper.Turn p k ({ x with flight := some (.sleeping wakeAt) }, (x.pace p v).2)
            (x.stepDone, (x.pace p v).2.wake wakeAt) := if_pos hwake
        exact .head hwoken (hrest _)
      · exact .refl

theorem Stepper.runLoop_turns {n : Nat} (hf : x.flight = some .stepping) (hn : x.remaining = n) (w : World) :
    Stepper.Turns p k (x, w) (Stepper.runLoop p k n x w) := by
  induction n generalizing x w with
  | zero => exact .single (by simp [Stepper.Turn, Stepper.turn, hf, hn, Stepper.runLoop])
  | succ n ih =>
    have hbegin : Stepper.Turn p k (x, w) (Stepper.beginPaced p x w) := by
      simp [Stepper.Turn, Stepper.turn, hf, hn]
    have hleft : (Stepper.beginPaced p x w).1.stepDone.remaining = n := by
      rw [Stepper.stepDone_remaining, show (Stepper.beginPaced p x w).1.remaining = x.remaining from rfl, hn,
        Nat.add_sub_cancel]
    exact .head hbegin (Stepper.finishPaced_turns rfl fun v => ih rfl hleft v)

/-- Turns run a command in flight, wherever it stands, to its end. -/
theorem Stepper.complete_turns (p : Params) (k : Nat) (x : Stepper) (w : World) :
    Stepper.Turns p k (x, w) (Stepper.complete p k x w) := by
  unfold Stepper.complete
  split
  case h_1 => exact .refl
  case h_2 hf => exact Stepper.runLoop_turns hf rfl w
  case h_3 todo hf => exact Stepper.finishPaced_turns hf fun v => Stepper.runLoop_turns rfl rfl v
  case h_4 todo hf =>
    refine (Stepper.writing_turns hf w).trans ?_
    dsimp only
    split
    · exact .single rfl
    · exact .refl
  case h_5 wakeAt hf =>
    split
    · rename_i hwake
      have hwoken : Stepper.Turn p k (x, w) (x.stepDone, w.wake wakeAt) := by
        simp [Stepper.Turn, Stepper.turn, hf, hwake]
      exact .head hwoken (Stepper.runLoop_turns rfl rfl _)
    · exact .refl
  case h_6 st hf =>
    rw [show x = { x with flight := some (.stopping st) } by rw [← hf]]
    exact Stepper.stopping_turns st x w
  case h_7 st hf => exact .single (by simp [Stepper.Turn, Stepper.turn, hf])

/-- A command to a free stepper, once it waits there, is taken up and run to its end by turns. -/
theorem Stepper.enqueue_turns (hfree : x.free = true) (j : Job) (w : World) :
    Stepper.Turns p k ({ x with ctl := x.ctl.enqueue j }, w)
      (Stepper.complete p k (Stepper.startJob p k j x w).1 (Stepper.startJob p k j x w).2) := by
  have hstart : Stepper.Turn p k ({ x with ctl := x.ctl.enqueue j }, w) (Stepper.startJob p k j x w) := by
    obtain ⟨hflight, hwait⟩ : x.flight = none ∧ x.ctl.waiting = [] := by simpa [Stepper.free] using hfree
    obtain ⟨mode, step, dir, interval, kill, spr, run, coils, ⟨status, result, written, waiting⟩, flight⟩ := x
    obtain rfl : flight = none := hflight
    obtain rfl : waiting = [] := hwait
    rfl
  exact .head hstart (Stepper.complete_turns p k _ _)

end Stepper

/-! Servos. -/

section Servo

variable {x : Servo}

/-- One turn of a servo goes from `a` to `b`. -/
def Servo.Turn (p : Params) (j : Nat) (a b : Servo × World) : Prop := Servo.turn p j a.1 a.2 = b

/-- Turns of a servo, any number of them, go from `a` to `b`. -/
abbrev Servo.Turns (p : Params) (j : Nat) : Servo × World → Servo × World → Prop :=
  Relation.ReflTransGen (Servo.Turn p j)

/-- The all-stop and the end of a command are two turns. -/
theorem Servo.stopping_turns (st : Status) (x : Servo) (w : World) :
    Servo.Turns p k ({ x with flight := some (.stopping st) }, w) (Servo.finish k st none x (w.allStop p)) :=
  .head rfl (.single rfl)

/-- Writes are issued one by one: all of them, and the position is committed, or up to the first that fails. -/
theorem Servo.writing_turns {todo : List RegW} {pos : Option Rat} (hf : x.flight = some (.writing todo pos)) (w : World) :
    Servo.Turns p k (x, w)
      (if (issueWrites p todo w).1 then Servo.commit k pos x (issueWrites p todo w).2
      else Servo.finish k .busError none x ((issueWrites p todo w).2.allStop p)) := by
  induction todo generalizing x w with
  | nil => exact .single (by simp [Servo.Turn, Servo.turn, hf, issueWrites])
  | cons r rs ih =>
    rw [issueWrites]
    by_cases hok : w.busNext = .ok
    · have hturn : Servo.Turn p k (x, w) ({ x with flight := some (.writing rs pos) }, w.regWrite p r) := by
        simp [Servo.Turn, Servo.turn, hf, hok]
      rw [if_pos hok]
      exact .head hturn (ih (x := { x with flight := some (.writing rs pos) }) rfl _)
    · have hturn : Servo.Turn p k (x, w) ({ x with flight := some (.stopping .busError) }, w.regWrite p r) := by
        simp [Servo.Turn, Servo.turn, hf, hok]
      rw [if_neg hok]
      exact .head hturn (Servo.stopping_turns _ x _)

/-- Turns run a command in flight, wherever it stands, to its end. -/
theorem Servo.complete_turns (p : Params) (j : Nat) (x : Servo) (w : World) :
    Servo.Turns p j (x, w) (Servo.complete p j x w) := by
  unfold Servo.complete
  split
  case h_1 => exact .refl
  case h_2 todo pos hf => exact Servo.writing_turns hf w
  case h_3 st hf =>
    rw [show x = { x with flight := some (.stopping st) } by rw [← hf]]
    exact Servo.stopping_turns st x w
  case h_4 st hf => exact .single (by simp [Servo.Turn, Servo.turn, hf])

/-- A command to a free servo, once it waits there, is taken up and run to its end by turns. -/
theorem Servo.enqueue_turns (hfree : x.free = true) (job : Job) (w : World) :
    Servo.Turns p k ({ x with ctl := x.ctl.enqueue job }, w)
      (Servo.complete p k (Servo.startJob p k job x w).1 (Servo.startJob p k job x w).2) := by
  have hstart : Servo.Turn p k ({ x with ctl := x.ctl.enqueue job }, w) (Servo.startJob p k job x w) := by
    obtain ⟨hflight, hwait⟩ : x.flight = none ∧ x.ctl.waiting = [] := by simpa [Servo.free] using hfree
    obtain ⟨limits, minX, maxX, pos, ch, ⟨status, result, written, waiting⟩, flight⟩ := x
    obtain rfl : flight = none := hflight
    obtain rfl : waiting = [] := hwait
    rfl
  exact .head hstart (Servo.complete_turns p k _ _)

end Servo

/-! Decoders: a command is one turn. -/

theorem Qdec.turn_enqueue {x : Qdec} (hfree : x.free = true) (j : Job) (w : World) :
    Qdec.turn p k { x with ctl := x.ctl.enqueue j } w = Qdec.startJob p k j x w := by
  have hwait : x.ctl.waiting = [] := by simpa [Qdec.free] using hfree
  obtain ⟨gray, pos, lastT, lastPos, ring, head, count, offset, pinA, pinB, ⟨status, result, written, waiting⟩⟩ := x
  obtain rfl : waiting = [] := hwait
  rfl

/-! The state. -/

section

variable {s : State}

theorem State.sendJob_stepper {x : Stepper} (h : s.stepper k = some x) (j : Job) :
    s.sendJob ⟨.stepper, k⟩ j = s.putStepper k ({ x with ctl := x.ctl.enqueue j }, s.world) := by
  simp [State.sendJob, h]

theorem State.sendJob_servo {x : Servo} (h : s.servo k = some x) (j : Job) :
    s.sendJob ⟨.servo, k⟩ j = s.putServo k ({ x with ctl := x.ctl.enqueue j }, s.world) := by
  simp [State.sendJob, h]

theorem State.sendJob_qdec {x : Qdec} (h : s.qdec k = some x) (j : Job) :
    s.sendJob ⟨.qdec, k⟩ j = s.putQdec k ({ x with ctl := x.ctl.enqueue j }, s.world) := by
  simp [State.sendJob, h]

theorem State.putStepper_putStepper (s : State) (k : Nat) (a b : Stepper × World) :
    (s.putStepper k a).putStepper k b = s.putStepper k b := by
  simp [State.putStepper]

theorem State.putServo_putServo (s : State) (j : Nat) (a b : Servo × World) :
    (s.putServo j a).putServo j b = s.putServo j b := by
  simp [State.putServo]

theorem State.putQdec_putQdec (s : State) (d : Nat) (a b : Qdec × World) :
    (s.putQdec d a).putQdec d b = s.putQdec d b := by
  simp [State.putQdec]

/-- A turn of the stepper just put back. -/
theorem State.turnOf_putStepper {x : Stepper} (h : s.stepper k = some x) (a : Stepper × World) :
    (s.putStepper k a).turnOf ⟨.stepper, k⟩ = some (s.putStepper k (Stepper.turn s.params k a.1 a.2)) := by
  simp [State.turnOf, State.putStepper_same h, State.putStepper_putStepper]

/-- A turn of the servo just put back. -/
theorem State.turnOf_putServo {x : Servo} (h : s.servo k = some x) (a : Servo × World) :
    (s.putServo k a).turnOf ⟨.servo, k⟩ = some (s.putServo k (Servo.turn s.params k a.1 a.2)) := by
  simp [State.turnOf, State.putServo_same h, State.putServo_putServo]

/-- A turn of the decoder just put back. -/
theorem State.turnOf_putQdec {x : Qdec} (h : s.qdec k = some x) (a : Qdec × World) :
    (s.putQdec k a).turnOf ⟨.qdec, k⟩ = some (s.putQdec k (Qdec.turn s.params k a.1 a.2)) := by
  simp [State.turnOf, State.putQdec_same h, State.putQdec_putQdec]

/-- Turns of a bound stepper are turns of the state. -/
theorem Stepper.Turns.state {x : Stepper} {a b : Stepper × World} (h : Stepper.Turns s.params k a b)
    (hx : s.stepper k = some x) : ∃ n, State.turns ⟨.stepper, k⟩ n (s.putStepper k a) = some (s.putStepper k b) := by
  induction h using Relation.ReflTransGen.head_induction_on with
  | refl => exact ⟨0, rfl⟩
  | head hturn _ ih =>
    obtain ⟨n, hn⟩ := ih
    exact ⟨n + 1, by rw [State.turns, State.turnOf_putStepper hx, hturn, Option.bind_some, hn]⟩

/-- Turns of a bound servo are turns of the state. -/
theorem Servo.Turns.state {x : Servo} {a b : Servo × World} (h : Servo.Turns s.params k a b)
    (hx : s.servo k = some x) : ∃ n, State.turns ⟨.servo, k⟩ n (s.putServo k a) = some (s.putServo k b) := by
  induction h using Relation.ReflTransGen.head_induction_on with
  | refl => exact ⟨0, rfl⟩
  | head hturn _ ih =>
    obtain ⟨n, hn⟩ := ih
    exact ⟨n + 1, by rw [State.turns, State.turnOf_putServo hx, hturn, Option.bind_some, hn]⟩

end

theorem State.bound_of_freeAt {s : State} {who : Target} (h : s.freeAt who = true) : s.bound who = true := by
  unfold State.freeAt at h
  unfold State.bound
  split at h <;> exact Option.isSome_of_any h

/-- Settles O19: the command's own operation finds the instance bound and not free, and puts it where sending would. -/
theorem busyInstanceMakesACommandWait : Obligations.BusyInstanceMakesACommandWait := by
  intro i s hrun hbound hbusy
  rw [exec_eq]
  generalize i.target = who at hbound hbusy ⊢
  obtain ⟨kind, k⟩ := who
  cases kind with
  | stepper =>
    obtain ⟨x, hx⟩ := Option.isSome_iff_exists.mp hbound
    have hfree : x.free = false := by simpa [State.freeAt, hx] using hbusy
    rw [State.sendJob_stepper hx]
    refine ⟨stepperCommand_waits hrun hx hfree, rfl, State.putStepper_sameBut s k _, ?atStepper, ?atServo, ?atQdec⟩
    case atStepper =>
      rintro _ y ⟨⟩ hy
      obtain rfl : x = y := Option.some.inj (hx.symm.trans hy)
      exact State.putStepper_same hx _
    case atServo | atQdec => rintro _ _ ⟨⟩
  | servo =>
    obtain ⟨x, hx⟩ := Option.isSome_iff_exists.mp hbound
    have hfree : x.free = false := by simpa [State.freeAt, hx] using hbusy
    rw [State.sendJob_servo hx]
    refine ⟨servoCommand_waits hrun hx hfree, rfl, State.putServo_sameBut s k _, ?atStepper, ?atServo, ?atQdec⟩
    case atServo =>
      rintro _ y ⟨⟩ hy
      obtain rfl : x = y := Option.some.inj (hx.symm.trans hy)
      exact State.putServo_same hx _
    case atStepper | atQdec => rintro _ _ ⟨⟩
  | qdec =>
    obtain ⟨x, hx⟩ := Option.isSome_iff_exists.mp hbound
    have hfree : x.free = false := by simpa [State.freeAt, hx] using hbusy
    rw [State.sendJob_qdec hx]
    refine ⟨qdecCommand_waits hrun hx hfree, rfl, State.putQdec_sameBut s k _, ?atStepper, ?atServo, ?atQdec⟩
    case atQdec =>
      rintro _ y ⟨⟩ hy
      obtain rfl : x = y := Option.some.inj (hx.symm.trans hy)
      exact State.putQdec_same hx _
    case atStepper | atServo => rintro _ _ ⟨⟩

/-- Settles O20: sending puts the command behind none, one turn takes it up, and turns run it to its end. -/
theorem turnsReachWhatExecReaches : Obligations.TurnsReachWhatExecReaches := by
  intro i s t hfree h
  obtain ⟨-, ⟨hn, rfl⟩ | ⟨k, x, hi, hx, hr⟩ | ⟨j, x, hi, hx, hr⟩ | ⟨d, x, hi, hx, hr⟩⟩ := exec_next h
  · simp [State.bound_of_freeAt hfree] at hn
  · rw [hi, State.sendJob_stepper hx]
    have hfree : x.free = true := by simpa [hi, State.freeAt, hx] using hfree
    obtain ⟨hbusy, -⟩ | ⟨-, rfl⟩ := hr
    · simp [hfree] at hbusy
    · exact (Stepper.enqueue_turns hfree _ _).state hx
  · rw [hi, State.sendJob_servo hx]
    have hfree : x.free = true := by simpa [hi, State.freeAt, hx] using hfree
    obtain ⟨hbusy, -⟩ | ⟨-, rfl⟩ := hr
    · simp [hfree] at hbusy
    · exact (Servo.enqueue_turns hfree _ _).state hx
  · rw [hi, State.sendJob_qdec hx]
    have hfree : x.free = true := by simpa [hi, State.freeAt, hx] using hfree
    obtain ⟨hbusy, -⟩ | ⟨-, rfl⟩ := hr
    · simp [hfree] at hbusy
    · exact ⟨1, by rw [State.turns, State.turnOf_putQdec hx, Qdec.turn_enqueue hfree]; rfl⟩

end Sys2Proof.Machine
end

section
/-! PROOFS. The command encoding (30_encoding.md R90 to R96, R102, R103): a field read back is the field written, a header's three
parts are its digits, and so decoding and encoding undo each other. -/

namespace Sys2Proof

/-! Fields (R91, R92): reading what was written. -/

theorem leNat_lt (bs : List Byte) : leNat bs < 256 ^ bs.length := by
  induction bs with
  | nil => exact Nat.one_pos
  | cons b bs ih =>
    have hb : b.toNat < 256 := b.isLt
    rw [leNat, List.length_cons, Nat.pow_succ]
    omega

theorem field_lt (p : List Byte) (off len : Nat) : field p off len < 256 ^ len :=
  (leNat_lt _).trans_le (Nat.pow_le_pow_right (by decide) (List.length_take_le _ _))

theorem field_leBytes {n v : Nat} (h : v < 256 ^ n) : field (leBytes n v) 0 n = v := by
  rw [field, List.drop_zero, List.take_of_length_le (leBytes_length n v).le, leNat_leBytes, Nat.mod_eq_of_lt h]

theorem field32_leBytes (v : BitVec 32) : BitVec.ofNat 32 (field (leBytes 4 v.toNat) 0 4) = v := by
  rw [field_leBytes v.isLt, BitVec.ofNat_toNat, BitVec.setWidth_eq]

theorem field64_leBytes (v : Word64) : field64 (leBytes 8 v.toNat) 0 = v := by
  rw [field64, field_leBytes v.isLt, BitVec.ofNat_toNat, BitVec.setWidth_eq]

/-- Bytes before a field are skipped. -/
theorem field_append_right {q p : List Byte} {off len : Nat} (h : q.length ≤ off) :
    field (q ++ p) off len = field p (off - q.length) len := by
  rw [field, field, List.drop_append, List.drop_eq_nil_of_le h, List.nil_append]

/-- Bytes after a field are ignored. -/
theorem field_append_left {q p : List Byte} {off len : Nat} (h : off + len ≤ q.length) :
    field (q ++ p) off len = field q off len := by
  rw [field, field, List.drop_append_of_le_length (by omega), List.take_append_of_le_length (by simp; omega)]

theorem field64_append_right {q p : List Byte} {off : Nat} (h : q.length ≤ off) :
    field64 (q ++ p) off = field64 p (off - q.length) := by
  rw [field64, field_append_right h, field64]

theorem field64_append_left {q p : List Byte} {off : Nat} (h : off + 8 ≤ q.length) :
    field64 (q ++ p) off = field64 q off := by
  rw [field64, field_append_left h, field64]

/-! Fields: writing what was read. -/

theorem leBytes_leNat (bs : List Byte) : leBytes bs.length (leNat bs) = bs := by
  induction bs with
  | nil => rfl
  | cons b bs ih =>
    have hb : b.toNat < 256 := b.isLt
    have hlow : BitVec.ofNat 8 (b.toNat + 256 * leNat bs) = b := by
      apply BitVec.eq_of_toNat_eq
      rw [BitVec.toNat_ofNat]
      omega
    rw [leNat, List.length_cons, leBytes, hlow, show (b.toNat + 256 * leNat bs) / 256 = leNat bs by omega, ih]

theorem leBytes_field {p : List Byte} {off len : Nat} (h : off + len ≤ p.length) :
    leBytes len (field p off len) = (p.drop off).take len := by
  have hlen : ((p.drop off).take len).length = len := by simp; omega
  simpa only [field, hlen] using leBytes_leNat ((p.drop off).take len)

/-- A field written back before the rest of its payload. -/
theorem leBytes_field_append {p : List Byte} {off len next : Nat} (hnext : off + len = next) (h : next ≤ p.length) :
    leBytes len (field p off len) ++ p.drop next = p.drop off := by
  rw [leBytes_field (by omega), ← hnext, ← List.drop_drop, List.take_append_drop]

/-- The last field of a payload written back. -/
theorem leBytes_field_last {p : List Byte} {off len : Nat} (h : off + len = p.length) :
    leBytes len (field p off len) = p.drop off := by
  simpa using leBytes_field_append h le_rfl

theorem field32_toNat (p : List Byte) (off : Nat) : (BitVec.ofNat 32 (field p off 4)).toNat = field p off 4 := by
  rw [BitVec.toNat_ofNat]
  exact Nat.mod_eq_of_lt (field_lt p off 4)

theorem field64_toNat (p : List Byte) (off : Nat) : (field64 p off).toNat = field p off 8 := by
  rw [field64, BitVec.toNat_ofNat]
  exact Nat.mod_eq_of_lt (field_lt p off 8)

/-! Enums (R93). -/

theorem modeOf_eq_ok {n : Nat} {m : Mode} : modeOf n = .ok m ↔ m.code = n := by
  unfold modeOf
  split <;> cases m <;> simp_all [Mode.code, eq_comm]

theorem dirOf_eq_ok {n : Nat} {d : Dir} : dirOf n = .ok d ↔ d.code = n := by
  unfold dirOf
  split <;> cases d <;> simp_all [Dir.code, eq_comm]

theorem killOf_eq_ok {n : Nat} {b : Bool} : killOf n = .ok b ↔ b.toNat = n := by
  unfold killOf
  split <;> cases b <;> simp_all [eq_comm]

theorem Mode.code_lt (m : Mode) : m.code < 256 := by cases m <;> decide

theorem Dir.code_lt (d : Dir) : d.code < 256 := by cases d <;> decide

theorem modeOf_field (m : Mode) : modeOf (field (leBytes 1 m.code) 0 1) = .ok m := by
  rw [field_leBytes m.code_lt, modeOf_eq_ok]

theorem dirOf_field (d : Dir) : dirOf (field (leBytes 1 d.code) 0 1) = .ok d := by
  rw [field_leBytes d.code_lt, dirOf_eq_ok]

theorem killOf_field (b : Bool) : killOf (field (leBytes 1 b.toNat) 0 1) = .ok b := by
  rw [field_leBytes (b.toNat_lt.trans (by decide)), killOf_eq_ok]

theorem ok_of_map_eq_ok {ε α β : Type} {f : α → β} {x : Except ε α} {b : β} (h : x.map f = .ok b) :
    ∃ a, x = .ok a ∧ f a = b := by
  cases x with
  | error e => cases h
  | ok a => exact ⟨a, rfl, Except.ok.inj h⟩

/-! Payloads (R95, R96). -/

/-- A command's row is as long as its payload: the law of the frame's length, one for each command. -/
theorem payloadBytes_of_instr (i : Instr) : payloadBytes i.target.kind.code i.op = .ok i.payload.length := by
  obtain ⟨n, hn, hlen⟩ : Laws.FrameLength.Statement i := by
    open Laws.FrameLength in
    cases i
    exacts [stSetmode _ _, stSetspr _ _, stSetinterval _ _ _, stOnestep _, stOnestepdir _ _, stStep _ _, stRotate _ _,
      stGetstep _, stStop _, svSetlimits _ _ _ _, svSetrange _ _ _, svSetpw _ _, svSetpos _ _, svGetpos _, qdPoll _,
      qdGetpos _, qdGetderiv _ _, qdReset _]
  obtain rfl : i.payload.length = n := by
    rw [encode, List.length_append, leBytes_length] at hlen
    omega
  exact hn

/-- A command's payload decodes, in the command's row, to the command. -/
theorem decodePayload_payload (i : Instr) :
    decodePayload i.target.kind.code i.op i.target.inst i.payload = .ok i := by
  cases i <;> simp [decodePayload, Instr.target, UnitKind.code, Instr.op, Instr.payload, Except.map, leBytes_length,
    field_append_right, field64_append_right, field64_append_left, field64_leBytes, field32_leBytes, modeOf_field,
    dirOf_field, killOf_field]

/-- The command read from a payload of its row's length is of that row, and keeps every byte of the payload. -/
theorem decodePayload_eq_ok {u op k n : Nat} {p : List Byte} {i : Instr} (hn : payloadBytes u op = .ok n)
    (hp : p.length = n) (h : decodePayload u op k p = .ok i) :
    i.target.kind.code = u ∧ i.op = op ∧ i.target.inst = k ∧ i.payload = p := by
  have hnil : p.length = 0 → p = [] := List.eq_nil_of_length_eq_zero
  unfold decodePayload at h
  split at h
  case h_4 => cases h
  all_goals split at h
  -- The rows with an enum field, whose value R93 must list: ST.SETMODE, ST.SETINTERVAL and ST.ONESTEPDIR.
  case' h_1 =>
    obtain ⟨m, hm, h⟩ := ok_of_map_eq_ok h
    rw [modeOf_eq_ok] at hm
  case' h_3 =>
    obtain ⟨b, hb, h⟩ := ok_of_map_eq_ok h
    rw [killOf_eq_ok] at hb
  case' h_5 =>
    obtain ⟨d, hd, h⟩ := ok_of_map_eq_ok h
    rw [dirOf_eq_ok] at hd
  all_goals cases h
  all_goals
    refine ⟨rfl, rfl, rfl, ?_⟩
    simp only [payloadBytes, Except.ok.injEq] at hn
    subst hn
    simp (disch := omega) [*, Instr.payload, field64_toNat, field32_toNat, leBytes_field_append, leBytes_field_last,
      -BitVec.toNat_ofNat]

/-! Headers (R90). -/

/-- UNIT, INST and OP are the digits of a header. -/
theorem header_fields {u k op : Nat} (hu : u < 16) (hk : k < 16) (hop : op < 256) :
    headerUnit (u * 4096 + k * 256 + op) = u ∧ headerInst (u * 4096 + k * 256 + op) = k ∧
      headerOp (u * 4096 + k * 256 + op) = op := by
  unfold headerUnit headerInst headerOp
  omega

theorem header_of_fields {h : Nat} (hh : h < 65536) : headerUnit h * 4096 + headerInst h * 256 + headerOp h = h := by
  unfold headerUnit headerInst headerOp
  omega

theorem UnitKind.code_lt (u : UnitKind) : u.code < 16 := by cases u <;> decide

theorem Instr.op_lt (i : Instr) : i.op < 256 := by cases i <;> simp [Instr.op]

theorem Instr.header_fields {i : Instr} (hi : WellFormed i) :
    headerUnit i.header = i.target.kind.code ∧ headerInst i.header = i.target.inst ∧ headerOp i.header = i.op :=
  Sys2Proof.header_fields i.target.kind.code_lt hi i.op_lt

theorem Instr.header_lt {i : Instr} (hi : WellFormed i) : i.header < 65536 := by
  have hunit := i.target.kind.code_lt
  have hop := i.op_lt
  unfold WellFormed at hi
  unfold Instr.header
  omega

/-! Frames (R90, R95, R99). -/

/-- How a frame with its two header bytes decodes. -/
theorem decode_header_payload {h : Nat} (hh : h < 65536) (p : List Byte) :
    decode (leBytes 2 h ++ p) =
      (payloadBytes (headerUnit h) (headerOp h)).bind fun n =>
        if p.length = n then decodePayload (headerUnit h) (headerOp h) (headerInst h) p else .error .badLength := by
  have hval : (BitVec.ofNat 8 h).toNat + 256 * (BitVec.ofNat 8 (h / 256)).toNat = h := by
    rw [BitVec.toNat_ofNat, BitVec.toNat_ofNat]
    omega
  simp only [leBytes, List.cons_append, List.nil_append, decode, hval]
  cases payloadBytes (headerUnit h) (headerOp h) <;> rfl

theorem exists_header_payload {bytes : List Byte} {i : Instr} (h : decode bytes = .ok i) :
    ∃ hd < 65536, ∃ p, bytes = leBytes 2 hd ++ p := by
  rcases bytes with _ | ⟨lo, _ | ⟨hi, p⟩⟩
  · cases h
  · cases h
  · exact ⟨leNat [lo, hi], by simpa using leNat_lt [lo, hi], p, congrArg (· ++ p) (leBytes_leNat [lo, hi]).symm⟩

theorem decode_encode {i : Instr} (hi : WellFormed i) : decode (encode i) = .ok i := by
  obtain ⟨hunit, hinst, hop⟩ := Instr.header_fields hi
  rw [encode, decode_header_payload (Instr.header_lt hi), hunit, hinst, hop, payloadBytes_of_instr, Except.bind,
    if_pos rfl, decodePayload_payload]

/-- Settles O3: the header's digits lead to the command's row, and each field read back from the payload is the operand
written. -/
theorem decodeOfEncode : Obligations.DecodeOfEncode := fun _ hi => decode_encode hi

/-- Settles O4: the two header bytes are the digits of the command's header, and the payload is the command's. -/
theorem onlyEncodingsDecode : Obligations.OnlyEncodingsDecode := by
  intro bytes i h
  obtain ⟨hd, hlt, p, rfl⟩ := exists_header_payload h
  rw [decode_header_payload hlt] at h
  cases hn : payloadBytes (headerUnit hd) (headerOp hd) with
  | error e => simp [hn, Except.bind] at h
  | ok n =>
    simp only [hn, Except.bind] at h
    split at h
    case isFalse => cases h
    case isTrue hp =>
      obtain ⟨hunit, hop, hinst, hpayload⟩ := decodePayload_eq_ok hn hp h
      have hwf : i.target.inst < 16 := hinst ▸ Nat.mod_lt _ (by decide)
      exact ⟨hwf, by rw [encode, Instr.header, hunit, hop, hinst, hpayload, header_of_fields hlt]⟩

/-- Settles O2: each frame is the encoding of its command, and encodings decode. -/
theorem workedFramesDecode : Obligations.WorkedFramesDecode := by
  have hstep : encode (.stStep 0 (BitVec.ofInt 64 (-4))) =
    [0x05, 0x10, 0xFC, 0xFF, 0xFF, 0xFF, 0xFF, 0xFF, 0xFF, 0xFF] := by decide
  have hsetpw : encode (.svSetpw 2 0x3FF8000000000000) = [0x02, 0x22, 0, 0, 0, 0, 0, 0, 0xF8, 0x3F] := by decide
  have hsetinterval : encode (.stSetinterval 0 0x4024000000000000 true) =
    [0x02, 0x10, 0, 0, 0, 0, 0, 0, 0x24, 0x40, 1] := by decide
  have hgetderiv : encode (.qdGetderiv 0 0x3FE0000000000000) = [0x02, 0x30, 0, 0, 0, 0, 0, 0, 0xE0, 0x3F] := by decide
  refine ⟨?_, rfl, hstep, ?_, rfl, hsetpw, by decide +kernel, ?_, ?_⟩
  · rw [← hstep, decode_encode (by decide)]
  · rw [← hsetpw, decode_encode (by decide)]
  · rw [← hsetinterval, decode_encode (by decide)]
  · rw [← hgetderiv, decode_encode (by decide)]

/-- Settles O5: inside its bounds each operand fits `i64`, so its word stands for it. -/
theorem pseudoInstructionsExpand : Obligations.PseudoInstructionsExpand := by
  intro k n
  have hword : ∀ m : Int, -(2 ^ 63) ≤ m → m ≤ 2 ^ 63 - 1 → (BitVec.ofInt 64 m).toInt = m := fun m hlow hhigh =>
    BitVec.toInt_ofInt_eq_self (by decide) hlow (by omega)
  refine ⟨fun h => ?fwd, fun h => ?rev, fun h => ?below, fun h => ?aboveFwd, fun h => ?aboveRev, rfl⟩
  case fwd => exact ⟨_, if_pos h, hword n (by omega) h.2⟩
  case rev => exact ⟨_, if_pos h, hword (-n) (by omega) (by omega)⟩
  case below => exact ⟨if_neg (by omega), if_neg (by omega)⟩
  case aboveFwd | aboveRev => exact if_neg (by omega)

end Sys2Proof
end

section
/-! PROOFS. Commands and frames with no command to run (30_encoding.md R97, R99): those that name no bound instance, and illegal
frames at a bound one. -/

namespace Sys2Proof.Machine

variable {s : State} {k : Nat}

/-! An instance that is not bound. -/

theorem State.stepper_eq_none (h : s.bound ⟨.stepper, k⟩ = false) : s.stepper k = none := by simpa [State.bound] using h

theorem State.servo_eq_none (h : s.bound ⟨.servo, k⟩ = false) : s.servo k = none := by simpa [State.bound] using h

theorem State.qdec_eq_none (h : s.bound ⟨.qdec, k⟩ = false) : s.qdec k = none := by simpa [State.bound] using h

theorem exec_unbound {i : Instr} (hrun : s.halted = false) (h : s.bound i.target = false) :
    exec i s = .next s.noInstance := by
  rw [exec_eq]
  generalize i.target = who at h ⊢
  obtain ⟨kind, k⟩ := who
  cases kind with
  | stepper => exact stepperCommand_unbound hrun (State.stepper_eq_none h)
  | servo => exact servoCommand_unbound hrun (State.servo_eq_none h)
  | qdec => exact qdecCommand_unbound hrun (State.qdec_eq_none h)

theorem State.turnOf_unbound {who : Target} (h : s.bound who = false) : s.turnOf who = none := by
  obtain ⟨kind, k⟩ := who
  cases kind with
  | stepper => rw [State.turnOf, State.stepper_eq_none h, Option.map_none]
  | servo => rw [State.turnOf, State.servo_eq_none h, Option.map_none]
  | qdec => rw [State.turnOf, State.qdec_eq_none h, Option.map_none]

theorem State.pollOf_unbound (h : s.bound ⟨.qdec, k⟩ = false) : s.pollOf k = none := by
  rw [State.pollOf, State.qdec_eq_none h, Option.map_none]

theorem State.rejectAt_unbound {who : Target} (h : s.bound who = false) : s.rejectAt who = s.noInstance := by
  obtain ⟨kind, k⟩ := who
  cases kind with
  | stepper => simp [State.rejectAt, State.stepper_eq_none h]
  | servo => simp [State.rejectAt, State.servo_eq_none h]
  | qdec => simp [State.rejectAt, State.qdec_eq_none h]

/-! An illegal frame at a bound instance: at once where it is free, else behind the commands waiting there. -/

theorem State.rejectAt_stepper_free {x : Stepper} (hx : s.stepper k = some x) (h : x.free = true) :
    s.rejectAt ⟨.stepper, k⟩ = s.putStepper k
      ({ x with ctl := x.ctl.ended .illegalCommand none },
        s.world.answer (some ⟨.stepper, k⟩) (x.ctl.ended .illegalCommand none)) := by
  simp [State.rejectAt, hx, h, Stepper.finish, Stepper.free_flight h]

theorem State.rejectAt_servo_free {x : Servo} (hx : s.servo k = some x) (h : x.free = true) :
    s.rejectAt ⟨.servo, k⟩ = s.putServo k
      ({ x with ctl := x.ctl.ended .illegalCommand none },
        s.world.answer (some ⟨.servo, k⟩) (x.ctl.ended .illegalCommand none)) := by
  simp [State.rejectAt, hx, h, Servo.finish, Servo.free_flight h]

theorem State.rejectAt_qdec_free {x : Qdec} (hx : s.qdec k = some x) (h : x.free = true) :
    s.rejectAt ⟨.qdec, k⟩ = s.putQdec k
      ({ x with ctl := x.ctl.ended .illegalCommand none },
        s.world.answer (some ⟨.qdec, k⟩) (x.ctl.ended .illegalCommand none)) := by
  simp [State.rejectAt, hx, h, Qdec.finish]

theorem State.rejectAt_stepper_busy {x : Stepper} (hx : s.stepper k = some x) (h : x.free = false) :
    s.rejectAt ⟨.stepper, k⟩ = s.putStepper k ({ x with ctl := x.ctl.enqueue .illegal }, s.world) := by
  simp [State.rejectAt, hx, h]

theorem State.rejectAt_servo_busy {x : Servo} (hx : s.servo k = some x) (h : x.free = false) :
    s.rejectAt ⟨.servo, k⟩ = s.putServo k ({ x with ctl := x.ctl.enqueue .illegal }, s.world) := by
  simp [State.rejectAt, hx, h]

theorem State.rejectAt_qdec_busy {x : Qdec} (hx : s.qdec k = some x) (h : x.free = false) :
    s.rejectAt ⟨.qdec, k⟩ = s.putQdec k ({ x with ctl := x.ctl.enqueue .illegal }, s.world) := by
  simp [State.rejectAt, hx, h]

/-! What an illegal frame leaves alone, bound instance or not. -/

theorem State.noInstance_sameBut (s : State) (who : Target) : SameBut who s s.noInstance :=
  ⟨rfl, rfl, rfl, fun _ _ => rfl, fun _ _ => rfl, fun _ _ => rfl⟩

theorem State.rejectAt_sameBut (s : State) (who : Target) : SameBut who s (s.rejectAt who) := by
  obtain ⟨kind, k⟩ := who
  unfold State.rejectAt
  cases kind <;> dsimp only <;> split
  · exact s.noInstance_sameBut _
  · exact s.putStepper_sameBut k _
  · exact s.noInstance_sameBut _
  · exact s.putServo_sameBut k _
  · exact s.noInstance_sameBut _
  · exact s.putQdec_sameBut k _

/-- Of what the instances share, only the record of answers changes. -/
theorem State.rejectAt_world (s : State) (who : Target) :
    ∃ answers, (s.rejectAt who).world = { s.world with answers := answers } := by
  obtain ⟨kind, k⟩ := who
  unfold State.rejectAt
  cases kind <;> dsimp only <;> split
  · exact ⟨_, rfl⟩
  · rw [State.putStepper_world]
    split <;> exact ⟨_, rfl⟩
  · exact ⟨_, rfl⟩
  · rw [State.putServo_world]
    split <;> exact ⟨_, rfl⟩
  · exact ⟨_, rfl⟩
  · rw [State.putQdec_world]
    split <;> exact ⟨_, rfl⟩

theorem State.rejectFrame_of_target {bytes : List Byte} {who : Target} (h : frameTarget bytes = some who) :
    s.rejectFrame bytes = s.rejectAt who := by
  rw [State.rejectFrame, h]

theorem State.rejectFrame_unbound {bytes : List Byte}
    (h : ∀ who, frameTarget bytes = some who → s.bound who = false) : s.rejectFrame bytes = s.noInstance := by
  unfold State.rejectFrame
  split
  · rfl
  · exact State.rejectAt_unbound (h _ ‹_›)

theorem State.rejectFrame_world (s : State) (bytes : List Byte) :
    ∃ answers, (s.rejectFrame bytes).world = { s.world with answers := answers } := by
  unfold State.rejectFrame
  split
  · exact ⟨_, rfl⟩
  · exact s.rejectAt_world _

/-- A step whose move is a frame that does not decode. -/
theorem step_illegal_frame {bytes : List Byte} {e : DecodeError} (hrun : s.halted = false)
    (hnext : s.nextEvent = .frame bytes) (hdecode : decode bytes = .error e) :
    step s = .next (s.afterEvent.rejectFrame bytes) := by
  rw [step_eq_takeEvent hrun hnext, takeEvent, hostFrame, hdecode]

/-- Settles O17: a command's own operation finds no instance, nor is there one to take a turn or to poll. -/
theorem unboundInstanceIsIllegal : Obligations.UnboundInstanceIsIllegal := by
  refine ⟨fun i s hrun h => exec_unbound hrun h, fun s hrun => ⟨?turn, ?poll⟩⟩
  case turn =>
    intro who hnext h
    rw [step_eq_takeEvent hrun hnext, takeEvent, State.turnOf_unbound (s := s.afterEvent) h, orNoAgent]
  case poll =>
    intro d hnext h
    rw [step_eq_takeEvent hrun hnext, takeEvent, State.pollOf_unbound (s := s.afterEvent) h, orNoAgent]

/-- Settles O18: the frame is rejected where its header points, and a rejection is one answer, or one more job waiting. -/
theorem illegalFrameChangesNothing : Obligations.IllegalFrameChangesNothing := by
  refine ⟨fun s bytes e hrun hnext hdecode => ?frame, fun p n js w => ⟨?stepperTurn, ?servoTurn, ?qdecTurn⟩⟩
  case frame =>
    refine ⟨_, step_illegal_frame hrun hnext hdecode, ?port, ?clock, ?unbound, ?others, ?stepper, ?servo, ?qdec⟩
    case port =>
      obtain ⟨_, hworld⟩ := s.afterEvent.rejectFrame_world bytes
      rw [hworld]
      exact ⟨rfl, rfl, rfl, rfl, rfl⟩
    case clock =>
      obtain ⟨_, hworld⟩ := s.afterEvent.rejectFrame_world bytes
      rw [hworld, State.afterEvent_world]
    case unbound => exact fun h => State.rejectFrame_unbound h
    case others =>
      intro who hwho
      rw [State.rejectFrame_of_target hwho]
      exact s.afterEvent.rejectAt_sameBut who
    case stepper =>
      intro k x hwho hx
      replace hx : s.afterEvent.stepper k = some x := hx
      rw [State.rejectFrame_of_target hwho]
      refine ⟨fun hfree => ?_, fun hbusy => ?_⟩
      · rw [State.rejectAt_stepper_free hx hfree]
        exact ⟨State.putStepper_same hx _, rfl⟩
      · rw [State.rejectAt_stepper_busy hx hbusy]
        exact ⟨rfl, State.putStepper_same hx _⟩
    case servo =>
      intro j x hwho hx
      replace hx : s.afterEvent.servo j = some x := hx
      rw [State.rejectFrame_of_target hwho]
      refine ⟨fun hfree => ?_, fun hbusy => ?_⟩
      · rw [State.rejectAt_servo_free hx hfree]
        exact ⟨State.putServo_same hx _, rfl⟩
      · rw [State.rejectAt_servo_busy hx hbusy]
        exact ⟨rfl, State.putServo_same hx _⟩
    case qdec =>
      intro d x hwho hx
      replace hx : s.afterEvent.qdec d = some x := hx
      rw [State.rejectFrame_of_target hwho]
      refine ⟨fun hfree => ?_, fun hbusy => ?_⟩
      · rw [State.rejectAt_qdec_free hx hfree]
        exact ⟨State.putQdec_same hx _, rfl⟩
      · rw [State.rejectAt_qdec_busy hx hbusy]
        exact ⟨rfl, State.putQdec_same hx _⟩
  case stepperTurn =>
    intro x hflight hwait
    rw [Stepper.turn, hflight, hwait]
    rfl
  case servoTurn =>
    intro x hflight hwait
    rw [Servo.turn, hflight, hwait]
    rfl
  case qdecTurn =>
    intro x hwait
    rw [Qdec.turn, hwait]
    rfl

end Sys2Proof.Machine
end

section
/-! PROOFS. The stepper's coil tables and its single commands (40_stepper.md R120 to R136, R144, R145): those that end at once,
and those that end after one run of 24 register writes. -/

namespace Sys2Proof.Machine

variable {p : Params} {s : State} {k : Nat} {x y : Stepper} {i : Instr} {st : Status} {res : Option Word64} {w : World}
  {ws : List RegW}

/-! A command to a stepper that is ready. -/

/-- A command to a ready stepper is started and run to its end. -/
theorem exec_of_stepperReady (h : StepperReady s k x) (hi : i.target = ⟨.stepper, k⟩) :
    exec i s = .next (s.putStepper k
      (Stepper.complete s.params k (Stepper.startJob s.params k (.command i) x s.world).1
        (Stepper.startJob s.params k (.command i) x s.world).2)) := by
  obtain ⟨hrun, hx, hfree⟩ := h
  rw [exec_eq, hi]
  exact stepperCommand_runs hrun hx hfree

/-- A command that ends in the action that starts it. -/
theorem exec_of_start_finish (h : StepperReady s k x) (hi : i.target = ⟨.stepper, k⟩)
    (hstart : Stepper.startJob s.params k (.command i) x s.world = Stepper.finish k st res y w) :
    exec i s = .next (s.putStepper k (Stepper.finish k st res y w)) := by
  rw [exec_of_stepperReady h hi, hstart, Stepper.complete_finish]

/-- A command that starts by leaving writes to be issued, all of which are accepted. -/
theorem exec_of_start_writing (h : StepperReady s k x) (hi : i.target = ⟨.stepper, k⟩)
    (hstart : Stepper.startJob s.params k (.command i) x s.world =
      ({ y with flight := some (.writing ws false) }, s.world)) (hbus : s.world.busOk ws.length) :
    exec i s = .next (s.putStepper k (Stepper.finish k .ok none y (s.world.wrote s.params ws))) := by
  rw [exec_of_stepperReady h hi, hstart, Stepper.complete_writing_ok rfl hbus]
  rfl

theorem StepperReady.bound (h : StepperReady s k x) : s.stepper k = some x := h.2.1

theorem StepperReady.flight (h : StepperReady s k x) : x.flight = none := Stepper.free_flight h.2.2

/-- A stepper whose command has ended has none in flight; the rest is as it was but for the response. -/
theorem Stepper.finish_fst (hy : y.flight = none) :
    (Stepper.finish k st res y w).1 = { y with ctl := y.ctl.ended st res } := by
  rw [Stepper.finish, ← hy]

/-- The stepper in the state a command leaves that has ended. -/
theorem StepperReady.stepper_finish (h : StepperReady s k x) (hy : y.flight = none) :
    (s.putStepper k (Stepper.finish k st res y w)).stepper k = some { y with ctl := y.ctl.ended st res } := by
  rw [State.putStepper_same h.bound, Stepper.finish_fst hy]

/-- What a command that has ended leaves: the stepper, the world, and nothing else changed. -/
theorem StepperReady.leaves (h : StepperReady s k x) (hy : y.flight = none)
    (he : exec i s = .next (s.putStepper k (Stepper.finish k st res y w))) :
    ∃ t, exec i s = .next t ∧ t.stepper k = some { y with ctl := y.ctl.ended st res } ∧ SameBut ⟨.stepper, k⟩ s t ∧
      t.world = w.answer (some ⟨.stepper, k⟩) (y.ctl.ended st res) :=
  ⟨_, he, h.stepper_finish hy, s.putStepper_sameBut k _, rfl⟩

/-! Commands that end at once. -/

/-- Settles O24: ST.SETMODE ends in the action that starts it. -/
theorem setmodeResetsTheCounter : Obligations.SetmodeResetsTheCounter := by
  intro s k x m h
  exact h.leaves (y := { x with mode := m, step := 0 }) h.flight (exec_of_start_finish h rfl rfl)

/-- Settles O25: ST.SETSPR ends at once, with the operand stored unless it is 0. -/
theorem setsprStoresANonzeroCount : Obligations.SetsprStoresANonzeroCount := by
  intro s k x v h
  by_cases hv : v = 0
  · simp only [if_pos hv]
    exact h.leaves (y := x) h.flight (exec_of_start_finish h rfl (if_pos hv))
  · simp only [if_neg hv]
    exact h.leaves (y := { x with spr := some v }) h.flight (exec_of_start_finish h rfl (if_neg hv))

/-- An ending leaves the port alone. -/
theorem World.answer_samePort (who : Option Target) (c : Ctl) (w : World) : SamePort w (w.answer who c) :=
  ⟨rfl, rfl, rfl, rfl, rfl⟩

theorem Stepper.startSetinterval_refuses {ms : Word64}
    (h : realOperand ms = none ∨ ∃ q, realOperand ms = some q ∧ q < 0) (kill : Bool) (x : Stepper) (w : World) :
    Stepper.startSetinterval k ms kill x w = Stepper.finish k .configurationError none x w := by
  obtain hnone | ⟨q, hq, hneg⟩ := h
  · simp [Stepper.startSetinterval, hnone]
  · simp [Stepper.startSetinterval, hq, hneg]

theorem Stepper.startSetinterval_stores {ms : Word64} {q : Rat} (hq : realOperand ms = some q) (hpos : 0 ≤ q)
    (kill : Bool) (x : Stepper) (w : World) :
    Stepper.startSetinterval k ms kill x w = Stepper.finish k .ok none { x with interval := q, kill := kill } w := by
  simp [Stepper.startSetinterval, hq, not_lt.mpr hpos]

/-- Settles O26: an operand is refused, or it is a rational not below 0 and stored; ST.SETINTERVAL ends at once either way. -/
theorem setintervalStoresANonnegativeDelay : Obligations.SetintervalStoresANonnegativeDelay := by
  intro s k x ms kill h
  by_cases hbad : realOperand ms = none ∨ ∃ q, realOperand ms = some q ∧ q < 0
  · obtain ⟨t, he, hx, hsame, hw⟩ := h.leaves (y := x) h.flight
      (exec_of_start_finish (i := .stSetinterval k ms kill) h rfl (Stepper.startSetinterval_refuses hbad kill x _))
    refine ⟨t, he, hsame, hw ▸ World.answer_samePort _ _ _, fun q hq hpos => ?_, fun _ => hx⟩
    obtain hnone | ⟨q', hq', hneg⟩ := hbad
    · simp [hnone] at hq
    · obtain rfl : q' = q := Option.some.inj (hq'.symm.trans hq)
      exact absurd hneg (not_lt.mpr hpos)
  · obtain ⟨q, hq⟩ := Option.ne_none_iff_exists'.mp fun hnone => hbad (.inl hnone)
    have hpos : 0 ≤ q := not_lt.mp fun hneg => hbad (.inr ⟨q, hq, hneg⟩)
    obtain ⟨t, he, hx, hsame, hw⟩ := h.leaves (y := { x with interval := q, kill := kill }) h.flight
      (exec_of_start_finish (i := .stSetinterval k ms kill) h rfl (Stepper.startSetinterval_stores hq hpos kill x _))
    refine ⟨t, he, hsame, hw ▸ World.answer_samePort _ _ _, fun q' hq' _ => ?_, fun hbad' => absurd hbad' hbad⟩
    obtain rfl : q = q' := Option.some.inj (hq.symm.trans hq')
    exact hx

/-- Settles O39: ST.GETSTEP ends at once, with the counter in RESULT. -/
theorem getstepReturnsTheCounter : Obligations.GetstepReturnsTheCounter := by
  intro s k x h
  exact h.leaves h.flight (exec_of_start_finish (i := .stGetstep k) h rfl rfl)

/-! The coil tables (R120 to R127). -/

theorem curveAt_eq_getD (c : Curve) {i : Nat} (hi : i ≤ 8) :
    curveAt c i = [0, c.c1.zeroExtend 13, c.c2.zeroExtend 13, c.c3.zeroExtend 13, c.c4.zeroExtend 13,
      c.c5.zeroExtend 13, c.c6.zeroExtend 13, c.c7.zeroExtend 13, 4095].getD i 0 := by
  interval_cases i <;> rfl

theorem quadrant_eq_getD {q : Nat} (hq : q < 4) :
    quadrant q = ([Polarity.plus, .minus, .minus, .plus].getD q .plus,
      [Polarity.plus, .plus, .minus, .minus].getD q .plus) := by
  interval_cases q <;> rfl

/-- Entry m of quadrant q of MULTI_STEP: the curve falls in coil A and rises in coil B, or the other way (R126). -/
theorem tableEntry_multiStep (c : Curve) (q : Nat) {m : Nat} (hm : m < 8) :
    tableEntry c .multiStep (8 * q + m) =
      ⟨(quadrant q).1, curveAt c (if q % 2 = 0 then 8 - m else m), (quadrant q).2,
        curveAt c (if q % 2 = 0 then m else 8 - m)⟩ := by
  have hdiv : (8 * q + m) / 8 = q := by omega
  have hmod : (8 * q + m) % 8 = m := by omega
  simp only [tableEntry, quadrantOf, dutyPair, hdiv, hmod]
  split <;> rfl

/-- Settles O41: the three short tables by evaluation, MULTI_STEP by quadrant and place in it, and the writes of an entry by the
polarities of its two coils. -/
theorem coilTables : Obligations.CoilTables := by
  refine ⟨fun c => ⟨rfl, rfl, rfl, fun q m hq hm => ?multiStep⟩, fun p x e => ?writes⟩
  case multiStep =>
    have hfall : (if q % 2 = 0 then 8 - m else m) ≤ 8 := by split <;> omega
    have hrise : (if q % 2 = 0 then m else 8 - m) ≤ 8 := by split <;> omega
    rw [tableEntry_multiStep c q hm, quadrant_eq_getD hq, curveAt_eq_getD c hfall, curveAt_eq_getD c hrise]
  case writes =>
    obtain ⟨polA, dutyA, polB, dutyB⟩ := e
    cases polA <;> cases polB <;> rfl

/-! The table index (R125). -/

theorem tableIndex_floorMod (m : Mode) (n : Int) : (tableIndex .floorMod m n : Int) = (n - 1) % tableLength m := by
  have hpos : (tableLength m : Int) ≠ 0 := by cases m <;> decide
  exact Int.toNat_of_nonneg (Int.emod_nonneg _ hpos)

/-- The two conventions agree from 1 on, where STEP - 1 is its own absolute value. -/
theorem tableIndex_floorMod_eq_absLegacy (m : Mode) {n : Int} (hn : 1 ≤ n) :
    tableIndex .floorMod m n = tableIndex .absLegacy m n := by
  have habs : ((n - 1).natAbs : Int) = n - 1 := Int.natAbs_of_nonneg (by omega)
  zify
  rw [tableIndex_floorMod, tableIndex, Int.natCast_mod, habs]

/-- A table length divides 2^64, so FLOOR_MOD sees the low bits of the counter alone. -/
theorem tableIndex_floorMod_toInt (m : Mode) (v : Word64) :
    tableIndex .floorMod m v.toInt = (v - 1).toNat % tableLength m := by
  have hsub : (v - 1).toNat = (2 ^ 64 - 1 + v.toNat) % 2 ^ 64 := BitVec.toNat_sub ..
  have hint := BitVec.toInt_eq_toNat_cond v
  zify
  rw [tableIndex_floorMod, hint, hsub]
  cases m <;> simp only [tableLength] <;> split <;> omega

/-- Settles O40: FLOOR_MOD is a remainder, which agrees with the absolute one on counts not below 0 and sees the low bits alone. -/
theorem tableIndexConventions : Obligations.TableIndexConventions := by
  refine ⟨rfl, rfl, fun m => ⟨fun n => ⟨tableIndex_floorMod m n, rfl⟩, fun n hn => tableIndex_floorMod_eq_absLegacy m hn,
    ?atZero, tableIndex_floorMod_toInt m⟩⟩
  case atZero => cases m <;> decide

/-! Commands of one run of writes. -/

/-- The move of the counter, as the rules write it (R129). -/
theorem stepDelta_eq_ite (d : Dir) : stepDelta d = if d = .forward then 1 else -1 := by cases d <;> rfl

/-- ST.ONESTEP, its 24 writes accepted. -/
theorem exec_stOnestep_ok (h : StepperReady s k x) (hbus : s.world.busOk 24) :
    exec (.stOnestep k) s =
      .next (s.putStepper k (Stepper.finish k .ok none x.advance (s.world.wrote s.params (x.advance.writes s.params)))) :=
  exec_of_start_writing h rfl rfl (by rwa [Stepper.writes_length])

/-- ST.ONESTEPDIR, its 24 writes accepted. -/
theorem exec_stOnestepdir_ok (h : StepperReady s k x) (hbus : s.world.busOk 24) (d : Dir) :
    exec (.stOnestepdir k d) s =
      .next (s.putStepper k (Stepper.finish k .ok none (Stepper.advance { x with dir := d })
        (s.world.wrote s.params ((Stepper.advance { x with dir := d }).writes s.params)))) :=
  exec_of_start_writing h rfl rfl (by rwa [Stepper.writes_length])

/-- Settles O27: the entry's writes, as O41 spells them out, at the counter moved by one. -/
theorem onestepMovesAndWrites : Obligations.OnestepMovesAndWrites := by
  intro s k x h hbus c e emit level ws
  have hc : x.advance.step = c := by rw [Stepper.advance_step, stepDelta_eq_ite]
  have hws : x.advance.writes s.params = ws := by
    rw [Stepper.writes, hc]
    exact coilTables.2 s.params x.coils e
  obtain ⟨t, he, hx, hsame, hw⟩ := h.leaves (y := x.advance) h.flight (exec_stOnestep_ok h hbus)
  exact ⟨t, he, hc ▸ hx, hsame, hws ▸ hw⟩

/-- Settles O28: the direction is set, and then the step is that of ST.ONESTEP. -/
theorem onestepdirSetsTheDirection : Obligations.OnestepdirSetsTheDirection := by
  intro s k x d h hbus c ws
  have hc : (Stepper.advance { x with dir := d }).step = c := by rw [Stepper.advance_step, stepDelta_eq_ite]
  have hws : (Stepper.advance { x with dir := d }).writes s.params = ws := by
    rw [Stepper.writes, hc]
    rfl
  obtain ⟨t, he, hx, hsame, hw⟩ := h.leaves (y := Stepper.advance { x with dir := d }) h.flight
    (exec_stOnestepdir_ok h hbus d)
  exact ⟨t, he, hc ▸ hx, hsame, hws ▸ hw⟩

/-- ST.STOP and ST.STEP of 0, their 24 writes accepted. -/
theorem exec_stop_ok (h : StepperReady s k x) (hi : i.target = ⟨.stepper, k⟩)
    (hstart : Stepper.startJob s.params k (.command i) x s.world = Stepper.startStop s.params x s.world)
    (hbus : s.world.busOk 24) :
    exec i s =
      .next (s.putStepper k (Stepper.finish k .ok none x (s.world.wrote s.params (stopWrites s.params x.coils)))) :=
  exec_of_start_writing h hi hstart hbus

/-- Settles O29: both commands start as a stop. -/
theorem stopZeroesAllSixChannels : Obligations.StopZeroesAllSixChannels := by
  intro s k x i h hbus hi
  obtain rfl | rfl := hi <;> exact h.leaves h.flight (exec_stop_ok h rfl rfl hbus)

/-- A run of writes changes neither the counter nor the direction, whatever the bus does. -/
theorem Stepper.complete_writing_keeps (hf : x.flight = some (.writing ws false)) :
    (Stepper.complete p k x w).1.step = x.step ∧ (Stepper.complete p k x w).1.dir = x.dir := by
  simp only [Stepper.complete, hf]
  split <;> exact ⟨rfl, rfl⟩

/-- The signed counter after an addition: modulo 2^64, brought back into its range (10_state.md R24). -/
theorem toInt_add_one (v : Word64) :
    (v.toInt < 2 ^ 63 - 1 → (v + 1).toInt = v.toInt + 1) ∧ (v.toInt = 2 ^ 63 - 1 → (v + 1).toInt = -(2 ^ 63)) := by
  have hlow := BitVec.le_toInt v
  have hone : (1 : Word64).toInt = 1 := rfl
  rw [BitVec.toInt_add, hone, Int.bmod_def]
  omega

theorem toInt_sub_one (v : Word64) :
    (-(2 ^ 63) < v.toInt → (v + -1).toInt = v.toInt - 1) ∧ (v.toInt = -(2 ^ 63) → (v + -1).toInt = 2 ^ 63 - 1) := by
  have hhigh := BitVec.toInt_lt (x := v)
  have hone : (-1 : Word64).toInt = -1 := rfl
  rw [BitVec.toInt_add, hone, Int.bmod_def]
  omega

/-- Settles O30: the counter moves before the first write, and no write moves it again. -/
theorem counterIsMonotonicAwayFromTheWrap : Obligations.CounterIsMonotonicAwayFromTheWrap := by
  intro s t k x y h he hy
  obtain rfl := Host.Outcome.next.inj ((exec_of_stepperReady h rfl).symm.trans he)
  obtain rfl := Option.some.inj ((State.putStepper_same h.bound _).symm.trans hy)
  obtain ⟨hstep, hdir⟩ := Stepper.complete_writing_keeps (p := s.params) (k := k) (w := s.world)
    (x := (Stepper.startOnestep s.params x s.world).1) rfl
  obtain ⟨hup, hupWrap⟩ := toInt_add_one x.step
  obtain ⟨hdown, hdownWrap⟩ := toInt_sub_one x.step
  replace hstep := hstep.trans x.advance_step
  refine ⟨hdir, fun hd => ?_, fun hd => ?_, fun hd => ?_, fun hd => ?_⟩ <;> rw [hd] at hstep
  · exact hstep ▸ hup
  · exact hstep ▸ hupWrap
  · exact hstep ▸ hdown
  · exact hstep ▸ hdownWrap

end Sys2Proof.Machine
end

section
/-! PROOFS. Runs of steps (40_stepper.md R129, R137 to R143): what a run of ST.STEP or ST.ROTATE leaves that succeeds, and why
one does not. -/

namespace Sys2Proof.Machine

variable {p : Params} {s t : State} {k : Nat} {x y : Stepper} {w w' w'' : World} {ws vs : List RegW}

/-! Parts of a run. -/

theorem World.WroteInTime.refl (p : Params) (w : World) : World.WroteInTime p [] w w :=
  ⟨rfl, (List.append_nil _).symm, rfl, rfl, rfl, rfl, rfl⟩

theorem World.WroteInTime.trans (h : World.WroteInTime p ws w w') (h' : World.WroteInTime p vs w' w'') :
    World.WroteInTime p (ws ++ vs) w w'' where
  regs := by rw [h'.regs, h.regs, Memory.after_append]
  log := by rw [h'.log, h.log, List.map_append, List.append_assoc]
  answers := h'.answers.trans h.answers
  freqHz := h'.freqHz.trans h.freqHz
  bus := by rw [h'.bus, h.bus, Tape.skip_skip, List.length_append]
  lines := h'.lines.trans h.lines
  fresh := h'.fresh.trans h.fresh

/-- Reading the time source issues no write. -/
theorem World.afterNow_inTime (p : Params) (w : World) : World.WroteInTime p [] w w.afterNow :=
  ⟨rfl, (List.append_nil _).symm, rfl, rfl, rfl, rfl, rfl⟩

/-- The outcomes to come after accepted writes are those that came after theirs. -/
theorem World.WroteInTime.busOk {n : Nat} (h : World.WroteInTime p ws w w') (hbus : w.busOk (ws.length + n)) :
    w'.busOk n := fun i hi => by
  rw [h.busAt]
  exact hbus _ (Nat.add_lt_add_left hi _)

theorem counterAfter_succ (v : Word64) (d : Dir) (i : Nat) :
    counterAfter v d (i + 1) = counterAfter (v + stepDelta d) d i := by
  rw [counterAfter, counterAfter, BitVec.ofNat_add, BitVec.add_mul, BitVec.one_mul]
  ac_rfl

/-- A run of n steps in the direction of a count n moves the counter by n, modulo 2^64. -/
theorem counterAfter_dirOfCount (v : Word64) (n : Int) :
    counterAfter v (dirOfCount n) n.natAbs = v + BitVec.ofInt 64 n := by
  rw [counterAfter, dirOfCount, ← BitVec.ofInt_natCast]
  by_cases hn : 0 < n
  · rw [if_pos hn, Int.natAbs_of_nonneg hn.le]
    simp [stepDelta]
  · rw [if_neg hn, Int.ofNat_natAbs_of_nonpos (not_lt.mp hn), BitVec.ofInt_neg, stepDelta, neg_mul_neg, mul_one]

theorem runWrites_succ (p : Params) (x : Stepper) (n : Nat) :
    runWrites p x x.dir (n + 1) = x.advance.writes p ++ runWrites p x.advance x.dir n := by
  have hcounter : ∀ i, counterAfter x.step x.dir (i + 1) = counterAfter x.advance.step x.dir i :=
    counterAfter_succ x.step x.dir
  have hfirst : counterAfter x.step x.dir 1 = x.advance.step := by
    rw [hcounter, counterAfter]
    simp
  simp only [runWrites, List.range_succ_eq_map, List.flatMap_cons, List.flatMap_map, hfirst, ← hcounter]
  rfl

/-! The loop. -/

/-- Going from `w` to `w'`, a command gave its answer, which was OK. -/
def World.AnsweredOk (w w' : World) : Prop := ∃ b, w'.answers = w.answers ++ [b] ∧ b.status = .ok

/-- A command that has answered otherwise has not answered OK. -/
theorem World.not_answeredOk {b : Answer} (h : w'.answers = w.answers ++ [b]) (hb : b.status ≠ .ok) :
    ¬w.AnsweredOk w' := by
  rintro ⟨c, hc, hok⟩
  obtain rfl : b = c := by simpa [h] using hc
  exact hb hok

/-- Nor has a command that is still in flight. -/
theorem World.not_answeredOk_of_eq (h : w'.answers = w.answers) : ¬w.AnsweredOk w' := by
  rintro ⟨c, hc, -⟩
  simp [h] at hc

theorem World.answeredOk_congr (h : w'.answers = w.answers) : w'.AnsweredOk w'' ↔ w.AnsweredOk w'' := by
  rw [World.AnsweredOk, World.AnsweredOk, h]

/-- The stepper after a run of n steps in its direction. -/
def Stepper.ran (n : Nat) (x : Stepper) : Stepper := { x with step := counterAfter x.step x.dir n, run := .idle }

/-- Everything a run of n steps can do: it ends OK, with all its writes accepted and all its steps counted; or it does not
answer OK, and then a write of it failed, or it was paced. -/
theorem Stepper.runLoop_spec (p : Params) (k n : Nat) (x : Stepper) (w : World) :
    (∃ w', World.WroteInTime p (runWrites p x x.dir n) w w' ∧
        Stepper.runLoop p k n x w = Stepper.finish k .ok none (x.ran n) w') ∨
      (w.busOk (24 * n) → 0 < x.interval) ∧ ¬w.AnsweredOk (Stepper.runLoop p k n x w).2 := by
  induction n generalizing x w with
  | zero =>
    left
    refine ⟨w, .refl p w, ?_⟩
    simp [Stepper.runLoop, Stepper.ran, counterAfter]
  | succ n ih =>
    have hnow := World.afterNow_inTime p w
    rw [Stepper.runLoop]
    obtain ⟨j, hj, -, hfail, he⟩ | ⟨-, w', hw, ⟨hpaced, he⟩ | ⟨hpaced, wakeAt, he⟩ | he⟩ :=
      Stepper.finishPaced_spec p k (Stepper.runLoop p k n) ((Stepper.beginPaced p x w).1.writes p)
        (Stepper.beginPaced p x w).1 (Stepper.beginPaced p x w).2
    all_goals rw [he]
    · rw [Stepper.writes_length] at hj
      exact .inr ⟨fun hbus => absurd (hbus j (by omega)) hfail, World.not_answeredOk rfl Status.noConfusion⟩
    · exact .inr ⟨fun _ => hpaced, World.not_answeredOk (congrArg (· ++ _) hw.answers) Status.noConfusion⟩
    · exact .inr ⟨fun _ => hpaced, World.not_answeredOk_of_eq hw.answers⟩
    · replace hw : World.WroteInTime p (x.advance.writes p) w w' := hnow.trans hw
      obtain ⟨w'', hrest, he⟩ | ⟨hwhy, hfail⟩ := ih (Stepper.beginPaced p x w).1.stepDone w'
      · left
        refine ⟨w'', runWrites_succ p x n ▸ hw.trans hrest, ?_⟩
        rw [he, Stepper.ran, Stepper.ran, counterAfter_succ]
        rfl
      · right
        refine ⟨fun hbus => hwhy (hw.busOk ?_), (World.answeredOk_congr hw.answers).not.mp hfail⟩
        rwa [Stepper.writes_length, Nat.add_comm, ← Nat.mul_succ]

/-! A run from its start (R137). -/

/-- The stepper at the start of a run of n steps. -/
def Stepper.begun (n : Int) (x : Stepper) : Stepper :=
  { x with dir := dirOfCount n, run := .running n.natAbs none, flight := some .stepping }

/-- The stepper after a run of n steps, forward or back by the sign of n. -/
def Stepper.moved (n : Int) (x : Stepper) : Stepper :=
  { x with step := x.step + BitVec.ofInt 64 n, dir := dirOfCount n, run := .idle }

/-- A count n started, and run to its end. -/
def Stepper.runCount (p : Params) (k : Nat) (n : Int) (x : Stepper) (w : World) : Stepper × World :=
  Stepper.complete p k (Stepper.startCount p n x w).1 (Stepper.startCount p n x w).2

theorem Stepper.runCount_of_ne_zero (p : Params) (k : Nat) {n : Int} (hn : n ≠ 0) (x : Stepper) (w : World) :
    Stepper.runCount p k n x w = Stepper.runLoop p k n.natAbs (x.begun n) w := by
  rw [Stepper.runCount, Stepper.startCount, if_neg hn]
  rfl

theorem Stepper.runCount_zero_ok (hbus : w.busOk 24) :
    Stepper.runCount p k 0 x w = Stepper.finish k .ok none x (w.wrote p (stopWrites p x.coils)) :=
  Stepper.complete_writing_ok rfl hbus

/-- Everything a run of n ≠ 0 steps can do. -/
theorem Stepper.runCount_spec (p : Params) (k : Nat) {n : Int} (hn : n ≠ 0) (x : Stepper) (w : World) :
    (∃ w', World.WroteInTime p (runWrites p x (dirOfCount n) n.natAbs) w w' ∧
        Stepper.runCount p k n x w = Stepper.finish k .ok none (x.moved n) w') ∨
      (w.busOk (24 * n.natAbs) → 0 < x.interval) ∧ ¬w.AnsweredOk (Stepper.runCount p k n x w).2 := by
  rw [Stepper.runCount_of_ne_zero p k hn]
  refine (Stepper.runLoop_spec p k n.natAbs (x.begun n) w).imp_left fun ⟨w', hw, he⟩ => ⟨w', hw, he.trans ?_⟩
  rw [Stepper.moved, ← counterAfter_dirOfCount]
  rfl

/-- A stop that answers OK leaves all but the response. -/
theorem Stepper.runCount_zero_answeredOk (hok : w.AnsweredOk (Stepper.runCount p k 0 x w).2) :
    ∃ w', Stepper.runCount p k 0 x w = Stepper.finish k .ok none x w' := by
  obtain ⟨-, hbus⟩ | ⟨j, hj, hbus, hfail, -⟩ := issueWrites_spec p (stopWrites p x.coils) w
  · exact ⟨_, Stepper.runCount_zero_ok hbus⟩
  · have hstop : Stepper.runCount p k 0 x w = _ := Stepper.complete_writing_fails rfl hj hbus hfail
    rw [hstop] at hok
    exact absurd hok (World.not_answeredOk rfl Status.noConfusion)

/-- A command that runs a count and answers OK has moved the counter by it and kept SPR; the stepper is free again. -/
theorem Stepper.runCount_answeredOk {n : Int} (hfree : x.free = true)
    (hok : w.AnsweredOk (Stepper.runCount p k n x w).2) :
    (Stepper.runCount p k n x w).1.step = x.step + BitVec.ofInt 64 n ∧
      (Stepper.runCount p k n x w).1.spr = x.spr ∧ (Stepper.runCount p k n x w).1.free = true := by
  have hwaiting : x.ctl.waiting.isEmpty = true := (Bool.and_eq_true_iff.mp hfree).2
  by_cases hn : n = 0
  · subst hn
    obtain ⟨w', he⟩ := Stepper.runCount_zero_answeredOk hok
    rw [he]
    exact ⟨by simp, rfl, hwaiting⟩
  · obtain ⟨w', -, he⟩ | ⟨-, hfail⟩ := Stepper.runCount_spec p k hn x w
    · rw [he]
      exact ⟨rfl, rfl, hwaiting⟩
    · exact absurd hok hfail

/-! ST.STEP. -/

theorem exec_stStep (h : StepperReady s k x) (n : Word64) :
    exec (.stStep k n) s = .next (s.putStepper k (Stepper.runCount s.params k n.toInt x s.world)) :=
  exec_of_stepperReady h rfl

theorem toInt_ne_zero {n : Word64} (hn : n ≠ 0) : n.toInt ≠ 0 := fun h => hn (BitVec.eq_of_toInt_eq h)

/-- Settles O31: no write fails and nothing is paced, so the run ends OK. -/
theorem stepRunsAllItsSteps : Obligations.StepRunsAllItsSteps := by
  intro s k x n h hn hinterval hbus d ws
  obtain ⟨w', hw, he⟩ | ⟨hwhy, -⟩ := Stepper.runCount_spec s.params k (toInt_ne_zero hn) x s.world
  · obtain ⟨t, ht, hx, hsame, hworld⟩ := h.leaves (y := x.moved n.toInt) h.flight (he ▸ exec_stStep h n)
    rw [Stepper.moved, BitVec.ofInt_toInt] at hx
    refine ⟨t, ht, hx, hsame, ?_⟩
    rw [hworld]
    exact ⟨hw.regs, hw.log, hw.freqHz, hw.lines, congrArg (· ++ _) hw.answers⟩
  · exact absurd hinterval (hwhy hbus).ne'

/-- Settles O32: a run that does not count all its steps does not answer OK. -/
theorem successfulStepMovedByN : Obligations.SuccessfulStepMovedByN := by
  intro s t k x y n b h hn ht hy hb hok
  obtain rfl := Host.Outcome.next.inj ((exec_stStep h n).symm.trans ht)
  obtain ⟨w', -, he⟩ | ⟨-, hfail⟩ := Stepper.runCount_spec s.params k (toInt_ne_zero hn) x s.world
  · rw [he, h.stepper_finish (y := x.moved n.toInt) h.flight] at hy
    obtain rfl := Option.some.inj hy
    rw [Stepper.moved, BitVec.ofInt_toInt]
    exact ⟨rfl, rfl, rfl⟩
  · exact absurd ⟨b, hb, hok⟩ hfail

/-! ST.ROTATE (R142, R143). -/

/-- ST.ROTATE of a finite operand, SPR set: a run of the rounded count, where it fits i64. -/
theorem Stepper.startRotate_exact (hp : p.numeric = .exact) {spr : BitVec 32} (hspr : x.spr = some spr) {revs : Word64}
    {q : Rat} (hq : realOperand revs = some q) :
    Stepper.startRotate p k revs x w =
      if fitsI64 (q * spr.toNat + 1 / 2).floor then Stepper.startCount p (q * spr.toNat + 1 / 2).floor x w
      else Stepper.finish k .rangeError none x w := by
  simp only [Stepper.startRotate, hspr, hq, rotateCount_exact hp, roundHalfUp]

theorem fitsI64_iff {n : Int} : fitsI64 n = true ↔ -(2 ^ 63) ≤ n ∧ n ≤ 2 ^ 63 - 1 := by
  simp [fitsI64]

/-- A count outside i64 is refused. -/
theorem exec_stRotate_out (h : StepperReady s k x) (hp : s.params.numeric = .exact) {spr : BitVec 32}
    (hspr : x.spr = some spr) {revs : Word64} {q : Rat} (hq : realOperand revs = some q)
    (hout : ¬fitsI64 (q * spr.toNat + 1 / 2).floor = true) :
    exec (.stRotate k revs) s = .next (s.putStepper k (Stepper.finish k .rangeError none x s.world)) :=
  exec_of_start_finish h rfl ((Stepper.startRotate_exact hp hspr hq).trans (if_neg hout))

/-- A count within i64 is run. -/
theorem exec_stRotate_fits (h : StepperReady s k x) (hp : s.params.numeric = .exact) {spr : BitVec 32}
    (hspr : x.spr = some spr) {revs : Word64} {q : Rat} (hq : realOperand revs = some q)
    (hfits : fitsI64 (q * spr.toNat + 1 / 2).floor = true) :
    exec (.stRotate k revs) s =
      .next (s.putStepper k (Stepper.runCount s.params k (q * spr.toNat + 1 / 2).floor x s.world)) := by
  have hstart : Stepper.startJob s.params k (.command (.stRotate k revs)) x s.world = _ :=
    (Stepper.startRotate_exact hp hspr hq).trans (if_pos hfits)
  rw [exec_of_stepperReady h rfl, hstart, Stepper.runCount]

theorem toInt_ofInt_of_fits {n : Int} (h : fitsI64 n = true) : (BitVec.ofInt 64 n).toInt = n := by
  obtain ⟨hlow, hhigh⟩ := fitsI64_iff.mp h
  exact BitVec.toInt_ofInt_eq_self (by decide) hlow (by omega)

/-- Settles O36: ST.ROTATE and ST.STEP run the same count. -/
theorem rotateRunsTheRoundedCount : Obligations.RotateRunsTheRoundedCount := by
  intro s k x revs q spr h hp hspr hq n hhigh hlow
  have hfits : fitsI64 n = true := fitsI64_iff.mpr ⟨hlow, hhigh⟩
  have hint : (BitVec.ofInt 64 n).toInt = n := toInt_ofInt_of_fits hfits
  have hrotate := exec_stRotate_fits h hp hspr hq hfits
  have hsame : exec (.stRotate k revs) s = exec (.stStep k (BitVec.ofInt 64 n)) s := by
    rw [hrotate, exec_stStep h, hint]
  refine ⟨hsame, fun hn hinterval hbus => ?run, fun hn hbus => ?stop⟩
  case run =>
    have hne : BitVec.ofInt 64 n ≠ 0 := fun h0 => hn (by rw [← hint, h0]; rfl)
    obtain ⟨t, ht, hx, hother, -⟩ := stepRunsAllItsSteps s k x _ h hne hinterval (by rwa [hint])
    rw [hint] at hx
    exact ⟨t, hsame.trans ht, hother, hx⟩
  case stop =>
    replace hrotate : exec (.stRotate k revs) s =
        .next (s.putStepper k (Stepper.runCount s.params k n x s.world)) := hrotate
    rw [hn, Stepper.runCount_zero_ok hbus] at hrotate
    obtain ⟨t, ht, hx, hother, hworld⟩ := h.leaves h.flight hrotate
    exact ⟨t, ht, hother, hx, hworld ▸ rfl⟩

/-- Settles O37: SPR is looked at first, then the operand, then the count. -/
theorem rotateRefusesInOrder : Obligations.RotateRefusesInOrder := by
  intro s k x revs h hp
  refine ⟨fun hspr => ?unset, fun spr hspr => ⟨fun hq => ?operand, fun q hq hout => ?count⟩⟩
  case unset => exact exec_of_start_finish h rfl (by simp [Stepper.startJob, Stepper.startRotate, hspr])
  case operand => exact exec_of_start_finish h rfl (by simp [Stepper.startJob, Stepper.startRotate, hspr, hq])
  case count =>
    refine exec_stRotate_out h hp hspr hq fun hfits => ?_
    obtain ⟨hlow, hhigh⟩ := fitsI64_iff.mp hfits
    omega

/-- A successful ST.ROTATE moves the counter by the rounded count, keeps SPR, and leaves the stepper ready again. -/
theorem exec_stRotate_answeredOk (h : StepperReady s k x) (hp : s.params.numeric = .exact) {spr : BitVec 32}
    (hspr : x.spr = some spr) {revs : Word64} {q : Rat} (hq : realOperand revs = some q)
    (ht : exec (.stRotate k revs) s = .next t) (hy : t.stepper k = some y) (hok : s.world.AnsweredOk t.world) :
    y.step = x.step + BitVec.ofInt 64 (q * spr.toNat + 1 / 2).floor ∧ y.spr = some spr ∧ StepperReady t k y ∧
      t.params = s.params := by
  by_cases hfits : fitsI64 (q * spr.toNat + 1 / 2).floor = true
  · obtain rfl := Host.Outcome.next.inj ((exec_stRotate_fits h hp hspr hq hfits).symm.trans ht)
    obtain ⟨hstep, hkept, hfree⟩ := Stepper.runCount_answeredOk h.2.2 hok
    obtain rfl := Option.some.inj ((State.putStepper_same h.bound _).symm.trans hy)
    exact ⟨hstep, hkept.trans hspr, ⟨h.1, hy, hfree⟩, rfl⟩
  · obtain rfl := Host.Outcome.next.inj ((exec_stRotate_out h hp hspr hq hfits).symm.trans ht)
    exact absurd hok (World.not_answeredOk rfl Status.noConfusion)

/-! There and back. -/

/-- Exponent and fraction fields are the word without its sign bit. -/
theorem Binary64.fields_congr {a b : Word64} (h : a.toNat % 2 ^ 63 = b.toNat % 2 ^ 63) :
    Binary64.expo a = Binary64.expo b ∧ Binary64.frac a = Binary64.frac b := by
  simp only [Binary64.expo, Binary64.frac]
  omega

/-- An operand with its sign bit turned is the operand's negative. -/
theorem realOperand_signFlip {b : Word64} {q : Rat} (h : realOperand b = some q) :
    realOperand (b ^^^ 0x8000000000000000) = some (-q) := by
  have hlow : (b ^^^ 0x8000000000000000).toNat % 2 ^ 63 = b.toNat % 2 ^ 63 := by
    rw [BitVec.toNat_xor, Nat.xor_mod_two_pow]
    exact Nat.xor_zero _
  have hneg : Binary64.neg (b ^^^ 0x8000000000000000) = !Binary64.neg b := by
    rw [Binary64.neg, BitVec.msb_xor]
    exact Bool.xor_true _
  obtain ⟨hexpo, hfrac⟩ := Binary64.fields_congr hlow
  have hsignificand : Binary64.significand (b ^^^ 0x8000000000000000) = Binary64.significand b := by
    rw [Binary64.significand, Binary64.significand, hexpo, hfrac]
  have hlead : Binary64.leadExponent (b ^^^ 0x8000000000000000) = Binary64.leadExponent b := by
    rw [Binary64.leadExponent, Binary64.leadExponent, hexpo]
  obtain ⟨hfin, rfl⟩ := realOperand_eq_some.mp h
  refine realOperand_eq_some.mpr ⟨hexpo ▸ hfin, ?_⟩
  rw [hneg, hsignificand, hlead]
  cases Binary64.neg b <;> simp

/-- Rounding a number and its negative: the two cancel, but at a half, where both are rounded up (R142). -/
theorem floor_add_half_neg (r : Rat) :
    ((∀ m : Int, r ≠ m + 1 / 2) → (r + 1 / 2).floor + (-r + 1 / 2).floor = 0) ∧
      ((∃ m : Int, r = m + 1 / 2) → (r + 1 / 2).floor + (-r + 1 / 2).floor = 1) := by
  constructor
  · intro hno
    have ha := Rat.floor_le (r + 1 / 2)
    have ha' := Rat.lt_floor_add_one (r + 1 / 2)
    have hb := Rat.floor_le (-r + 1 / 2)
    have hb' := Rat.lt_floor_add_one (-r + 1 / 2)
    have hne := hno ((r + 1 / 2).floor - 1)
    generalize (r + 1 / 2).floor = a at *
    generalize (-r + 1 / 2).floor = b at *
    push_cast at ha' hb' hne
    have hlow : -1 < a + b := by
      have : (-1 : Rat) < a + b := by linarith
      exact_mod_cast this
    have hhigh : a + b < 1 := by
      have hlt : (a : Rat) < r + 1 / 2 := lt_of_le_of_ne ha fun heq => hne (by linarith)
      have : (a + b : Rat) < 1 := by linarith
      exact_mod_cast this
    omega
  · rintro ⟨m, rfl⟩
    have hup : (m + 1 / 2 + 1 / 2 : Rat) = (m + 1 : Int) := by push_cast; ring
    have hdown : (-(m + 1 / 2) + 1 / 2 : Rat) = (-m : Int) := by push_cast; ring
    rw [hup, hdown, Rat.floor_intCast, Rat.floor_intCast]
    omega

/-- Settles O38: the counter moves by the two rounded counts, which are those of r · SPR and of its negative. -/
theorem rotateThereAndBack : Obligations.RotateThereAndBack := by
  intro s t u k x y z revs q spr b c h hp hspr hq ht hy hb hbok hu hz hc hcok
  obtain ⟨hthere, hyspr, hready, hparams⟩ := exec_stRotate_answeredOk h hp hspr hq ht hy ⟨b, hb, hbok⟩
  obtain ⟨hback, -⟩ := exec_stRotate_answeredOk hready (hparams ▸ hp) hyspr (realOperand_signFlip hq) hu hz
    ⟨c, hc, hcok⟩
  obtain ⟨hwhole, hhalf⟩ := floor_add_half_neg (q * spr.toNat)
  rw [hthere, neg_mul, BitVec.add_assoc, ← BitVec.ofInt_add] at hback
  refine ⟨hthere, fun hm => ?_, fun hm => ?_⟩
  · rw [hback, hwhole hm]
    exact BitVec.add_zero _
  · rw [hback, hhalf hm]
    rfl

end Sys2Proof.Machine
end

section
/-! PROOFS. The deadline of a paced step (40_stepper.md R138, R141; 60_exceptions.md R291). -/

namespace Sys2Proof.Machine

variable {p : Params} {s : State} {k : Nat} {x : Stepper} {w w' : World} {todo : List RegW}
  {rest : Stepper → World → Stepper × World} {wakeAt : Nat} {n : Int} {el : Rat}

/-! The deadline check under `NUMERIC = EXACT`. -/

section Pace

variable (hp : p.numeric = .exact) (hpos : 0 < x.interval) (hel : (x.elapsed w.nowValue : Rat) = el)
include hp hpos hel

theorem Stepper.pace_late (hlate : x.interval * 10 ^ 6 < el) (hkill : x.kill = true) :
    x.pace p w = (.late, w.afterNow) := by
  simp only [Stepper.pace, hpos, paceTime_exact hp, Num.lt_fin, hel, hlate, hlate.not_gt, hkill]
  rfl

theorem Stepper.pace_onward (hon : el = x.interval * 10 ^ 6 ∨ x.interval * 10 ^ 6 < el ∧ x.kill = false) :
    x.pace p w = (.onward, w.afterNow) := by
  have hnotEarly : ¬el < x.interval * 10 ^ 6 := by
    obtain heq | ⟨hlate, -⟩ := hon
    · exact heq.not_lt
    · exact hlate.not_gt
  have hnotLate : (decide (x.interval * 10 ^ 6 < el) && x.kill) = false := by
    obtain heq | ⟨-, hkill⟩ := hon
    · simp [heq]
    · simp [hkill]
  simp only [Stepper.pace, hpos, paceTime_exact hp, Num.lt_fin, hel, hnotEarly, hnotLate]
  rfl

theorem Stepper.pace_early (hearly : el < x.interval * 10 ^ 6) :
    x.pace p w = (.sleep (w.nowValue.toNat + (x.interval * 10 ^ 6 - el).ceil.toNat), w.afterNow) := by
  simp only [Stepper.pace, hpos, paceTime_exact hp, sleepNs_exact hp, Num.lt_fin, hel, hearly]
  rfl

end Pace

/-! A paced step whose writes are accepted, by the outcome of its deadline check. -/

section Finish

variable (hbus : w.busOk todo.length)
include hbus

theorem Stepper.finishPaced_onward (hpace : x.pace p (w.wrote p todo) = (.onward, w')) :
    Stepper.finishPaced p k rest todo x w = rest x.stepDone w' := by
  simp [Stepper.finishPaced, issueWrites_ok hbus, hpace]

theorem Stepper.finishPaced_late (hpace : x.pace p (w.wrote p todo) = (.late, w')) :
    Stepper.finishPaced p k rest todo x w = Stepper.stopAndEnd p k .timingError x w' := by
  simp [Stepper.finishPaced, issueWrites_ok hbus, hpace]

theorem Stepper.finishPaced_wakes (hpace : x.pace p (w.wrote p todo) = (.sleep wakeAt, w'))
    (hwake : canWake wakeAt = true) : Stepper.finishPaced p k rest todo x w = rest x.stepDone (w'.wake wakeAt) := by
  simp [Stepper.finishPaced, issueWrites_ok hbus, hpace, hwake]

end Finish

/-! A run of one step. -/

/-- Accepted writes take no time by the time source. -/
@[simp] theorem World.wrote_nowValue (p : Params) (ws : List RegW) (w : World) :
    (w.wrote p ws).nowValue = w.nowValue := rfl

/-- The stepper of a run of n steps with the first step's writes to come. -/
def Stepper.firstStep (p : Params) (n : Int) (x : Stepper) (w : World) : Stepper :=
  (Stepper.beginPaced p (x.begun n) w).1

/-- The world after the first step of a run of n steps: the time is read, the writes are accepted, and the time is read
again. -/
def World.afterFirstStep (p : Params) (n : Int) (x : Stepper) (w : World) : World :=
  (w.afterNow.wrote p (runWrites p x (dirOfCount n) 1)).afterNow

/-- The time between the next reading of the time source and the one after it. -/
def World.readingGap (w : World) : Rat := (w.afterNow.nowValue.toNat : Rat) - (w.nowValue.toNat : Rat)

/-- The elapsed time of the first step is that between its two readings of the time source. -/
theorem Stepper.firstStep_elapsed (p : Params) (n : Int) (x : Stepper) (w : World) :
    ((Stepper.firstStep p n x w).elapsed (w.afterNow.wrote p (runWrites p x (dirOfCount n) 1)).nowValue : Rat) =
      w.readingGap := by
  have helapsed : (Stepper.firstStep p n x w).elapsed w.afterNow.nowValue =
      (w.afterNow.nowValue.toNat : Int) - (w.nowValue.toNat : Int) := rfl
  rw [World.wrote_nowValue, helapsed, World.readingGap, Int.cast_sub, Int.cast_natCast, Int.cast_natCast]

theorem Stepper.firstStep_writes (p : Params) (n : Int) (x : Stepper) (w : World) :
    (Stepper.firstStep p n x w).writes p = runWrites p x (dirOfCount n) 1 :=
  ((runWrites_succ p (x.begun n) 0).trans (List.append_nil _)).symm

section OneStep

variable (hn : n.natAbs = 1)
include hn

theorem Stepper.runCount_one (p : Params) (k : Nat) (x : Stepper) (w : World) :
    Stepper.runCount p k n x w =
      Stepper.finishPaced p k (Stepper.runLoop p k 0) (runWrites p x (dirOfCount n) 1) (Stepper.firstStep p n x w)
        w.afterNow := by
  have hne : n ≠ 0 := by omega
  rw [Stepper.runCount_of_ne_zero p k hne, hn, ← Stepper.firstStep_writes p n x w]
  rfl

/-- The counter has moved by n before the first write. -/
theorem Stepper.firstStep_step (p : Params) (x : Stepper) (w : World) :
    (Stepper.firstStep p n x w).step = x.step + BitVec.ofInt 64 n := by
  rw [← counterAfter_dirOfCount, hn, counterAfter_succ, counterAfter]
  simp [Stepper.firstStep, Stepper.beginPaced, Stepper.begun]

/-- Whatever the bus and the time source do, the counter moves by n. -/
theorem Stepper.runCount_one_step (p : Params) (k : Nat) (x : Stepper) (w : World) :
    (Stepper.runCount p k n x w).1.step = x.step + BitVec.ofInt 64 n := by
  rw [Stepper.runCount_one hn, ← Stepper.firstStep_step hn p x w]
  obtain ⟨j, hj, -, -, he⟩ | ⟨-, w', -, ⟨-, he⟩ | ⟨-, wakeAt, he⟩ | he⟩ :=
    Stepper.finishPaced_spec p k (Stepper.runLoop p k 0) (runWrites p x (dirOfCount n) 1)
      (Stepper.firstStep p n x w) w.afterNow
  all_goals exact (congrArg (fun r : Stepper × World => r.1.step) he :)

/-- A command that ends after the first step leaves the stepper moved by n. -/
theorem Stepper.finish_firstStep (p : Params) (st : Status) (x : Stepper) (w w' : World) :
    Stepper.finish k st none { Stepper.firstStep p n x w with run := .idle } w' =
      Stepper.finish k st none (x.moved n) w' := by
  rw [Stepper.moved, ← Stepper.firstStep_step hn p x w]
  rfl

section Deadline

variable (hp : p.numeric = .exact) (hpos : 0 < x.interval) (hbus : w.busOk 24)
include hp hpos hbus

theorem Stepper.runCount_one_late (hlate : x.interval * 10 ^ 6 < w.readingGap) (hkill : x.kill = true) :
    Stepper.runCount p k n x w =
      Stepper.stopAndEnd p k .timingError (x.moved n) (World.afterFirstStep p n x w) := by
  have hpace := Stepper.pace_late (x := Stepper.firstStep p n x w) hp hpos (Stepper.firstStep_elapsed p n x w)
    hlate hkill
  rw [Stepper.runCount_one hn, Stepper.finishPaced_late hbus hpace]
  exact Stepper.finish_firstStep hn p _ x w _

theorem Stepper.runCount_one_onward (hon : w.readingGap = x.interval * 10 ^ 6 ∨
      x.interval * 10 ^ 6 < w.readingGap ∧ x.kill = false) :
    Stepper.runCount p k n x w = Stepper.finish k .ok none (x.moved n) (World.afterFirstStep p n x w) := by
  have hpace := Stepper.pace_onward (x := Stepper.firstStep p n x w) hp hpos (Stepper.firstStep_elapsed p n x w) hon
  rw [Stepper.runCount_one hn, Stepper.finishPaced_onward hbus hpace]
  exact Stepper.finish_firstStep hn p _ x w _

theorem Stepper.runCount_one_early (hearly : w.readingGap < x.interval * 10 ^ 6)
    (hwakeAt : wakeAt = w.afterNow.nowValue.toNat + (x.interval * 10 ^ 6 - w.readingGap).ceil.toNat)
    (hwake : canWake wakeAt = true) :
    Stepper.runCount p k n x w =
      Stepper.finish k .ok none (x.moved n) ((World.afterFirstStep p n x w).wake wakeAt) := by
  subst hwakeAt
  have hpace := Stepper.pace_early (x := Stepper.firstStep p n x w) hp hpos (Stepper.firstStep_elapsed p n x w)
    hearly
  rw [World.wrote_nowValue] at hpace
  rw [Stepper.runCount_one hn, Stepper.finishPaced_wakes hbus hpace hwake]
  exact Stepper.finish_firstStep hn p _ x w _

end Deadline

end OneStep

/-- A sleep that is not over yet, and whose end the time source can reach, wakes at its end. -/
theorem World.wake_clock_toNat (hlow : w.clock.toNat ≤ wakeAt) (hwake : canWake wakeAt = true) :
    (w.wake wakeAt).clock.toNat = wakeAt := by
  rw [World.wake_clock, if_pos hlow, BitVec.toNat_ofNat, Nat.mod_eq_of_lt (of_decide_eq_true hwake)]

/-- Settles O34: the deadline check of the one step, in its three outcomes. -/
theorem deadlineDecidesAPacedStep : Obligations.DeadlineDecidesAPacedStep := by
  intro s k x n h hn hp hpos hbus d ws T t1 el
  have hone : n.toInt.natAbs = 1 := by obtain rfl | rfl := hn <;> rfl
  have hdir : dirOfCount n.toInt = d := by obtain rfl | rfl := hn <;> rfl
  have hmoved : x.moved n.toInt = { x with step := x.step + n, dir := d, run := .idle } := by
    rw [Stepper.moved, BitVec.ofInt_toInt, hdir]
  have hended : ∀ st w', (Stepper.finish k st none (x.moved n.toInt) w').1 =
      { x with step := x.step + n, dir := d, run := .idle, ctl := x.ctl.ended st none } := fun st w' => by
    rw [hmoved]
    exact Stepper.finish_fst h.flight
  have hlog : (World.afterFirstStep s.params n.toInt x s.world).log =
      s.world.log ++ ws.map (accepted s.params) := by
    rw [World.afterFirstStep, hdir]
    rfl
  refine ⟨_, _, exec_stStep h n, State.putStepper_same h.bound _, ?step, s.putStepper_sameBut k _,
    fun hlate hkill => ?late, fun hon => ?onward, fun hearly hreach => ?early⟩
  case step => rw [Stepper.runCount_one_step hone, BitVec.ofInt_toInt]
  case late =>
    have hstop : ∀ w' : World, (Stepper.stopAndEnd s.params k .timingError (x.moved n.toInt) w').2.log =
        w'.log ++ (allStopAddrs s.params).map fun a => accepted s.params (a, 0) := fun _ => rfl
    rw [State.putStepper_world, Stepper.runCount_one_late hone hp hpos hbus hlate hkill, hstop, hlog, List.map_append,
      List.map_map, List.append_assoc]
    exact ⟨hended _ _, rfl⟩
  case onward =>
    rw [State.putStepper_world, Stepper.runCount_one_onward hone hp hpos hbus hon]
    exact ⟨hended _ _, hlog, rfl⟩
  case early =>
    have hceil : 0 ≤ (T - el).ceil := by
      have hpositive : (0 : Rat) ≤ (T - el).ceil := (sub_nonneg.mpr hearly.le).trans Rat.le_ceil
      exact_mod_cast hpositive
    have hwake : canWake (t1.toNat + (T - el).ceil.toNat) = true := decide_eq_true (by omega)
    have hclock := World.wake_clock_toNat (w := World.afterFirstStep s.params n.toInt x s.world)
      (Nat.le_add_right t1.toNat _) hwake
    rw [State.putStepper_world, Stepper.runCount_one_early hone hp hpos hbus hearly rfl hwake]
    refine ⟨hended _ _, hlog, (congrArg Nat.cast hclock).trans ?_⟩
    rw [Nat.cast_add, Int.toNat_of_nonneg hceil]

end Sys2Proof.Machine
end

section
/-! PROOFS. The servo's commands (41_servo.md R180 to R190): those that end at once, the duty of a width, and the position
that SV.SETPOS commits after its four register writes. -/

namespace Sys2Proof.Machine

variable {p : Params} {s : State} {j : Nat} {x y : Servo} {i : Instr} {st : Status} {res : Option Word64} {w : World}

/-! A command to a servo that is ready. -/

theorem ServoReady.bound (h : ServoReady s j x) : s.servo j = some x := h.2.1

theorem ServoReady.flight (h : ServoReady s j x) : x.flight = none := Servo.free_flight h.2.2

/-- A command to a ready servo is started and run to its end. -/
theorem exec_of_servoReady (h : ServoReady s j x) (hi : i.target = ⟨.servo, j⟩) :
    exec i s = .next (s.putServo j
      (Servo.complete s.params j (Servo.startJob s.params j (.command i) x s.world).1
        (Servo.startJob s.params j (.command i) x s.world).2)) := by
  obtain ⟨hrun, hx, hfree⟩ := h
  rw [exec_eq, hi]
  exact servoCommand_runs hrun hx hfree

/-- A command that ends in the action that starts it. -/
theorem exec_of_servo_start_finish (h : ServoReady s j x) (hi : i.target = ⟨.servo, j⟩)
    (hstart : Servo.startJob s.params j (.command i) x s.world = Servo.finish j st res y w) :
    exec i s = .next (s.putServo j (Servo.finish j st res y w)) := by
  rw [exec_of_servoReady h hi, hstart, Servo.complete_finish]

/-- A servo whose command has ended has none in flight; the rest is as it was but for the response. -/
theorem Servo.finish_fst (hy : y.flight = none) :
    (Servo.finish j st res y w).1 = { y with ctl := y.ctl.ended st res } := by
  rw [Servo.finish, ← hy]

/-- What a command that has ended leaves: the servo, the world, and nothing else changed. -/
theorem ServoReady.leaves (h : ServoReady s j x) (hy : y.flight = none)
    (he : exec i s = .next (s.putServo j (Servo.finish j st res y w))) :
    ∃ t, exec i s = .next t ∧ SameBut ⟨.servo, j⟩ s t ∧ t.servo j = some { y with ctl := y.ctl.ended st res } ∧
      t.world = w.answer (some ⟨.servo, j⟩) (y.ctl.ended st res) :=
  ⟨_, he, s.putServo_sameBut j _, by rw [State.putServo_same h.bound, Servo.finish_fst hy], rfl⟩

/-- A command that ends in the action that starts it leaves the port alone. -/
theorem ServoReady.ends (h : ServoReady s j x) (hi : i.target = ⟨.servo, j⟩) (hy : y.flight = none)
    (hstart : Servo.startJob s.params j (.command i) x s.world = Servo.finish j st res y s.world) :
    ∃ t, exec i s = .next t ∧ SameBut ⟨.servo, j⟩ s t ∧ SamePort s.world t.world ∧
      t.servo j = some { y with ctl := y.ctl.ended st res } := by
  obtain ⟨t, he, hsame, hx, hw⟩ := h.leaves hy (exec_of_servo_start_finish h hi hstart)
  exact ⟨t, he, hsame, hw ▸ World.answer_samePort _ _ _, hx⟩

/-! Commands that end at once. -/

theorem Servo.startSetlimits_stores {mn ne mx : Word64} {a b c : Rat} (ha : realOperand mn = some a)
    (hb : realOperand ne = some b) (hc : realOperand mx = some c) (hord : 0 < a ∧ a < b ∧ b < c) (x : Servo) (w : World) :
    Servo.startSetlimits j mn ne mx x w = Servo.finish j .ok none { x with limits := ⟨a, b, c⟩ } w := by
  simp [Servo.startSetlimits, ha, hb, hc, hord]

theorem Servo.startSetlimits_refuses {mn ne mx : Word64} (h : ¬∃ a b c, realOperand mn = some a ∧
      realOperand ne = some b ∧ realOperand mx = some c ∧ 0 < a ∧ a < b ∧ b < c) (x : Servo) (w : World) :
    Servo.startSetlimits j mn ne mx x w = Servo.finish j .rangeError none x w := by
  unfold Servo.startSetlimits
  split
  · rename_i a b c ha hb hc
    exact if_neg fun hord => h ⟨a, b, c, ha, hb, hc, hord⟩
  · rfl

/-- Settles O42: the operands are an ordered triple, which is stored, or are not; SV.SETLIMITS ends at once either way. -/
theorem setlimitsDemandsOrder : Obligations.SetlimitsDemandsOrder := by
  intro s j x mn ne mx h
  by_cases hgood : ∃ a b c, realOperand mn = some a ∧ realOperand ne = some b ∧ realOperand mx = some c ∧
    0 < a ∧ a < b ∧ b < c
  · obtain ⟨a, b, c, ha, hb, hc, hord⟩ := hgood
    obtain ⟨t, he, hsame, hport, hx⟩ := h.ends (i := .svSetlimits j mn ne mx) (y := { x with limits := ⟨a, b, c⟩ }) rfl
      h.flight (Servo.startSetlimits_stores ha hb hc hord x _)
    refine ⟨t, he, hsame, hport, fun a' b' c' ha' hb' hc' _ _ _ => ?_, fun hno => absurd ⟨a, b, c, ha, hb, hc, hord⟩ hno⟩
    obtain rfl := Option.some.inj (ha.symm.trans ha')
    obtain rfl := Option.some.inj (hb.symm.trans hb')
    obtain rfl := Option.some.inj (hc.symm.trans hc')
    exact hx
  · obtain ⟨t, he, hsame, hport, hx⟩ := h.ends (i := .svSetlimits j mn ne mx) (y := x) rfl h.flight
      (Servo.startSetlimits_refuses hgood x _)
    exact ⟨t, he, hsame, hport, fun a b c ha hb hc hpos hab hbc => absurd ⟨a, b, c, ha, hb, hc, hpos, hab, hbc⟩ hgood,
      fun _ => hx⟩

theorem Servo.startSetrange_stores {mn mx : Word64} {a b : Rat} (ha : realOperand mn = some a)
    (hb : realOperand mx = some b) (hord : a < b) (x : Servo) (w : World) :
    Servo.startSetrange j mn mx x w = Servo.finish j .ok none { x with minX := a, maxX := b } w := by
  simp [Servo.startSetrange, ha, hb, hord]

theorem Servo.startSetrange_refuses {mn mx : Word64}
    (h : ¬∃ a b, realOperand mn = some a ∧ realOperand mx = some b ∧ a < b) (x : Servo) (w : World) :
    Servo.startSetrange j mn mx x w = Servo.finish j .rangeError none x w := by
  unfold Servo.startSetrange
  split
  · rename_i a b ha hb
    exact if_neg fun hord => h ⟨a, b, ha, hb, hord⟩
  · rfl

/-- Settles O43: the operands are an ordered pair, which is stored, or are not; SV.SETRANGE ends at once either way. -/
theorem setrangeDemandsOrder : Obligations.SetrangeDemandsOrder := by
  intro s j x mn mx h
  by_cases hgood : ∃ a b, realOperand mn = some a ∧ realOperand mx = some b ∧ a < b
  · obtain ⟨a, b, ha, hb, hord⟩ := hgood
    obtain ⟨t, he, hsame, hport, hx⟩ := h.ends (i := .svSetrange j mn mx) (y := { x with minX := a, maxX := b }) rfl
      h.flight (Servo.startSetrange_stores ha hb hord x _)
    refine ⟨t, he, hsame, hport, fun a' b' ha' hb' _ => ?_, fun hno => absurd ⟨a, b, ha, hb, hord⟩ hno⟩
    obtain rfl := Option.some.inj (ha.symm.trans ha')
    obtain rfl := Option.some.inj (hb.symm.trans hb')
    exact hx
  · obtain ⟨t, he, hsame, hport, hx⟩ := h.ends (i := .svSetrange j mn mx) (y := x) rfl h.flight
      (Servo.startSetrange_refuses hgood x _)
    exact ⟨t, he, hsame, hport, fun a b ha hb hord => absurd ⟨a, b, ha, hb, hord⟩ hgood, fun _ => hx⟩

theorem Servo.startGetpos_none (hpos : x.pos = none) (w : World) :
    Servo.startGetpos j x w = Servo.finish j .noValue none x w := by
  simp [Servo.startGetpos, hpos]

theorem Servo.startGetpos_some {q : Rat} (hpos : x.pos = some q) (w : World) :
    Servo.startGetpos j x w = Servo.finish j .ok (some (Binary64.ofRat q)) x w := by
  simp [Servo.startGetpos, hpos]

/-- Settles O50: SV.GETPOS ends at once, by whether there is a position. -/
theorem getposReturnsThePosition : Obligations.GetposReturnsThePosition := by
  intro s j x h
  obtain hpos | ⟨q, hpos⟩ := Option.eq_none_or_eq_some x.pos
  · obtain ⟨t, he, hsame, hport, hx⟩ := h.ends (i := .svGetpos j) rfl h.flight (Servo.startGetpos_none hpos _)
    exact ⟨t, he, hsame, hport, fun _ => hx, fun q hq => absurd (hpos.symm.trans hq) nofun⟩
  · obtain ⟨t, he, hsame, hport, hx⟩ := h.ends (i := .svGetpos j) rfl h.flight (Servo.startGetpos_some hpos _)
    refine ⟨t, he, hsame, hport, fun hnone => absurd (hnone.symm.trans hpos) nofun, fun q' hq' => ?_⟩
    obtain rfl := Option.some.inj (hpos.symm.trans hq')
    exact hx

/-! The duty of a width under `NUMERIC = EXACT` (R183). -/

/-- Rounding keeps a number between two integers. -/
theorem roundHalfUp_mem {v : Rat} {m n : Int} (hlow : (m : Rat) ≤ v) (hhigh : v ≤ n) :
    m ≤ roundHalfUp v ∧ roundHalfUp v ≤ n := by
  refine ⟨Rat.le_floor_iff.mpr (by linarith), Int.lt_add_one_iff.mp (Rat.floor_lt_iff.mpr ?_)⟩
  push_cast
  linarith

/-- The duty of a width within the period, before it becomes a timing value: it fits twelve bits. -/
theorem roundedDuty_mem {period ms : Rat} (hpos : 0 < ms) (hle : ms ≤ period) :
    0 ≤ roundHalfUp (ms / period * 4095) ∧ roundHalfUp (ms / period * 4095) ≤ 4095 := by
  have hperiod : 0 < period := hpos.trans_le hle
  have hnonneg : 0 ≤ ms / period := (div_pos hpos hperiod).le
  have hone : ms / period ≤ 1 := (div_le_one hperiod).mpr hle
  apply roundHalfUp_mem <;> push_cast <;> linarith

theorem servoDuty_toNat (hp : p.numeric = .exact) {hz ms : Rat} (hfreq : freqLegal hz = true) (hpos : 0 < ms)
    (hle : ms ≤ 1000 / hz) : ((servoDuty p hz ms).toNat : Int) = roundHalfUp (ms / (1000 / hz) * 4095) := by
  obtain ⟨hlow, hhigh⟩ := roundedDuty_mem hpos hle
  rw [servoDuty_exact hp hfreq, BitVec.toNat_ofInt]
  omega

/-- The rounded duty as a 16-bit word has the value of the 13-bit timing value: neither loses a bit. -/
theorem word_toNat_eq_servoDuty (hp : p.numeric = .exact) {hz ms : Rat} (hfreq : freqLegal hz = true) (hpos : 0 < ms)
    (hle : ms ≤ 1000 / hz) :
    (BitVec.ofInt 16 (roundHalfUp (ms / (1000 / hz) * 4095))).toNat = (servoDuty p hz ms).toNat := by
  obtain ⟨hlow, hhigh⟩ := roundedDuty_mem hpos hle
  have hduty := servoDuty_toNat hp hfreq hpos hle
  rw [BitVec.toNat_ofInt]
  omega

/-- Settles O46: the duty is the rounded number, which lies in [0, 4095]. -/
theorem dutyFitsTwelveBits : Obligations.DutyFitsTwelveBits := by
  intro p hz ms hp hfreq hpos hle
  obtain ⟨hlow, hhigh⟩ := roundedDuty_mem hpos hle
  have hduty := servoDuty_toNat hp hfreq hpos hle
  exact ⟨hduty.trans (max_eq_right hlow).symm, by omega⟩

/-- The bytes of a timing value are the two bytes of the 16-bit word of the same value. -/
theorem timing_bytes {d : BitVec 16} {v : Timing} (h : d.toNat = v.toNat) :
    d.extractLsb' 0 8 = timingLow v ∧ d.extractLsb' 8 8 = timingHigh v := by
  have hv := v.isLt
  constructor <;> apply BitVec.eq_of_toNat_eq
  · simp [timingLow, h]
  · simp [timingHigh, h, Nat.shiftRight_eq_div_pow]
    omega

/-! A width against the limits and the period (R184), and what its command leaves. -/

section Width

variable {ms : Rat} {pos : Option Rat} {n : Nat}

/-- A command of width `ms` (R184), started and run to its end. -/
def Servo.runWidth (p : Params) (j : Nat) (ms : Rat) (pos : Option Rat) (x : Servo) (w : World) : Servo × World :=
  Servo.complete p j (Servo.startWidth p j ms pos x w).1 (Servo.startWidth p j ms pos x w).2

/-- A width passes the checks of R184. -/
def Servo.Accepts (p : Params) (hz : Rat) (x : Servo) (ms : Rat) : Prop :=
  x.limits.min ≤ ms ∧ ms ≤ x.limits.max ∧ Num.lt (servoPeriod p hz) (.fin ms) = false

theorem Servo.runWidth_refuses (h : ¬x.Accepts p w.freqHz ms) :
    Servo.runWidth p j ms pos x w = Servo.finish j .rangeError none x w := by
  have hstart : Servo.startWidth p j ms pos x w = Servo.finish j .rangeError none x w := by
    unfold Servo.startWidth
    split
    · rfl
    · rename_i hlimits
      obtain ⟨hmin, hmax⟩ := not_or.mp hlimits
      exact if_pos (by simpa [Servo.Accepts, not_lt.mp hmin, not_lt.mp hmax] using h)
  rw [Servo.runWidth, hstart, Servo.complete_finish]

theorem Servo.startWidth_writes (h : x.Accepts p w.freqHz ms) : Servo.startWidth p j ms pos x w =
      ({ x with flight := some (.writing (channelWrites p x.ch 0 (servoDuty p w.freqHz ms)) pos) }, w) := by
  obtain ⟨hmin, hmax, hperiod⟩ := h
  simp [Servo.startWidth, hmin.not_gt, hmax.not_gt, hperiod]

/-- An accepted width whose four writes are accepted. -/
theorem Servo.runWidth_ok (h : x.Accepts p w.freqHz ms) (hbus : w.busOk 4) : Servo.runWidth p j ms pos x w =
      Servo.commit j pos x (w.wrote p (channelWrites p x.ch 0 (servoDuty p w.freqHz ms))) := by
  rw [Servo.runWidth, Servo.startWidth_writes h, Servo.complete_writing_ok rfl hbus]
  rfl

/-- An accepted width whose write n is the first to fail. -/
theorem Servo.runWidth_fails (h : x.Accepts p w.freqHz ms) (hn : n < 4) (hbus : w.busOk n) (hfail : w.busAt n ≠ .ok) :
    ∃ w', Servo.runWidth p j ms pos x w = Servo.finish j .busError none x w' ∧
      w'.log = w.log ++ failedLog p (channelWrites p x.ch 0 (servoDuty p w.freqHz ms)) n (w.busAt n) ∧
      w'.answers = w.answers := by
  rw [Servo.runWidth, Servo.startWidth_writes h, Servo.complete_writing_fails rfl hn hbus hfail]
  exact ⟨_, rfl, World.failed_log hn, rfl⟩

/-- A command of an accepted width whose write n is the first to fail leaves POS and every other field but the response. The
count of free values drawn (log 14) is all of the world that may have changed before its first write. -/
theorem ServoReady.leaves_failed {fresh : Nat} (h : ServoReady s j x)
    (he : exec i s = .next (s.putServo j (Servo.runWidth s.params j ms pos x { s.world with fresh := fresh })))
    (hms : x.Accepts s.params s.world.freqHz ms) (hn : n < 4) (hbus : s.world.busOk n) (hfail : s.world.busAt n ≠ .ok) :
    ∃ t, exec i s = .next t ∧ SameBut ⟨.servo, j⟩ s t ∧
      t.servo j = some { x with ctl := x.ctl.ended .busError none } ∧
      t.world.log = s.world.log ++ failedLog s.params
        (channelWrites s.params x.ch 0 (servoDuty s.params s.world.freqHz ms)) n (s.world.busAt n) ∧
      t.world.answers = s.world.answers ++ [⟨some ⟨.servo, j⟩, .busError, x.ctl.readResult⟩] := by
  obtain ⟨w', hrun, hlog, hans⟩ := Servo.runWidth_fails (j := j) (pos := pos) (w := { s.world with fresh := fresh })
    hms hn hbus hfail
  obtain ⟨t, he, hsame, hx, hw⟩ := h.leaves h.flight (hrun ▸ he)
  refine ⟨t, he, hsame, hx, hw ▸ hlog, ?_⟩
  rw [hw, World.answer_answers, hans]
  rfl

/-- Under `NUMERIC = EXACT` the period is compared exactly. -/
theorem Servo.accepts_iff_exact (hp : p.numeric = .exact) {hz : Rat} (hfreq : freqLegal hz = true) :
    x.Accepts p hz ms ↔ x.limits.min ≤ ms ∧ ms ≤ x.limits.max ∧ ms ≤ 1000 / hz := by
  rw [Servo.Accepts, servoPeriod_exact hp hfreq, Num.lt_fin, decide_eq_false_iff_not, not_lt]

end Width

/-! SV.SETPW (R184). -/

/-- SV.SETPW of an operand that is a number is the command of that width. -/
theorem exec_svSetpw (h : ServoReady s j x) {ms : Word64} {q : Rat} (hq : realOperand ms = some q) :
    exec (.svSetpw j ms) s = .next (s.putServo j (Servo.runWidth s.params j q none x s.world)) := by
  have hstart : Servo.startJob s.params j (.command (.svSetpw j ms)) x s.world =
      Servo.startWidth s.params j q none x s.world := by
    simp [Servo.startJob, Servo.startSetpw, hq]
  rw [exec_of_servoReady h rfl, hstart, Servo.runWidth]

/-- Settles O44: the width is accepted, and its duty, as O46 gives it, has the two bytes written. -/
theorem setpwWritesTheDuty : Obligations.SetpwWritesTheDuty := by
  intro s j x ms q h hp hfreq hq hmin hmax hperiod hpos hbus d ws
  have hws : channelWrites s.params x.ch 0 (servoDuty s.params s.world.freqHz q) = ws := by
    obtain ⟨hlowByte, hhighByte⟩ := timing_bytes (d := d) (word_toNat_eq_servoDuty hp hfreq hpos hperiod)
    simp only [ws, hlowByte, hhighByte]
    rfl
  have he := exec_svSetpw h hq
  rw [Servo.runWidth_ok ((Servo.accepts_iff_exact hp hfreq).mpr ⟨hmin, hmax, hperiod⟩) hbus, hws] at he
  obtain ⟨t, he, hsame, hx, hw⟩ := h.leaves h.flight he
  exact ⟨t, he, hx, hsame, hw⟩

/-- Settles O45: an operand that is no number, or a width refused by the limits or the period. -/
theorem setpwRefusesOutOfRange : Obligations.SetpwRefusesOutOfRange := by
  intro s j x ms h hp hfreq hbad
  obtain hnone | ⟨q, hq, hout⟩ := hbad
  · exact exec_of_servo_start_finish h rfl (by simp [Servo.startJob, Servo.startSetpw, hnone])
  · rw [exec_svSetpw h hq, Servo.runWidth_refuses]
    rwa [Servo.accepts_iff_exact hp hfreq, not_and_or, not_and_or, not_le, not_le, not_le]

/-! SV.SETPOS (R186). -/

/-- SV.SETPOS of a position in range is the command of its width. -/
theorem exec_svSetpos (h : ServoReady s j x) {pos : Word64} {q : Rat} (hq : realOperand pos = some q)
    (hmin : x.minX ≤ q) (hmax : q ≤ x.maxX) :
    exec (.svSetpos j pos) s = .next (s.putServo j (Servo.runWidth s.params j (servoWidth s.params x q s.world) (some q) x
      (s.world.afterWidth s.params x q))) := by
  have hstart : Servo.startJob s.params j (.command (.svSetpos j pos)) x s.world = Servo.startWidth s.params j
      (servoWidth s.params x q s.world) (some q) x (s.world.afterWidth s.params x q) := by
    simp [Servo.startJob, Servo.startSetpos, hq, hmin.not_gt, hmax.not_gt]
  rw [exec_of_servoReady h rfl, hstart, Servo.runWidth]

theorem exec_svSetpos_out (h : ServoReady s j x) {pos : Word64} {q : Rat} (hq : realOperand pos = some q)
    (hout : q < x.minX ∨ x.maxX < q) :
    exec (.svSetpos j pos) s = .next (s.putServo j (Servo.finish j .rangeError none x s.world)) :=
  exec_of_servo_start_finish h rfl (by simp [Servo.startJob, Servo.startSetpos, hq, hout])

/-- Settles O49: either command is that of an accepted width, which ends in BUS_ERROR at its first failing write. -/
theorem busErrorKeepsThePosition : Obligations.BusErrorKeepsThePosition := by
  intro s j x n h hn hbus hfail fails
  constructor
  · intro ms q hq hmin hmax hperiod
    exact h.leaves_failed (exec_svSetpw h hq) ⟨hmin, hmax, hperiod⟩ hn hbus hfail
  · intro pos q hq hlow hhigh hmin hmax hperiod
    exact h.leaves_failed (exec_svSetpos h hq hlow hhigh) ⟨hmin, hmax, hperiod⟩ hn hbus hfail

/-! The width of a position under `NUMERIC = EXACT`. -/

theorem limitsOrdered_iff (l : Limits) : limitsOrdered l = true ↔ 0 < l.min ∧ l.min < l.neutral ∧ l.neutral < l.max := by
  simp [limitsOrdered, and_assoc]

/-- The width of position q on the line through (MINX, MAXPW) and (MAXX, MINPW) (R186). -/
def Servo.lineWidth (x : Servo) (q : Rat) : Rat :=
  x.limits.max + (q - x.minX) * (x.limits.min - x.limits.max) / (x.maxX - x.minX)

section Line

variable {q : Rat}

theorem Servo.lineWidth_minX (x : Servo) : x.lineWidth x.minX = x.limits.max := by
  simp [Servo.lineWidth]

theorem Servo.lineWidth_maxX (hrange : x.minX < x.maxX) : x.lineWidth x.maxX = x.limits.min := by
  rw [Servo.lineWidth, mul_div_cancel_left₀ _ (sub_pos.mpr hrange).ne']
  ring

/-- The line falls, so in range its width lies between those of its two ends. -/
theorem Servo.lineWidth_mem (hlimits : limitsOrdered x.limits = true) (hrange : x.minX < x.maxX) (hmin : x.minX ≤ q)
    (hmax : q ≤ x.maxX) : x.limits.min ≤ x.lineWidth q ∧ x.lineWidth q ≤ x.limits.max := by
  obtain ⟨-, hlow, hhigh⟩ := (limitsOrdered_iff _).mp hlimits
  have hfrac : x.lineWidth q = x.limits.max - (q - x.minX) / (x.maxX - x.minX) * (x.limits.max - x.limits.min) := by
    rw [Servo.lineWidth]
    ring
  have hlength : 0 < x.maxX - x.minX := sub_pos.mpr hrange
  have hspan : 0 ≤ x.limits.max - x.limits.min := by linarith
  have hnonneg : 0 ≤ (q - x.minX) / (x.maxX - x.minX) := div_nonneg (sub_nonneg.mpr hmin) hlength.le
  have hone : (q - x.minX) / (x.maxX - x.minX) ≤ 1 := (div_le_one hlength).mpr (by linarith)
  have hupper := mul_le_of_le_one_left hspan hone
  have hlower := mul_nonneg hnonneg hspan
  rw [hfrac]
  constructor <;> linarith

variable (hp : p.numeric = .exact) (hrange : x.minX < x.maxX)
include hp hrange

theorem servoLine_eq_lineWidth (q : Rat) : servoLine p x q = .fin (x.lineWidth q) := servoLine_exact hp hrange q

theorem World.afterWidth_exact (q : Rat) (w : World) : w.afterWidth p x q = w := by
  rw [World.afterWidth, servoLine_eq_lineWidth hp hrange]
  rfl

/-- In range there is nothing to clamp. -/
theorem servoWidth_exact (hlimits : limitsOrdered x.limits = true) (hmin : x.minX ≤ q) (hmax : q ≤ x.maxX) (w : World) :
    servoWidth p x q w = x.lineWidth q := by
  obtain ⟨hlow, hhigh⟩ := Servo.lineWidth_mem hlimits hrange hmin hmax
  rw [servoWidth, servoLine_eq_lineWidth hp hrange, clampWidth, max_eq_left hlow, min_eq_left hhigh]

end Line

section Setpos

variable {pos : Word64} {q : Rat} (h : ServoReady s j x) (hp : s.params.numeric = .exact)
  (hfreq : freqLegal s.world.freqHz = true) (hlimits : limitsOrdered x.limits = true) (hrange : x.minX < x.maxX)
  (hq : realOperand pos = some q) (hmin : x.minX ≤ q) (hmax : q ≤ x.maxX)
include h hp hlimits hrange hq hmin hmax

/-- Under `NUMERIC = EXACT`, SV.SETPOS of a position in range is the command of its width on the line. -/
theorem exec_svSetpos_exact : exec (.svSetpos j pos) s =
    .next (s.putServo j (Servo.runWidth s.params j (x.lineWidth q) (some q) x s.world)) := by
  rw [exec_svSetpos h hq hmin hmax, servoWidth_exact hp hrange hlimits hmin hmax, World.afterWidth_exact hp hrange]

include hfreq

/-- A width within the period, its four writes accepted: the position is committed. -/
theorem exec_svSetpos_ok (hperiod : x.lineWidth q ≤ 1000 / s.world.freqHz) (hbus : s.world.busOk 4) :
    exec (.svSetpos j pos) s = .next (s.putServo j (Servo.finish j .ok none { x with pos := some q }
      (s.world.wrote s.params (channelWrites s.params x.ch 0 (servoDuty s.params s.world.freqHz (x.lineWidth q)))))) := by
  obtain ⟨hlow, hhigh⟩ := Servo.lineWidth_mem hlimits hrange hmin hmax
  rw [exec_svSetpos_exact h hp hlimits hrange hq hmin hmax,
    Servo.runWidth_ok ((Servo.accepts_iff_exact hp hfreq).mpr ⟨hlow, hhigh, hperiod⟩) hbus]
  rfl

/-- A width that exceeds the period is refused. -/
theorem exec_svSetpos_exceeds (hexceeds : 1000 / s.world.freqHz < x.lineWidth q) :
    exec (.svSetpos j pos) s = .next (s.putServo j (Servo.finish j .rangeError none x s.world)) := by
  have hrefused : ¬x.Accepts s.params s.world.freqHz (x.lineWidth q) := fun haccepts => by
    obtain ⟨-, -, hperiod⟩ := (Servo.accepts_iff_exact hp hfreq).mp haccepts
    exact hperiod.not_gt hexceeds
  rw [exec_svSetpos_exact h hp hlimits hrange hq hmin hmax, Servo.runWidth_refuses hrefused]

end Setpos

/-- Settles O47: the line's width lies within the limits, so it is the width SV.SETPOS checks against the period. -/
theorem setposMapsInverted : Obligations.SetposMapsInverted := by
  intro s j x pos q h hp hfreq hlimits hrange hq hmin hmax hbus pw
  obtain ⟨hlow, hhigh⟩ := Servo.lineWidth_mem hlimits hrange hmin hmax
  refine ⟨hlow, hhigh, fun hperiod => ?_, exec_svSetpos_exceeds h hp hfreq hlimits hrange hq hmin hmax⟩
  exact h.leaves (y := { x with pos := some q }) h.flight
    (exec_svSetpos_ok h hp hfreq hlimits hrange hq hmin hmax hperiod hbus)

/-- Settles O48: the ends of the range lie at the ends of the line. -/
theorem setposEndsAreSwapped : Obligations.SetposEndsAreSwapped := by
  intro s j x pos q h hp hfreq hlimits hminX hmaxX hq
  have hrange : x.minX < x.maxX := by rw [hminX, hmaxX]; norm_num
  obtain ⟨t, he⟩ : ∃ t, exec (.svSetpos j pos) s = .next t := ⟨_, exec_of_servoReady h rfl⟩
  refine ⟨t, he, fun hzero hperiod hbus => ?_, fun hhundred hperiod hbus => ?_, fun hout => ?_⟩
  · obtain rfl : q = x.minX := hzero.trans hminX.symm
    rw [← x.lineWidth_minX] at hperiod ⊢
    obtain rfl := Host.Outcome.next.inj
      (he.symm.trans (exec_svSetpos_ok h hp hfreq hlimits hrange hq le_rfl hrange.le hperiod hbus))
    rfl
  · obtain rfl : q = x.maxX := hhundred.trans hmaxX.symm
    rw [← Servo.lineWidth_maxX hrange] at hperiod ⊢
    obtain rfl := Host.Outcome.next.inj
      (he.symm.trans (exec_svSetpos_ok h hp hfreq hlimits hrange hq hrange.le le_rfl hperiod hbus))
    rfl
  · rw [← hminX, ← hmaxX] at hout
    exact Host.Outcome.next.inj (he.symm.trans (exec_svSetpos_out h hq hout))

end Sys2Proof.Machine
end

section
/-! PROOFS. The readout ring (42_quadrature.md R227, 10_state.md R41): read back newest first, a push puts its sample before
those kept. -/

namespace Sys2Proof.Machine

variable {p : Params} {x : Qdec} {e : Sample} {k : Nat}

@[simp] theorem ringIndex_zero (hhead : x.head < p.ringSize) : ringIndex p x 0 = x.head := by
  rw [ringIndex, Nat.cast_zero, sub_zero, ← Int.natCast_mod, Int.toNat_natCast, Nat.mod_eq_of_lt hhead]

/-- A push moves HEAD on by one, so every place is one further back after it. -/
theorem ringIndex_push (p : Params) (x : Qdec) (e : Sample) (k : Nat) :
    ringIndex p (x.push p e) (k + 1) = ringIndex p x k := by
  have hhead : ((x.push p e).head : Int) = ((x.head : Int) + 1) % p.ringSize := by simp [Qdec.push]
  rw [ringIndex, hhead, Int.emod_sub_emod, Nat.cast_succ, add_sub_add_right_eq_sub, ringIndex]

/-- Going back from HEAD reaches HEAD again only after RING_SIZE places. -/
theorem ringIndex_ne_head (hpos : 0 < k) (hk : k < p.ringSize) : ringIndex p x k ≠ x.head := by
  intro hback
  have hnonneg : 0 ≤ ((x.head : Int) - k) % p.ringSize := Int.emod_nonneg _ (by omega)
  have hmod : ((x.head : Int) - k) % p.ringSize = x.head :=
    (Int.toNat_of_nonneg hnonneg).symm.trans (congrArg Nat.cast hback)
  have hdvd : (p.ringSize : Int) ∣ k := by simpa using Int.dvd_self_sub_of_emod_eq hmod
  exact absurd (Nat.le_of_dvd hpos (Int.natCast_dvd_natCast.mp hdvd)) hk.not_ge

/-- The RING_SIZE - 1 newest samples survive a push, one place further back. -/
theorem Qdec.sample_push (hpos : 0 < k) (hk : k < p.ringSize) :
    (x.push p e).sample p (k + 1) = x.sample p k := by
  have hne : x.head ≠ ringIndex p x k := (ringIndex_ne_head hpos hk).symm
  rw [Qdec.sample, ringIndex_push, Qdec.sample, Qdec.push, List.getD_eq_getElem?_getD, List.getElem?_set_ne hne,
    List.getD_eq_getElem?_getD]

section Push

variable (hlen : x.ring.length = p.ringSize) (hhead : x.head < p.ringSize)
include hlen hhead

theorem Qdec.push_ring_head (e : Sample) : (x.push p e).ring[x.head]? = some e :=
  List.getElem?_set_self (hlen ▸ hhead)

theorem Qdec.newest_push (e : Sample) : (x.push p e).newest p = e := by
  rw [Qdec.newest, Qdec.sample, ringIndex_push, ringIndex_zero hhead, List.getD_eq_getElem?_getD,
    Qdec.push_ring_head hlen hhead, Option.getD_some]

theorem Qdec.samples_push (e : Sample) :
    (x.push p e).samples p = e :: (x.samples p).take (p.ringSize - 1) := by
  have hcount : (x.push p e).count = min (p.ringSize - 1) x.count + 1 := by
    have hmin : (x.push p e).count = min (x.count + 1) p.ringSize := rfl
    omega
  have hnewest : (x.push p e).sample p (0 + 1) = e := Qdec.newest_push hlen hhead e
  rw [Qdec.samples, hcount, List.range_succ_eq_map, List.map_cons, hnewest, List.map_map, Qdec.samples, ← List.map_take,
    List.take_range]
  congr 1
  refine List.map_congr_left fun k hk => Qdec.sample_push (Nat.succ_pos k) ?_
  have hkept := List.mem_range.mp hk
  omega

end Push

/-- Settles O55: the new sample is one place back from the new HEAD, the others one place further back than before. -/
theorem ringKeepsTheNewestSamples : Obligations.RingKeepsTheNewestSamples := by
  intro p x e hlen hhead _
  exact ⟨Qdec.push_ring_head hlen hhead e, rfl, rfl, Qdec.samples_push hlen hhead e, Qdec.newest_push hlen hhead e⟩

theorem Qdec.samples_getElem?_eq_some {i : Nat} :
    (x.samples p)[i]? = some e ↔ i < x.count ∧ x.sample p (i + 1) = e := by
  simp [Qdec.samples, List.getElem?_eq_some_iff]

end Sys2Proof.Machine
end

section
/-! PROOFS. The poll (42_quadrature.md R220 to R230): the transition, the push when one is due, and runs of polls. -/

namespace Sys2Proof.Machine

variable {p : Params} {x : Qdec} {o : BitVec 2} {w : World} {s : State} {d : Nat}

/-! The transition. -/

theorem observed_eq (a b : Bool) : observed a b = if a then (if b then 2 else 1) else (if b then 3 else 0) := by
  cases a <;> cases b <;> rfl

/-- Observing the lines changes GRAY and POS alone. -/
theorem Qdec.observe_frame (p : Params) (o : BitVec 2) (x : Qdec) :
    x.observe p o = { x with gray := (x.observe p o).gray, pos := (x.observe p o).pos } := by
  unfold Qdec.observe
  split
  · rfl
  · split
    · rfl
    · split
      · rfl
      · split <;> rfl

section Frame

variable (p : Params) (o : BitVec 2) (x : Qdec)

@[simp] theorem Qdec.observe_lastT : (x.observe p o).lastT = x.lastT := by rw [Qdec.observe_frame]
@[simp] theorem Qdec.observe_lastPos : (x.observe p o).lastPos = x.lastPos := by rw [Qdec.observe_frame]
@[simp] theorem Qdec.observe_ring : (x.observe p o).ring = x.ring := by rw [Qdec.observe_frame]
@[simp] theorem Qdec.observe_head : (x.observe p o).head = x.head := by rw [Qdec.observe_frame]
@[simp] theorem Qdec.observe_offset : (x.observe p o).offset = x.offset := by rw [Qdec.observe_frame]
@[simp] theorem Qdec.observe_pinA : (x.observe p o).pinA = x.pinA := by rw [Qdec.observe_frame]
@[simp] theorem Qdec.observe_pinB : (x.observe p o).pinB = x.pinB := by rw [Qdec.observe_frame]
@[simp] theorem Qdec.observe_ctl : (x.observe p o).ctl = x.ctl := by rw [Qdec.observe_frame]

@[simp] theorem Qdec.observe_newest : (x.observe p o).newest p = x.newest p := by
  simp [Qdec.newest, Qdec.sample, ringIndex]

end Frame

theorem Qdec.observe_forward (h : o = x.gray + 1) :
    x.observe p o = { x with gray := o, pos := wrapPos p (x.pos + 1) } := if_pos h

theorem Qdec.observe_reverse (h : o = x.gray - 1) :
    x.observe p o = { x with gray := o, pos := wrapPos p (x.pos - 1) } := by
  have hforward : o ≠ x.gray + 1 := by bv_omega
  have hreverse : o = x.gray + 3 := by bv_omega
  rw [Qdec.observe, if_neg hforward, if_pos hreverse]

theorem Qdec.observe_still (h : o = x.gray) : x.observe p o = x := by
  subst h
  simp [Qdec.observe]

theorem Qdec.observe_invalid (h : o = x.gray + 2) :
    x.observe p o = { x with gray := if p.invalidPolicy = .hold then x.gray else o } := by
  subst h
  cases hpolicy : p.invalidPolicy <;> simp [Qdec.observe, hpolicy]

/-! The push when one is due. -/

theorem Qdec.pushes_iff {t : Word64} : x.pushes p t = true ↔ x.lastT = none ∨ x.lastPos ≠ some x.pos ∨
    ∃ t0, x.lastT = some t0 ∧ (p.pollIntervalNs : Int) ≤ (t.toNat : Int) - (t0.toNat : Int) := by
  unfold Qdec.pushes
  split
  · next hnone => simp [hnone]
  · next t0 hsome => simp [hsome]

theorem Qdec.publish_due (h : x.pushes p w.nowValue = true) : x.publish p w =
    ({ x.push p ⟨w.nowValue, sampleValue p x.pos w.afterNow⟩ with lastT := some w.nowValue, lastPos := some x.pos },
      w.afterNow.afterSample p x.pos) := if_pos h

theorem Qdec.publish_idle (h : x.pushes p w.nowValue = false) : x.publish p w = (x, w.afterNow) := by
  simp [Qdec.publish, h]

/-- Publishing changes the ring, LASTT and LASTPOS alone. -/
theorem Qdec.publish_frame (p : Params) (x : Qdec) (w : World) : (x.publish p w).1 = { x with
    lastT := (x.publish p w).1.lastT, lastPos := (x.publish p w).1.lastPos, ring := (x.publish p w).1.ring,
    head := (x.publish p w).1.head, count := (x.publish p w).1.count } := by
  cases h : x.pushes p w.nowValue with
  | true => rw [Qdec.publish_due h]; rfl
  | false => rw [Qdec.publish_idle h]

/-- Publishing reads the time, and writes and reads nothing else. -/
theorem Qdec.publish_world (p : Params) (x : Qdec) (w : World) : SamePort w (x.publish p w).2 ∧
    (x.publish p w).2.answers = w.answers ∧ (x.publish p w).2.clock = w.nowValue := by
  cases h : x.pushes p w.nowValue with
  | true => rw [Qdec.publish_due h]; exact ⟨⟨rfl, rfl, rfl, rfl, rfl⟩, rfl, rfl⟩
  | false => rw [Qdec.publish_idle h]; exact ⟨⟨rfl, rfl, rfl, rfl, rfl⟩, rfl, rfl⟩

theorem Qdec.lastPos_of_not_pushes {t : Word64} (h : x.pushes p t = false) : x.lastPos = some x.pos := by
  by_contra hmoved
  rw [Qdec.pushes_iff.mpr (.inr (.inl hmoved))] at h
  cases h

/-- With or without a push, LASTPOS is POS afterwards. -/
theorem Qdec.publish_lastPos (p : Params) (x : Qdec) (w : World) : (x.publish p w).1.lastPos = some x.pos := by
  cases h : x.pushes p w.nowValue with
  | true => rw [Qdec.publish_due h]
  | false => rw [Qdec.publish_idle h, Qdec.lastPos_of_not_pushes h]

/-- A push makes the newest sample that of POS; without one POS is LASTPOS, whose sample the newest was. -/
theorem Qdec.publish_newest (hp : p.numeric = .exact) (hcounts : 0 < p.countsPerUnit) (hlen : x.ring.length = p.ringSize)
    (hhead : x.head < p.ringSize) (hagree : ∀ n, x.lastPos = some n → (x.newest p).v = (n : Rat) / p.countsPerUnit) :
    ((x.publish p w).1.newest p).v = (x.pos : Rat) / p.countsPerUnit := by
  cases h : x.pushes p w.nowValue with
  | true =>
    rw [Qdec.publish_due h, ← sampleValue_exact hp hcounts _ w.afterNow]
    exact congrArg Sample.v (Qdec.newest_push hlen hhead _)
  | false =>
    rw [Qdec.publish_idle h]
    exact hagree _ (Qdec.lastPos_of_not_pushes h)

/-! The whole poll. -/

/-- The Gray state a poll of these lines observes: line A first, then line B (R221). -/
def Qdec.observes (x : Qdec) (w : World) : BitVec 2 := observed (w.lineNext x.pinA) (w.afterLine.lineNext x.pinB)

theorem Qdec.poll_eq (p : Params) (x : Qdec) (w : World) :
    x.poll p w = (x.observe p (x.observes w)).publish p w.afterLine.afterLine := rfl

theorem Qdec.observes_eq (x : Qdec) (w : World) :
    x.observes w = observed (w.lines.peek (Config.lineLevel x.pinA) 0) (w.lines.peek (Config.lineLevel x.pinB) 1) := by
  rw [Qdec.observes, World.lineNext, World.lineNext, World.afterLine_lines, Tape.next_eq_peek, Tape.next_eq_peek,
    Tape.rest_eq_skip, Tape.peek_skip]

section Frame

variable (p : Params) (x : Qdec) (w : World)

@[simp] theorem Qdec.poll_gray : (x.poll p w).1.gray = (x.observe p (x.observes w)).gray := by
  rw [Qdec.poll_eq, Qdec.publish_frame]

@[simp] theorem Qdec.poll_pos : (x.poll p w).1.pos = (x.observe p (x.observes w)).pos := by
  rw [Qdec.poll_eq, Qdec.publish_frame]

@[simp] theorem Qdec.poll_ctl : (x.poll p w).1.ctl = x.ctl := by
  rw [Qdec.poll_eq, Qdec.publish_frame, Qdec.observe_ctl]

@[simp] theorem Qdec.poll_offset : (x.poll p w).1.offset = x.offset := by
  rw [Qdec.poll_eq, Qdec.publish_frame, Qdec.observe_offset]

@[simp] theorem Qdec.poll_pinA : (x.poll p w).1.pinA = x.pinA := by
  rw [Qdec.poll_eq, Qdec.publish_frame, Qdec.observe_pinA]

@[simp] theorem Qdec.poll_pinB : (x.poll p w).1.pinB = x.pinB := by
  rw [Qdec.poll_eq, Qdec.publish_frame, Qdec.observe_pinB]

end Frame

/-- A poll that is due pushes the time and POS / COUNTS_PER_UNIT (R228). -/
theorem Qdec.poll_due (hp : p.numeric = .exact) (hcounts : 0 < p.countsPerUnit)
    (h : (x.observe p (x.observes w)).pushes p w.nowValue = true) : (x.poll p w).1 =
    { (x.observe p (x.observes w)).push p ⟨w.nowValue, (x.observe p (x.observes w)).pos / p.countsPerUnit⟩ with
      lastT := some w.nowValue, lastPos := some (x.observe p (x.observes w)).pos } := by
  rw [Qdec.poll_eq, Qdec.publish_due (w := w.afterLine.afterLine) h, sampleValue_exact hp hcounts]
  rfl

theorem Qdec.poll_idle (h : (x.observe p (x.observes w)).pushes p w.nowValue = false) :
    (x.poll p w).1 = x.observe p (x.observes w) := by
  rw [Qdec.poll_eq, Qdec.publish_idle (w := w.afterLine.afterLine) h]

/-- Settles O54: the two cases are those of whether the poll pushes. -/
theorem pollPushesWhenDue : Obligations.PollPushesWhenDue := by
  intro p x w hp hcounts y t
  refine ⟨fun hdue => Qdec.poll_due hp hcounts (Qdec.pushes_iff.mpr ?_), fun t0 hT hpos hearly => Qdec.poll_idle ?_⟩
  · rwa [Qdec.observe_lastT, Qdec.observe_lastPos]
  · rw [← Bool.not_eq_true, Qdec.pushes_iff, Qdec.observe_lastT, Qdec.observe_lastPos, hT]
    rintro (hnone | hmoved | ⟨_, ⟨⟩, hdue⟩)
    · cases hnone
    · exact hmoved hpos
    · exact hdue.not_gt hearly

/-- Settles O57: LASTPOS is POS after any poll, and the newest sample is that of POS. -/
theorem publishedValueFollowsTheCounter : Obligations.PublishedValueFollowsTheCounter := by
  intro p x w hp hcounts hlen hhead hagree y
  have hlastPos : y.lastPos = some y.pos := by
    rw [Qdec.poll_pos]
    exact Qdec.publish_lastPos p _ _
  have hnewest : (y.newest p).v = (y.pos : Rat) / p.countsPerUnit := by
    rw [Qdec.poll_pos]
    exact Qdec.publish_newest hp hcounts (by simpa using hlen) (by simpa using hhead) (by simpa using hagree)
  exact ⟨hnewest, fun n hn => by rwa [← Option.some.inj (hlastPos.symm.trans hn)]⟩

/-! QD.POLL and the decoder's own poll. -/

/-- A command to a ready decoder is started, which is also its end. -/
theorem exec_of_qdecReady {i : Instr} (h : QdecReady s d x) (hi : i.target = ⟨.qdec, d⟩) :
    exec i s = .next (s.putQdec d (Qdec.startJob s.params d (.command i) x s.world)) := by
  obtain ⟨hrun, hx, hfree⟩ := h
  rw [exec_eq, hi]
  exact qdecCommand_runs hrun hx hfree

theorem State.pollOf_bound (h : s.qdec d = some x) : s.pollOf d = some (s.putQdec d (x.poll s.params s.world)) := by
  rw [State.pollOf, h, Option.map_some]

/-- Settles O52: either way the decoder takes one poll; the transition decides GRAY and POS, and publishing keeps them. -/
theorem pollMovesTheCounter : Obligations.PollMovesTheCounter := by
  intro s d x hrun hx a b o y w
  have ho : x.observes s.world = o := by rw [Qdec.observes_eq, observed_eq]
  have hgray : y.gray = (x.observe s.params o).gray := ho ▸ x.poll_gray s.params s.world
  have hpos : y.pos = (x.observe s.params o).pos := ho ▸ x.poll_pos s.params s.world
  obtain ⟨⟨hregs, hlog, hfreq, -, -⟩, hanswers, hclock⟩ :=
    (x.observe s.params (x.observes s.world)).publish_world s.params s.world.afterLine.afterLine
  refine ⟨fun hfree => ?command, fun hnext => ?own, hregs, hlog, hanswers, hfreq, hclock, Qdec.poll_ctl ..,
    Qdec.poll_offset .., Qdec.poll_pinA .., Qdec.poll_pinB .., fun h => ?forward, fun h => ?reverse, fun h => ?still,
    fun h => ?invalid⟩
  case command =>
    have hctl : y.ctl = x.ctl := x.poll_ctl s.params s.world
    refine ⟨_, exec_of_qdecReady ⟨hrun, hx, hfree⟩ rfl, ?_, s.putQdec_sameBut d _, ?_⟩
    · rw [State.putQdec_same hx, ← hctl]
      rfl
    · rw [← hctl]
      rfl
  case own =>
    have hx' : s.afterEvent.qdec d = some x := hx
    refine ⟨s.afterEvent.putQdec d (x.poll s.params s.world), ?_, State.putQdec_same hx' _,
      s.afterEvent.putQdec_sameBut d _, rfl⟩
    rw [step_eq_takeEvent hrun hnext, takeEvent, State.pollOf_bound hx', orNoAgent]
    rfl
  case forward => rw [hgray, hpos, Qdec.observe_forward h]; exact ⟨rfl, rfl⟩
  case reverse => rw [hgray, hpos, Qdec.observe_reverse h]; exact ⟨rfl, rfl⟩
  case still => rw [hgray, hpos, Qdec.observe_still h]; exact ⟨rfl, rfl⟩
  case invalid => rw [hgray, hpos, Qdec.observe_invalid h]; exact ⟨rfl, rfl⟩

/-! Runs of polls of scripted levels (R230). -/

theorem wrapPos_wrapPos_add (p : Params) (m n : Int) : wrapPos p (wrapPos p m + n) = wrapPos p (m + n) :=
  Int.bmod_add_bmod

theorem wrapPos_wrapPos_sub (p : Params) (m n : Int) : wrapPos p (wrapPos p m - n) = wrapPos p (m - n) :=
  Int.bmod_sub_bmod

/-- GRAY is `g`, POS is `n`, and the levels still scripted are `l`. -/
def Qdec.CountedTo (g : BitVec 2) (n : Int) (l : List Bool) (r : Qdec × World) : Prop :=
  r.1.gray = g ∧ r.1.pos = n ∧ r.2.lines.script = l

section Counted

variable {a b : Bool} {l : List Bool} {g : BitVec 2} {n : Int} {r : Qdec × World}

theorem Qdec.observes_scripted (h : w.lines.script = a :: b :: l) : x.observes w = observed a b := by
  simp [Qdec.observes, World.lineNext, World.afterLine, Tape.next, Tape.rest, h]

theorem Qdec.poll_lines (p : Params) (x : Qdec) (w : World) : (x.poll p w).2.lines = w.lines.rest.rest := by
  obtain ⟨⟨-, -, -, -, hlines⟩, -⟩ :=
    (x.observe p (x.observes w)).publish_world p w.afterLine.afterLine
  exact hlines

/-- A poll takes the next two levels, and counts as the transition they make does. -/
theorem Qdec.CountedTo.poll {g' : BitVec 2} {n' : Int} (h : Qdec.CountedTo g n (a :: b :: l) r)
    (hobserve : ∀ x : Qdec, x.gray = g → x.pos = n → x.observe p (observed a b) = { x with gray := g', pos := n' }) :
    Qdec.CountedTo g' n' l (r.1.poll p r.2) := by
  obtain ⟨hg, hn, hl⟩ := h
  rw [Qdec.CountedTo, Qdec.poll_gray, Qdec.poll_pos, Qdec.poll_lines, Qdec.observes_scripted hl, hobserve _ hg hn]
  exact ⟨rfl, rfl, by simp [Tape.rest, hl]⟩

theorem Qdec.CountedTo.forward (h : Qdec.CountedTo g n (a :: b :: l) r) (ho : observed a b = g + 1) :
    Qdec.CountedTo (observed a b) (wrapPos p (n + 1)) l (r.1.poll p r.2) :=
  h.poll fun x hg hn => by rw [Qdec.observe_forward (hg ▸ ho), hn]

theorem Qdec.CountedTo.reverse (h : Qdec.CountedTo g n (a :: b :: l) r) (ho : observed a b = g - 1) :
    Qdec.CountedTo (observed a b) (wrapPos p (n - 1)) l (r.1.poll p r.2) :=
  h.poll fun x hg hn => by rw [Qdec.observe_reverse (hg ▸ ho), hn]

end Counted

/-- Settles O53: each poll of a cycle is one step from the GRAY the poll before it left. -/
theorem fourPollsCountFour : Obligations.FourPollsCountFour := by
  intro p x w rest n hgray poll read
  have hstart : ∀ l, Qdec.CountedTo 0 x.pos (l ++ rest) (x, read l) := fun l => ⟨hgray, rfl, rfl⟩
  refine ⟨?forward, ?reverse, fun y a b ho => ?invalid⟩
  case forward =>
    obtain ⟨-, hpos, -⟩ := hstart [true, false, true, true, false, true, false, false]
      |>.forward (p := p) rfl |>.forward (p := p) rfl |>.forward (p := p) rfl |>.forward (p := p) rfl
    refine hpos.trans ?_
    simp only [wrapPos_wrapPos_add, add_assoc]
    rfl
  case reverse =>
    obtain ⟨-, hpos, -⟩ := hstart [false, true, true, true, true, false, false, false]
      |>.reverse (p := p) rfl |>.reverse (p := p) rfl |>.reverse (p := p) rfl |>.reverse (p := p) rfl
    refine hpos.trans ?_
    simp only [wrapPos_wrapPos_sub, sub_sub]
    rfl
  case invalid =>
    have hobserves : y.observes (read [a, b]) = y.gray + 2 := by
      rw [Qdec.observes_scripted (a := a) (b := b) rfl, observed_eq, ho]
    rw [Qdec.poll_pos, Qdec.observe_invalid hobserves]

end Sys2Proof.Machine
end

section
/-! PROOFS. The decoder's commands (42_quadrature.md R231 to R233): each ends in the action that starts it. -/

namespace Sys2Proof.Machine

variable {p : Params} {s : State} {d : Nat} {x y : Qdec} {i : Instr} {st : Status} {res : Option Word64} {w : World}

/-- A command that ends in the action that starts it. -/
theorem exec_of_qdec_start_finish (h : QdecReady s d x) (hi : i.target = ⟨.qdec, d⟩)
    (hstart : Qdec.startJob s.params d (.command i) x s.world = Qdec.finish d st res y w) :
    exec i s = .next (s.putQdec d (Qdec.finish d st res y w)) := by
  rw [exec_of_qdecReady h hi, hstart]

/-- What a command that leaves the port alone leaves when it has ended. -/
theorem QdecReady.ends (h : QdecReady s d x) (hi : i.target = ⟨.qdec, d⟩) (hport : SamePort s.world w)
    (hstart : Qdec.startJob s.params d (.command i) x s.world = Qdec.finish d st res y w) :
    ∃ t, exec i s = .next t ∧ SameBut ⟨.qdec, d⟩ s t ∧ SamePort s.world t.world ∧ t.world.clock = w.clock ∧
      t.qdec d = some { y with ctl := y.ctl.ended st res } := by
  obtain ⟨-, hx, -⟩ := id h
  exact ⟨_, exec_of_qdec_start_finish h hi hstart, s.putQdec_sameBut d _, hport, rfl, State.putQdec_same hx _⟩

theorem SamePort.refl (w : World) : SamePort w w := ⟨rfl, rfl, rfl, rfl, rfl⟩

theorem World.afterNow_samePort (w : World) : SamePort w w.afterNow := ⟨rfl, rfl, rfl, rfl, rfl⟩

/-! QD.GETPOS (R231). -/

theorem Qdec.startGetpos_empty (hempty : x.count = 0) :
    Qdec.startGetpos p d x w = Qdec.finish d .noValue none x w := if_pos hempty

theorem Qdec.startGetpos_exact (hp : p.numeric = .exact) (hcount : 0 < x.count) : Qdec.startGetpos p d x w =
    Qdec.finish d .ok (some (Binary64.ofRat ((x.newest p).v - x.offset))) x w := by
  rw [Qdec.startGetpos, if_neg hcount.ne', hp, Num.sub_exact, Binary64.ofNum]

/-- Settles O56: QD.GETPOS ends at once, by whether the ring is empty. -/
theorem getposReturnsThePublishedValue : Obligations.GetposReturnsThePublishedValue := by
  intro s d x h hp
  obtain hempty | hcount := Nat.eq_zero_or_pos x.count
  · obtain ⟨t, he, hsame, hport, -, hx⟩ := h.ends (i := .qdGetpos d) rfl (.refl _) (Qdec.startGetpos_empty hempty)
    exact ⟨t, he, hsame, hport, fun _ => hx, fun hcount => absurd hempty hcount.ne'⟩
  · obtain ⟨t, he, hsame, hport, -, hx⟩ := h.ends (i := .qdGetpos d) rfl (.refl _) (Qdec.startGetpos_exact hp hcount)
    exact ⟨t, he, hsame, hport, fun hempty => absurd hempty hcount.ne', fun _ => hx⟩

/-! QD.RESET (R233). -/

/-- Settles O60: the newest sample less itself is 0. -/
theorem resetZeroesThePublishedPosition : Obligations.ResetZeroesThePublishedPosition := by
  intro s d x h hp
  obtain ⟨t, he, hsame, hport, -, hx⟩ := h.ends (i := .qdReset d) rfl (.refl _) rfl
  refine ⟨t, he, hsame, hport, hx, fun hcount => ?_⟩
  obtain ⟨hparams, -, hhalted, -⟩ := hsame
  obtain ⟨hrun, -, hfree⟩ := h
  rw [← hparams] at hp hx
  obtain ⟨u, hu, -, -, -, hy⟩ := QdecReady.ends (i := .qdGetpos d) ⟨hhalted.trans hrun, hx, hfree⟩ rfl (.refl _)
    (Qdec.startGetpos_exact hp hcount)
  refine ⟨u, _, hu, hy, rfl, ?_⟩
  have hzero : (x.newest t.params).v - (if 0 < x.count then (x.newest t.params).v else x.offset) = 0 := by
    rw [if_pos hcount, sub_self]
  exact (congrArg Binary64.ofRat hzero).trans rfl

/-! QD.GETDERIV (R232). -/

section Getderiv

variable {window : Word64} {q : Rat} {e : Sample} {i : Nat}

theorem Qdec.startGetderiv_refuses (h : realOperand window = none ∨ ∃ q, realOperand window = some q ∧ q < 0) :
    Qdec.startGetderiv p d window x w = Qdec.finish d .rangeError none x w := by
  obtain hnone | ⟨q, hq, hneg⟩ := h
  · simp [Qdec.startGetderiv, hnone]
  · simp [Qdec.startGetderiv, hq, hneg]

theorem Qdec.startGetderiv_empty (hq : realOperand window = some q) (hnonneg : 0 ≤ q) (hempty : x.count = 0) :
    Qdec.startGetderiv p d window x w = Qdec.finish d .noValue none x w := by
  simp [Qdec.startGetderiv, hq, hnonneg.not_gt, hempty]

section Measures

variable (hq : realOperand window = some q) (hnonneg : 0 ≤ q) (hcount : 0 < x.count)
  (hbase : x.derivBase p w.nowValue q = e)
include hq hnonneg hcount hbase

theorem Qdec.startGetderiv_zeroInterval (hlate : w.nowValue.toNat ≤ e.t.toNat) :
    Qdec.startGetderiv p d window x w = Qdec.finish d .zeroInterval none x w.afterNow := by
  simp [Qdec.startGetderiv, hq, hnonneg.not_gt, hcount.ne', hbase, hlate]

theorem Qdec.startGetderiv_exact (hp : p.numeric = .exact) (hearlier : e.t.toNat < w.nowValue.toNat) :
    Qdec.startGetderiv p d window x w = Qdec.finish d .ok (some (Binary64.ofRat
      (((x.newest p).v - e.v) * 10 ^ 9 / ((w.nowValue.toNat : Rat) - e.t.toNat)))) x w.afterNow := by
  have hdt : 0 < (w.nowValue.toNat : Int) - (e.t.toNat : Int) := by omega
  simp [Qdec.startGetderiv, hq, hnonneg.not_gt, hcount.ne', hbase, hearlier.not_ge, derivative_exact hp _ _ hdt,
    Binary64.ofNum]

end Measures

/-- The sample QD.GETDERIV measures from: the first in the scan that is older than the window, else the last. -/
theorem Qdec.derivBase_exact {now : Word64} (hp : p.numeric = .exact) (he : (x.samples p)[i]? = some e)
    (hnewer : ∀ (m : Nat) (f : Sample), m < i → (x.samples p)[m]? = some f → (now.toNat : Rat) - q * 10 ^ 9 ≤ f.t.toNat)
    (hstop : (e.t.toNat : Rat) < now.toNat - q * 10 ^ 9 ∨ i + 1 = x.count) : x.derivBase p now q = e := by
  rw [Qdec.derivBase, derivThreshold_exact hp]
  by_cases hold : (e.t.toNat : Rat) < now.toNat - q * 10 ^ 9
  · obtain ⟨hi, hei⟩ := List.getElem?_eq_some_iff.mp he
    have hfind := (List.find?_eq_some_iff_getElem (p := fun f : Sample => Num.lt (.fin f.t.toNat)
      (.fin (now.toNat - q * 10 ^ 9)))).mpr ⟨decide_eq_true hold, i, hi, hei, fun m hm => by
        simpa using hnewer m _ hm (List.getElem?_eq_getElem (hm.trans hi))⟩
    rw [hfind, Option.getD_some]
  · have hlast : i + 1 = x.count := hstop.resolve_left hold
    obtain ⟨-, hsample⟩ := Qdec.samples_getElem?_eq_some.mp he
    rw [List.find?_eq_none.mpr fun f hf => ?_, Option.getD_none, Qdec.oldest, ← hlast, hsample]
    obtain ⟨m, hm⟩ := List.mem_iff_getElem?.mp hf
    obtain ⟨hmcount, -⟩ := Qdec.samples_getElem?_eq_some.mp hm
    rw [Num.lt_fin, decide_eq_true_eq, not_lt]
    obtain hlt | rfl := Nat.lt_or_eq_of_le (show m ≤ i by omega)
    · exact hnewer m f hlt hm
    · obtain rfl := Option.some.inj (he.symm.trans hm)
      exact not_lt.mp hold

end Getderiv

/-- Settles O59: neither refusal reads the time. -/
theorem getderivRefusesInOrder : Obligations.GetderivRefusesInOrder := by
  intro s d x window h
  exact ⟨fun hbad => exec_of_qdec_start_finish h rfl (Qdec.startGetderiv_refuses hbad),
    fun q hq hnonneg hempty => exec_of_qdec_start_finish h rfl (Qdec.startGetderiv_empty hq hnonneg hempty)⟩

/-- Settles O58: the sample measured from is `e`; whether the time has moved on since decides the status. -/
theorem getderivMeasuresFromTheRightSample : Obligations.GetderivMeasuresFromTheRightSample := by
  intro s d x window q i e h hp hq hnonneg he hnewer hstop
  have hbase := Qdec.derivBase_exact hp he hnewer hstop
  have hcount : 0 < x.count := by
    obtain ⟨hi, -⟩ := Qdec.samples_getElem?_eq_some.mp he
    exact Nat.zero_lt_of_lt hi
  obtain hearlier | hlate := Nat.lt_or_ge e.t.toNat s.world.nowValue.toNat
  · obtain ⟨t, he, hsame, hport, hclock, hx⟩ := h.ends (i := .qdGetderiv d window) rfl s.world.afterNow_samePort
      (Qdec.startGetderiv_exact hq hnonneg hcount hbase hp hearlier)
    exact ⟨t, he, hsame, hport, hclock, fun _ => hx, fun hlate => absurd hlate hearlier.not_ge⟩
  · obtain ⟨t, he, hsame, hport, hclock, hx⟩ := h.ends (i := .qdGetderiv d window) rfl s.world.afterNow_samePort
      (Qdec.startGetderiv_zeroInterval hq hnonneg hcount hbase hlate)
    exact ⟨t, he, hsame, hport, hclock, fun hearlier => absurd hearlier hlate.not_gt, fun _ => hx⟩

end Sys2Proof.Machine
end

section
/-! PROOFS. Claims and bindings (60_exceptions.md R296, R298), the time source (R290) and shutdown (R300). -/

namespace Sys2Proof.Machine

/-! Claims (R296). -/

/-- No DC motor is bound beside the stepper it shares channels with: motors 0 and 1 with stepper 0, 2 and 3 with stepper 1. -/
def Bindings.Apart (b : Bindings) : Prop := ∀ n ∈ b.dc, n / 2 ∉ b.stepper

/-- A claim binds only where the check on the shared channels, from its own side, finds no conflict. -/
theorem claim_apart (c : Claim) {b : Bindings} (h : b.Apart) : (claim c b).2.Apart := by
  cases c with
  | dc name =>
    unfold claim
    dsimp only
    split
    · exact h
    · split_ifs with hdup hconflict
      · exact h
      · exact h
      · exact List.forall_mem_cons.mpr ⟨hconflict, h⟩
  | stepper name =>
    unfold claim
    dsimp only
    split
    · exact h
    · rename_i k _
      split_ifs with hdup hconflict
      · exact h
      · exact h
      · intro n hn hmem
        obtain heq | hmem := List.mem_cons.mp hmem
        · obtain hn' | hn' : n = 2 * k ∨ n = 2 * k + 1 := by omega
          · exact hconflict (.inl (hn' ▸ hn))
          · exact hconflict (.inr (hn' ▸ hn))
        · exact h n hn hmem
  | servo name =>
    unfold claim
    dsimp only
    split
    · exact h
    · split <;> exact h

theorem claimAll_apart (cs : List Claim) {b : Bindings} (h : b.Apart) : (claimAll cs b).2.Apart := by
  induction cs generalizing b with
  | nil => exact h
  | cons c cs ih => exact ih (claim_apart c h)

/-- Settles O10: nothing is bound at first, and every claim keeps the conflicting names apart. -/
theorem conflictingClaimsNeverBothBind : Obligations.ConflictingClaimsNeverBothBind := by
  intro cs b
  have hapart : b.Apart := claimAll_apart cs fun _ hn => absurd hn List.not_mem_nil
  exact ⟨fun hk => ⟨fun hn => hapart 0 hn hk, fun hn => hapart 1 hn hk⟩,
    fun hk => ⟨fun hn => hapart 2 hn hk, fun hn => hapart 3 hn hk⟩⟩

/-! Shutdown, instance by instance (R300). -/

variable {s t : State} {k : Nat}

theorem State.shutdown_stepper (s : State) (k : Nat) : s.shutdown.stepper k = (s.stepper k).map Stepper.halt := by
  simp only [State.shutdown, State.stepper, List.getElem?_map]
  cases s.st[k]? <;> rfl

theorem State.shutdown_servo (s : State) (j : Nat) : s.shutdown.servo j = (s.servo j).map Servo.halt := by
  simp only [State.shutdown, State.servo, List.getElem?_map]
  cases s.sv[j]? <;> rfl

theorem State.shutdown_qdec (s : State) (d : Nat) : s.shutdown.qdec d = (s.qdec d).map Qdec.halt :=
  List.getElem?_map

/-- After shutdown every command is stuck. -/
theorem exec_halted (i : Instr) (h : s.halted = true) : exec i s = .fault .halted := by
  rw [exec_eq]
  split
  · exact stepperCommand_halted h
  · exact servoCommand_halted h
  · exact qdecCommand_halted h

theorem step_halted (h : s.halted = true) : step s = .fault .halted := if_pos h

/-- Settles O21: the step is the shutdown, whose world is that of the all-stop, and which halts instance by instance. -/
theorem shutdownHaltsForGood : Obligations.ShutdownHaltsForGood := by
  intro s hrun hnext
  refine ⟨s.afterEvent.shutdown, step_eq_takeEvent hrun hnext, rfl, rfl, rfl, ?outputs, s.afterEvent.shutdown_stepper,
    s.afterEvent.shutdown_servo, s.afterEvent.shutdown_qdec, step_halted rfl, fun i => exec_halted i rfl⟩
  case outputs => exact (allStopTurnsEveryOutputOff s.params s.world).1

/-! Bindings through a move (R298). -/

/-- Going from `s` to `t` keeps the launch parameters, and binds and frees nothing. -/
def State.SameBindings (s t : State) : Prop := t.params = s.params ∧ ∀ who, t.bound who = s.bound who

theorem State.sameBindings_of (hparams : t.params = s.params)
    (hst : ∀ k, (t.stepper k).isSome = (s.stepper k).isSome) (hsv : ∀ j, (t.servo j).isSome = (s.servo j).isSome)
    (hqd : ∀ d, (t.qdec d).isSome = (s.qdec d).isSome) : s.SameBindings t := by
  refine ⟨hparams, fun ⟨kind, n⟩ => ?_⟩
  cases kind with
  | stepper => exact hst n
  | servo => exact hsv n
  | qdec => exact hqd n

/-- Putting a bound stepper back. -/
theorem State.putStepper_sameBindings {x : Stepper} (hx : s.stepper k = some x) (r : Stepper × World) :
    s.SameBindings (s.putStepper k r) := by
  refine State.sameBindings_of rfl (fun n => ?_) (fun _ => rfl) fun _ => rfl
  by_cases hk : k = n
  · rw [← hk, State.putStepper_same hx, hx, Option.isSome_some, Option.isSome_some]
  · rw [State.putStepper_other s hk]

theorem State.putServo_sameBindings {x : Servo} (hx : s.servo k = some x) (r : Servo × World) :
    s.SameBindings (s.putServo k r) := by
  refine State.sameBindings_of rfl (fun _ => rfl) (fun n => ?_) fun _ => rfl
  by_cases hk : k = n
  · rw [← hk, State.putServo_same hx, hx, Option.isSome_some, Option.isSome_some]
  · rw [State.putServo_other s hk]

theorem State.putQdec_sameBindings {x : Qdec} (hx : s.qdec k = some x) (r : Qdec × World) :
    s.SameBindings (s.putQdec k r) := by
  refine State.sameBindings_of rfl (fun _ => rfl) (fun _ => rfl) fun n => ?_
  by_cases hk : k = n
  · rw [← hk, State.putQdec_same hx, hx, Option.isSome_some, Option.isSome_some]
  · rw [State.putQdec_other s hk]

theorem State.shutdown_sameBindings (s : State) : s.SameBindings s.shutdown :=
  State.sameBindings_of rfl (fun k => by rw [State.shutdown_stepper, Option.isSome_map])
    (fun j => by rw [State.shutdown_servo, Option.isSome_map]) fun d => by rw [State.shutdown_qdec, Option.isSome_map]

theorem exec_sameBindings {i : Instr} (h : exec i s = .next t) : s.SameBindings t := by
  obtain ⟨-, ⟨-, rfl⟩ | ⟨k, x, -, hx, hr⟩ | ⟨j, x, -, hx, hr⟩ | ⟨d, x, -, hx, hr⟩⟩ := exec_next h
  · exact ⟨rfl, fun _ => rfl⟩
  · obtain ⟨-, rfl⟩ | ⟨-, rfl⟩ := hr <;> exact State.putStepper_sameBindings hx _
  · obtain ⟨-, rfl⟩ | ⟨-, rfl⟩ := hr <;> exact State.putServo_sameBindings hx _
  · obtain ⟨-, rfl⟩ | ⟨-, rfl⟩ := hr <;> exact State.putQdec_sameBindings hx _

theorem State.Move.sameBindings (hm : s.Move t) : s.SameBindings t := by
  cases hm with
  | command i ht => exact exec_sameBindings ht
  | stepper k hx _ => exact State.putStepper_sameBindings hx _
  | servo j hx _ => exact State.putServo_sameBindings hx _
  | qdec d hx _ => exact State.putQdec_sameBindings hx _
  | shutdown => exact s.shutdown_sameBindings
  | nobody | setFreq _ | outsideWrite _ _ | outsideAllStop => exact ⟨rfl, fun _ => rfl⟩

/-- Settles O11: every move puts bound instances back where they were. -/
theorem bindingIsPermanent : Obligations.BindingIsPermanent := by
  intro s t hstep
  obtain ⟨-, hmove⟩ := step_next hstep
  exact hmove.sameBindings

/-! The time source (R290). -/

/-- Whatever a command does, the world keeps what the invariant asks of it. -/
theorem exec_keeps {i : Instr} (h : exec i s = .next t) : s.world.Keeps t.world := by
  obtain ⟨-, ⟨-, rfl⟩ | ⟨k, x, -, -, hr⟩ | ⟨j, x, -, -, hr⟩ | ⟨d, x, -, -, hr⟩⟩ := exec_next h
  · exact World.answerNobody_keeps _
  · obtain ⟨-, rfl⟩ | ⟨hfree, rfl⟩ := hr
    · exact .refl _
    · exact ((Stepper.startJob_safe (Stepper.free_out hfree) _).trans (Stepper.complete_safe _ _ _ _)).1
  · obtain ⟨-, rfl⟩ | ⟨-, rfl⟩ := hr
    · exact .refl _
    · exact ((Servo.startJob_safe _).trans (Servo.complete_safe _ _ _ _)).1
  · obtain ⟨-, rfl⟩ | ⟨-, rfl⟩ := hr
    · exact .refl _
    · exact (Qdec.startJob_safe _).1

theorem State.Move.keeps (hm : s.Move t) : s.world.Keeps t.world := by
  cases hm with
  | command i ht => exact exec_keeps ht
  | nobody => exact World.answerNobody_keeps _
  | stepper k _ hr => exact hr.safe.1
  | servo j _ hr => exact hr.safe.1
  | qdec d _ hr => exact hr.safe.1
  | shutdown | outsideAllStop => exact World.allStop_keeps _ _
  | setFreq hlegal => exact ⟨le_refl _, fun _ => hlegal, id⟩
  | outsideWrite b _ => exact ⟨le_refl _, id, Memory.write_wf _ b⟩

/-- Settles O13: a read is never below the last one, a scripted time not below it is read as it is, and every move keeps the
time source from turning back. -/
theorem timeNeverGoesBack : Obligations.TimeNeverGoesBack := by
  refine ⟨fun w => ⟨w.nowValue_ge, rfl⟩, fun w v rest n hv => if_pos hv, fun s t hstep => ?_⟩
  obtain ⟨-, hmove⟩ := step_next hstep
  exact hmove.keeps.clock

end Sys2Proof.Machine
end

section
/-! PROOFS. A stepper command that a register write ends (60_exceptions.md R273, 40_stepper.md R129): the record up to the write
that fails, and the stepper as it then stands. -/

namespace Sys2Proof.Machine

variable {p : Params} {s t : State} {k j : Nat} {x y : Stepper} {w w' w'' : World} {ws vs : List RegW} {o : BusDraw}
  {i : Instr}

/-! The record. -/

/-- A write that fails among the first writes ends the record there. -/
theorem failedLog_append_left (hj : j < ws.length) : failedLog p (ws ++ vs) j o = failedLog p ws j o := by
  rw [failedLog, failedLog, List.take_append_of_le_length hj.le, List.getElem?_append_left hj]

/-- A write that fails behind accepted ones. -/
theorem failedLog_append_right (p : Params) (ws vs : List RegW) (j : Nat) (o : BusDraw) :
    failedLog p (ws ++ vs) (ws.length + j) o = ws.map (accepted p) ++ failedLog p vs j o := by
  rw [failedLog, failedLog, List.take_length_add_append, List.getElem?_append_right (Nat.le_add_right _ _),
    Nat.add_sub_cancel_left, List.map_append]
  simp only [List.append_assoc]

/-- Outcomes to come that are accepted, behind accepted writes. -/
theorem World.WroteInTime.busOk_add {n : Nat} (hw : World.WroteInTime p ws w w') (hbus : w.busOk ws.length)
    (h : w'.busOk n) : w.busOk (ws.length + n) := fun i hi => by
  obtain hlt | hge := Nat.lt_or_ge i ws.length
  · exact hbus i hlt
  · obtain ⟨m, rfl⟩ := Nat.exists_eq_add_of_le hge
    rw [← hw.busAt]
    exact h m (by omega)

/-- Going from `w` to `w'`, the write `j` of `ws` was the first to fail, and the all-stop was sent. -/
structure World.FailedAt (p : Params) (ws : List RegW) (j : Nat) (w w' : World) : Prop where
  lt : j < ws.length
  ok : w.busOk j
  fails : w.busAt j ≠ .ok
  log : w'.log = w.log ++ failedLog p ws j (w.busAt j)
  answers : w'.answers = w.answers

theorem World.failedAt_allStop (hj : j < ws.length) (hbus : w.busOk j) (hfail : w.busAt j ≠ .ok) :
    World.FailedAt p ws j w (((w.wrote p (ws.take j)).regWrite p ws[j]).allStop p) :=
  ⟨hj, hbus, hfail, World.failed_log hj, rfl⟩

/-- Reading the time source comes before the first write of a step. -/
theorem World.FailedAt.of_afterNow (h : World.FailedAt p ws j w.afterNow w') : World.FailedAt p ws j w w' :=
  ⟨h.lt, h.ok, h.fails, h.log, h.answers⟩

theorem World.FailedAt.append_right (h : World.FailedAt p ws j w w') : World.FailedAt p (ws ++ vs) j w w' :=
  ⟨by have := h.lt; simp; omega, h.ok, h.fails, by rw [failedLog_append_left h.lt, h.log], h.answers⟩

/-- Writes accepted before the others. -/
theorem World.FailedAt.after (h : World.FailedAt p vs j w' w'') (hw : World.WroteInTime p ws w w')
    (hbus : w.busOk ws.length) : World.FailedAt p (ws ++ vs) (ws.length + j) w w'' where
  lt := by rw [List.length_append]; exact Nat.add_lt_add_left h.lt _
  ok := hw.busOk_add hbus h.ok
  fails := by rw [← hw.busAt]; exact h.fails
  log := by rw [h.log, hw.log, hw.busAt, failedLog_append_right, List.append_assoc]
  answers := h.answers.trans hw.answers

/-- There is one first write to fail. -/
theorem World.FailedAt.unique {n : Nat} (h : World.FailedAt p ws j w w') (hok : w.busOk n) (hfail : w.busAt n ≠ .ok) :
    j = n := by
  obtain hlt | heq | hgt := Nat.lt_trichotomy j n
  · exact absurd (hok j hlt) h.fails
  · exact heq
  · exact absurd (h.ok n hgt) hfail

/-! A run. -/

@[simp] theorem runWrites_length (p : Params) (x : Stepper) (d : Dir) (n : Nat) :
    (runWrites p x d n).length = 24 * n := by
  simp [runWrites, Nat.mul_comm]

/-- Going from `w` to `w'`, a run was held up by its pace: it gave no answer yet, or TIMING_ERROR (R138). -/
def World.HeldUp (w w' : World) : Prop :=
  w'.answers = w.answers ∨ ∃ b, w'.answers = w.answers ++ [b] ∧ b.status = .timingError

theorem World.HeldUp.after (h : w'.HeldUp w'') (hans : w'.answers = w.answers) : w.HeldUp w'' := by
  rw [World.HeldUp, ← hans]
  exact h

theorem counterAfter_one (v : Word64) (d : Dir) : counterAfter v d 1 = v + stepDelta d := by
  simp [counterAfter]

/-- Every end of a run of n steps: OK; or at the first of its writes that fails, in step j / 24, that step counted; or, in a
paced run, held up by its pace, no earlier than after the first step's writes. -/
theorem Stepper.runLoop_ends (p : Params) (k n : Nat) (x : Stepper) (w : World) :
    (w.busOk (24 * n) ∧ ∃ w', World.WroteInTime p (runWrites p x x.dir n) w w' ∧
        Stepper.runLoop p k n x w = Stepper.finish k .ok none (x.ran n) w') ∨
      (∃ j w', World.FailedAt p (runWrites p x x.dir n) j w w' ∧
        Stepper.runLoop p k n x w = Stepper.finish k .busError none (x.ran (j / 24 + 1)) w') ∨
      0 < x.interval ∧ w.busOk 24 ∧ w.HeldUp (Stepper.runLoop p k n x w).2 := by
  induction n generalizing x w with
  | zero =>
    left
    refine ⟨fun i hi => absurd hi (Nat.not_lt_zero i), w, .refl p w, ?_⟩
    simp [Stepper.runLoop, Stepper.ran, counterAfter]
  | succ n ih =>
    have hmoved : ∀ st m w', Stepper.finish k st none ((Stepper.beginPaced p x w).1.stepDone.ran m) w' =
        Stepper.finish k st none (x.ran (m + 1)) w' := fun st m w' => by
      rw [Stepper.ran, Stepper.ran, counterAfter_succ]
      rfl
    rw [Stepper.runLoop, runWrites_succ]
    obtain ⟨j, hj, hbus, hfail, he⟩ | ⟨hbus, w', hw, hend⟩ :=
      Stepper.finishPaced_spec p k (Stepper.runLoop p k n) ((Stepper.beginPaced p x w).1.writes p)
        (Stepper.beginPaced p x w).1 (Stepper.beginPaced p x w).2
    · right; left
      refine ⟨j, _, (World.failedAt_allStop hj hbus hfail).of_afterNow.append_right, ?_⟩
      rw [Stepper.writes_length] at hj
      rw [he, Nat.div_eq_of_lt hj, Stepper.ran, counterAfter_one]
      rfl
    · rw [Stepper.writes_length] at hbus
      replace hw : World.WroteInTime p (x.advance.writes p) w w' := (World.afterNow_inTime p w).trans hw
      obtain ⟨hpaced, he⟩ | ⟨hpaced, wakeAt, he⟩ | he := hend
      all_goals rw [he]
      · exact .inr (.inr ⟨hpaced, hbus, .inr ⟨_, congrArg (· ++ _) hw.answers, rfl⟩⟩)
      · exact .inr (.inr ⟨hpaced, hbus, .inl hw.answers⟩)
      · obtain ⟨hrest, w'', hw', he⟩ | ⟨j, w'', hfailed, he⟩ | ⟨hpaced, -, hheld⟩ :=
          ih (Stepper.beginPaced p x w).1.stepDone w'
        · left
          refine ⟨?_, w'', hw.trans hw', he.trans (hmoved _ _ _)⟩
          rw [Nat.mul_succ, Nat.add_comm]
          exact hw.busOk_add hbus hrest
        · right; left
          refine ⟨24 + j, w'', hfailed.after hw hbus, ?_⟩
          rw [he, hmoved, Nat.add_div_left j (by decide)]
        · exact .inr (.inr ⟨hpaced, hbus, hheld.after hw.answers⟩)

/-! From the command to its end. -/

/-- What a stepper command leaves that the failing write `j` of `ws` ended (R273): the stepper as `y`, but with RUN idle and the
response of `x`, and BUS_ERROR answered. -/
def Stepper.BusEnded (s : State) (k : Nat) (x : Stepper) (j : Nat) (t : State) (y : Stepper) (ws : List RegW) : Prop :=
  SameBut ⟨.stepper, k⟩ s t ∧ t.stepper k = some { y with run := .idle, ctl := x.ctl.ended .busError none } ∧
    t.world.log = s.world.log ++ failedLog s.params ws j (s.world.busAt j) ∧
    t.world.answers = s.world.answers ++ [⟨some ⟨.stepper, k⟩, .busError, x.ctl.readResult⟩]

/-- A command that ended in BUS_ERROR at a failing write. -/
theorem StepperReady.busEnded (h : StepperReady s k x) (hflight : y.flight = none) (hctl : y.ctl = x.ctl)
    (hw : World.FailedAt s.params ws j s.world w) :
    Stepper.BusEnded s k x j (s.putStepper k (Stepper.finish k .busError none { y with run := .idle } w)) y ws := by
  refine ⟨s.putStepper_sameBut k _, ?_, hw.log, ?_⟩
  · rw [← hctl]
    exact h.stepper_finish (y := { y with run := .idle }) hflight
  · rw [← hctl, ← hw.answers]
    rfl

/-- A command that starts by leaving writes to be issued, one of which fails. -/
theorem exec_of_start_writing_fails (h : StepperReady s k x) (hi : i.target = ⟨.stepper, k⟩) (hflight : y.flight = none)
    (hctl : y.ctl = x.ctl) (hstart : Stepper.startJob s.params k (.command i) x s.world =
      ({ y with flight := some (.writing ws false) }, s.world)) (hj : j < ws.length) (hbus : s.world.busOk j)
    (hfail : s.world.busAt j ≠ .ok) : ∃ t, exec i s = .next t ∧ Stepper.BusEnded s k x j t y ws := by
  refine ⟨_, ?_, h.busEnded hflight hctl (World.failedAt_allStop hj hbus hfail)⟩
  rw [exec_of_stepperReady h hi, hstart, Stepper.complete_writing_fails rfl hj hbus hfail]
  rfl

/-- Every command that runs n steps runs that count. -/
theorem RunsBy.exec_eq {n : Word64} (hi : RunsBy s k x i n) (h : StepperReady s k x) :
    exec i s = .next (s.putStepper k (Stepper.runCount s.params k n.toInt x s.world)) := by
  obtain rfl | ⟨revs, q, spr, rfl, hp, hspr, hq, hlow, hhigh, rfl⟩ := hi
  · exact exec_stStep h n
  · have hfits := fitsI64_iff.mpr ⟨hlow, hhigh⟩
    rw [exec_stRotate_fits h hp hspr hq hfits, toInt_ofInt_of_fits hfits]

/-- The stepper in step j / 24 of a run of the count n: the counter has moved for that step too, before its first write. -/
def Stepper.inStepOf (n : Int) (j : Nat) (x : Stepper) : Stepper :=
  { x with step := counterAfter x.step (dirOfCount n) (j / 24 + 1), dir := dirOfCount n }

/-- Every end of a command that runs n ≠ 0 steps: OK, at a failing write, or held up by its pace. -/
theorem StepperReady.run_ends {n : Int} (h : StepperReady s k x) (hn : n ≠ 0)
    (ht : t = s.putStepper k (Stepper.runCount s.params k n x s.world)) :
    (s.world.busOk (24 * n.natAbs) ∧ s.world.AnsweredOk t.world) ∨
      (∃ j w, World.FailedAt s.params (runWrites s.params x (dirOfCount n) n.natAbs) j s.world w ∧
        Stepper.BusEnded s k x j t (x.inStepOf n j) (runWrites s.params x (dirOfCount n) n.natAbs)) ∨
      0 < x.interval ∧ s.world.busOk 24 ∧ s.world.HeldUp t.world := by
  rw [Stepper.runCount_of_ne_zero s.params k hn] at ht
  subst ht
  obtain ⟨hbus, w', hw, he⟩ | ⟨j, w', hw, he⟩ | hheld :=
    Stepper.runLoop_ends s.params k n.natAbs (x.begun n) s.world
  · rw [he]
    exact .inl ⟨hbus, _, congrArg (· ++ _) hw.answers, rfl⟩
  · rw [he]
    exact .inr (.inl ⟨j, w', hw, h.busEnded (y := x.inStepOf n j) h.flight rfl hw⟩)
  · exact .inr (.inr hheld)

/-- Settles O35: a single command ends at the failing write of its 24; a run at the first failing write of its steps, which,
where the run is not held up by its pace before, is the write j. -/
theorem busErrorEndsAStepperCommand : Obligations.BusErrorEndsAStepperCommand := by
  intro s k x h ended dir moved
  refine ⟨fun j hbus hfail => ⟨fun hj => ⟨?onestep, fun d => ?onestepdir, ?stop, fun i hi => ?runZero⟩,
    fun i n hi hn hj hfirst => ?run⟩, fun i n t b hi hn ht hb hst => ?paced⟩
  case onestep => exact exec_of_start_writing_fails h rfl (y := x.advance) h.flight rfl rfl hj hbus hfail
  case onestepdir =>
    exact exec_of_start_writing_fails h rfl (y := Stepper.advance { x with dir := d }) h.flight rfl rfl hj hbus hfail
  case stop => exact exec_of_start_writing_fails h rfl h.flight rfl rfl hj hbus hfail
  case runZero =>
    have hstop : exec i s = exec (.stStop k) s := (hi.exec_eq h).trans (exec_of_stepperReady (i := .stStop k) h rfl).symm
    rw [hstop]
    exact exec_of_start_writing_fails h rfl h.flight rfl rfl hj hbus hfail
  case run =>
    refine ⟨_, hi.exec_eq h, ?_⟩
    obtain ⟨hok, -⟩ | ⟨m, w, hw, hended⟩ | ⟨hpaced, hok, -⟩ := h.run_ends (toInt_ne_zero hn) rfl
    · exact absurd (hok j hj) hfail
    · obtain rfl := hw.unique hbus hfail
      exact hended
    · obtain hzero | hlt := hfirst
      · exact absurd hzero hpaced.ne'
      · exact absurd (hok j hlt) hfail
  case paced =>
    have honly : ∀ c, t.world.answers = s.world.answers ++ [c] → c.status = .busError := fun c hc => by
      obtain rfl : b = c := by simpa [hb] using hc
      exact hst
    obtain ⟨-, c, hc, hok⟩ | ⟨m, w, hw, hended⟩ | ⟨-, -, hnone | ⟨c, hc, hlate⟩⟩ := h.run_ends (toInt_ne_zero hn)
      (Host.Outcome.next.inj (ht.symm.trans (hi.exec_eq h)))
    · exact Status.noConfusion (hok.symm.trans (honly c hc))
    · exact ⟨m, runWrites_length .. ▸ hw.lt, hw.ok, hw.fails, hended⟩
    · simp [hnone] at hb
    · exact Status.noConfusion (hlate.symm.trans (honly c hc))

end Sys2Proof.Machine
end

section
/-! PROOFS. The statuses that change no state (60_exceptions.md R270, R272): a command that answers one has changed nothing else. -/

namespace Sys2Proof.Machine

variable {p : Params} {s t : State} {k : Nat} {w w' : World}

/-! How a command refuses. -/

/-- Going from `w` to `r`, a command has refused cleanly: where it answered one of the five statuses, the port is as it was and
the instance is as `refused` says. -/
def RefusesCleanly {α : Type} (refused : Status → α) (w : World) (r : α × World) : Prop :=
  ∀ b, r.2.answers = w.answers ++ [b] → b.status.refuses = true → SamePort w r.2 ∧ r.1 = refused b.status

section

variable {α : Type} {refused : Status → α} {r : α × World} {c : Answer}

/-- A command that has not answered. -/
theorem RefusesCleanly.of_silent (h : r.2.answers = w.answers) : RefusesCleanly refused w r := fun b hb => by
  simp [h] at hb

/-- A command that has answered another status. -/
theorem RefusesCleanly.of_answer (h : r.2.answers = w.answers ++ [c]) (hc : c.status.refuses = false) :
    RefusesCleanly refused w r := fun b hb hst => by
  obtain rfl : c = b := by simpa [h] using hb
  simp [hc] at hst

/-- A command that has answered whatever status, and done nothing else. -/
theorem RefusesCleanly.of_refusal (h : r.2.answers = w.answers ++ [c]) (hport : SamePort w r.2)
    (hx : r.1 = refused c.status) : RefusesCleanly refused w r := fun b hb _ => by
  obtain rfl : c = b := by simpa [h] using hb
  exact ⟨hport, hx⟩

end

/-! Steppers. -/

section Stepper

variable {x : Stepper}

/-- A command that starts by going from `x` and `w` to `r`, and is then run to its end, refuses cleanly. -/
def Stepper.StartsClean (p : Params) (k : Nat) (x : Stepper) (w : World) (r : Stepper × World) : Prop :=
  RefusesCleanly (fun st => (Stepper.finish k st none x w).1) w (Stepper.complete p k r.1 r.2)

/-- A command of another unit starts nothing. -/
theorem Stepper.idle_startsClean (hflight : x.flight = none) : Stepper.StartsClean p k x w (x, w) := by
  rw [Stepper.StartsClean, Stepper.complete_none p w hflight]
  exact .of_silent rfl

theorem Stepper.ok_startsClean (res : Option Word64) (y : Stepper) :
    Stepper.StartsClean p k x w (Stepper.finish k .ok res y w) := by
  rw [Stepper.StartsClean, Stepper.complete_finish]
  exact .of_answer rfl rfl

theorem Stepper.refusal_startsClean (st : Status) : Stepper.StartsClean p k x w (Stepper.finish k st none x w) := by
  rw [Stepper.StartsClean, Stepper.complete_finish]
  exact .of_refusal rfl (World.answer_samePort _ _ _) rfl

/-- Writes end in OK or BUS_ERROR. -/
theorem Stepper.writing_startsClean (todo : List RegW) (y : Stepper) :
    Stepper.StartsClean p k x w ({ y with flight := some (.writing todo false) }, w) := by
  obtain ⟨-, hbus⟩ | ⟨j, hj, hbus, hfail, -⟩ := issueWrites_spec p todo w
  · rw [Stepper.StartsClean, Stepper.complete_writing_ok rfl hbus]
    exact .of_answer rfl rfl
  · rw [Stepper.StartsClean, Stepper.complete_writing_fails rfl hj hbus hfail]
    exact .of_answer rfl rfl

/-- A run ends in OK, BUS_ERROR or TIMING_ERROR, or sleeps on. -/
theorem Stepper.startCount_startsClean (n : Int) : Stepper.StartsClean p k x w (Stepper.startCount p n x w) := by
  by_cases hn : n = 0
  · rw [Stepper.startCount, if_pos hn]
    exact Stepper.writing_startsClean _ x
  · have hrun : Stepper.complete p k _ _ = Stepper.runLoop p k n.natAbs (x.begun n) w :=
      Stepper.runCount_of_ne_zero p k hn x w
    rw [Stepper.StartsClean, hrun]
    obtain ⟨-, w', hw, he⟩ | ⟨j, w', hw, he⟩ | ⟨-, -, hsilent | ⟨c, hc, hlate⟩⟩ :=
      Stepper.runLoop_ends p k n.natAbs (x.begun n) w
    · rw [he]
      exact .of_answer (congrArg (· ++ _) hw.answers) rfl
    · rw [he]
      exact .of_answer (congrArg (· ++ _) hw.answers) rfl
    · exact .of_silent hsilent
    · exact .of_answer hc (by rw [hlate, Status.refuses])

theorem Stepper.startSetspr_startsClean (v : BitVec 32) :
    Stepper.StartsClean p k x w (Stepper.startSetspr k v x w) := by
  unfold Stepper.startSetspr
  split
  · exact Stepper.refusal_startsClean _
  · exact Stepper.ok_startsClean _ _

theorem Stepper.startSetinterval_startsClean (ms : Word64) (kill : Bool) :
    Stepper.StartsClean p k x w (Stepper.startSetinterval k ms kill x w) := by
  unfold Stepper.startSetinterval
  split
  · exact Stepper.refusal_startsClean _
  · split
    · exact Stepper.refusal_startsClean _
    · exact Stepper.ok_startsClean _ _

theorem Stepper.startRotate_startsClean (revs : Word64) :
    Stepper.StartsClean p k x w (Stepper.startRotate p k revs x w) := by
  unfold Stepper.startRotate
  split
  · exact Stepper.refusal_startsClean _
  · split
    · exact Stepper.refusal_startsClean _
    · split
      · exact Stepper.refusal_startsClean _
      · split
        · exact Stepper.startCount_startsClean _
        · exact Stepper.refusal_startsClean _

theorem Stepper.startJob_startsClean (hflight : x.flight = none) (i : Instr) :
    Stepper.StartsClean p k x w (Stepper.startJob p k (.command i) x w) := by
  cases i with
  | stSetmode _ m => exact Stepper.ok_startsClean _ _
  | stSetspr _ v => exact Stepper.startSetspr_startsClean v
  | stSetinterval _ ms kill => exact Stepper.startSetinterval_startsClean ms kill
  | stOnestep _ => exact Stepper.writing_startsClean _ x.advance
  | stOnestepdir _ d => exact Stepper.writing_startsClean _ (Stepper.advance { x with dir := d })
  | stStep _ n => exact Stepper.startCount_startsClean _
  | stRotate _ revs => exact Stepper.startRotate_startsClean revs
  | stGetstep _ => exact Stepper.ok_startsClean _ _
  | stStop _ => exact Stepper.writing_startsClean _ x
  | _ => exact Stepper.idle_startsClean hflight

end Stepper

/-! Servos. -/

section Servo

variable {x : Servo}

/-- A command that starts by going from `x` and `w` to `r`, and is then run to its end, refuses cleanly. -/
def Servo.StartsClean (p : Params) (j : Nat) (x : Servo) (w : World) (r : Servo × World) : Prop :=
  RefusesCleanly (fun st => (Servo.finish j st none x w).1) w (Servo.complete p j r.1 r.2)

/-- A command of another unit starts nothing. -/
theorem Servo.idle_startsClean (hflight : x.flight = none) : Servo.StartsClean p k x w (x, w) := by
  rw [Servo.StartsClean, Servo.complete_none p w hflight]
  exact .of_silent rfl

theorem Servo.ok_startsClean (res : Option Word64) (y : Servo) :
    Servo.StartsClean p k x w (Servo.finish k .ok res y w) := by
  rw [Servo.StartsClean, Servo.complete_finish]
  exact .of_answer rfl rfl

theorem Servo.refusal_startsClean (st : Status) : Servo.StartsClean p k x w (Servo.finish k st none x w) := by
  rw [Servo.StartsClean, Servo.complete_finish]
  exact .of_refusal rfl (World.answer_samePort _ _ _) rfl

/-- Writes end in OK or BUS_ERROR. -/
theorem Servo.writing_startsClean (todo : List RegW) (pos : Option Rat) (y : Servo) (hans : w'.answers = w.answers) :
    Servo.StartsClean p k x w ({ y with flight := some (.writing todo pos) }, w') := by
  obtain ⟨-, hbus⟩ | ⟨j, hj, hbus, hfail, -⟩ := issueWrites_spec p todo w'
  · rw [Servo.StartsClean, Servo.complete_writing_ok rfl hbus]
    exact .of_answer (congrArg (· ++ _) hans) rfl
  · rw [Servo.StartsClean, Servo.complete_writing_fails rfl hj hbus hfail]
    exact .of_answer (congrArg (· ++ _) hans) rfl

/-- A width is refused, or its writes end in OK or BUS_ERROR. The count of free values drawn (log 14) is all of the world that
may have changed before. -/
theorem Servo.startWidth_startsClean (ms : Rat) (pos : Option Rat) (fresh : Nat) :
    Servo.StartsClean p k x w (Servo.startWidth p k ms pos x { w with fresh := fresh }) := by
  have hrefuse : Servo.StartsClean p k x w (Servo.finish k .rangeError none x { w with fresh := fresh }) := by
    rw [Servo.StartsClean, Servo.complete_finish]
    exact .of_refusal rfl ⟨rfl, rfl, rfl, rfl, rfl⟩ rfl
  unfold Servo.startWidth
  split
  · exact hrefuse
  · split
    · exact hrefuse
    · exact Servo.writing_startsClean _ pos x rfl

theorem Servo.startSetlimits_startsClean (a b c : Word64) :
    Servo.StartsClean p k x w (Servo.startSetlimits k a b c x w) := by
  unfold Servo.startSetlimits
  split
  · split
    · exact Servo.ok_startsClean _ _
    · exact Servo.refusal_startsClean _
  · exact Servo.refusal_startsClean _

theorem Servo.startSetrange_startsClean (a b : Word64) :
    Servo.StartsClean p k x w (Servo.startSetrange k a b x w) := by
  unfold Servo.startSetrange
  split
  · split
    · exact Servo.ok_startsClean _ _
    · exact Servo.refusal_startsClean _
  · exact Servo.refusal_startsClean _

theorem Servo.startSetpw_startsClean (ms : Word64) : Servo.StartsClean p k x w (Servo.startSetpw p k ms x w) := by
  unfold Servo.startSetpw
  split
  · exact Servo.refusal_startsClean _
  · exact Servo.startWidth_startsClean _ _ w.fresh

theorem Servo.startSetpos_startsClean (q : Word64) : Servo.StartsClean p k x w (Servo.startSetpos p k q x w) := by
  unfold Servo.startSetpos
  split
  · exact Servo.refusal_startsClean _
  · split
    · exact Servo.refusal_startsClean _
    · exact Servo.startWidth_startsClean _ _ _

theorem Servo.startGetpos_startsClean : Servo.StartsClean p k x w (Servo.startGetpos k x w) := by
  unfold Servo.startGetpos
  split
  · exact Servo.refusal_startsClean _
  · exact Servo.ok_startsClean _ _

theorem Servo.startJob_startsClean (hflight : x.flight = none) (i : Instr) :
    Servo.StartsClean p k x w (Servo.startJob p k (.command i) x w) := by
  cases i with
  | svSetlimits _ a b c => exact Servo.startSetlimits_startsClean a b c
  | svSetrange _ a b => exact Servo.startSetrange_startsClean a b
  | svSetpw _ ms => exact Servo.startSetpw_startsClean ms
  | svSetpos _ q => exact Servo.startSetpos_startsClean q
  | svGetpos _ => exact Servo.startGetpos_startsClean
  | _ => exact Servo.idle_startsClean hflight

end Servo

/-! Decoders: the start of a command is its end. -/

section Qdec

variable {x : Qdec}

/-- A command going from `x` and `w` to `r` refuses cleanly. -/
def Qdec.EndsClean (d : Nat) (x : Qdec) (w : World) (r : Qdec × World) : Prop :=
  RefusesCleanly (fun st => (Qdec.finish d st none x w).1) w r

theorem Qdec.ok_endsClean (res : Option Word64) (y : Qdec) (hans : w'.answers = w.answers) :
    Qdec.EndsClean k x w (Qdec.finish k .ok res y w') :=
  .of_answer (congrArg (· ++ _) hans) rfl

/-- A refusal, the time source read or not. -/
theorem Qdec.refusal_endsClean (st : Status) (hans : w'.answers = w.answers) (hport : SamePort w w') :
    Qdec.EndsClean k x w (Qdec.finish k st none x w') :=
  .of_refusal (congrArg (· ++ _) hans) hport rfl

theorem Qdec.poll_answers (p : Params) (x : Qdec) (w : World) : (x.poll p w).2.answers = w.answers := by
  obtain ⟨-, hans, -⟩ := Qdec.publish_world p (x.observe p (x.observes w)) w.afterLine.afterLine
  exact hans

theorem Qdec.startGetpos_endsClean : Qdec.EndsClean k x w (Qdec.startGetpos p k x w) := by
  unfold Qdec.startGetpos
  split
  · exact Qdec.refusal_endsClean _ rfl (.refl w)
  · exact Qdec.ok_endsClean _ _ rfl

theorem Qdec.startGetderiv_endsClean (window : Word64) :
    Qdec.EndsClean k x w (Qdec.startGetderiv p k window x w) := by
  unfold Qdec.startGetderiv
  split
  · exact Qdec.refusal_endsClean _ rfl (.refl w)
  · split
    · exact Qdec.refusal_endsClean _ rfl (.refl w)
    · split
      · exact Qdec.refusal_endsClean _ rfl (.refl w)
      · dsimp only
        split
        · exact Qdec.refusal_endsClean _ rfl w.afterNow_samePort
        · exact Qdec.ok_endsClean _ _ rfl

theorem Qdec.startJob_endsClean (i : Instr) : Qdec.EndsClean k x w (Qdec.startJob p k (.command i) x w) := by
  cases i with
  | qdPoll _ => exact Qdec.ok_endsClean _ _ (x.poll_answers p w)
  | qdGetpos _ => exact Qdec.startGetpos_endsClean
  | qdGetderiv _ window => exact Qdec.startGetderiv_endsClean window
  | qdReset _ => exact Qdec.ok_endsClean _ _ rfl
  | _ => exact .of_silent rfl

end Qdec

/-! The state. -/

/-- Every bound instance is as it was, but for the status `st` at `who` (R272). -/
def State.RefusedAt (who : Target) (st : Status) (s t : State) : Prop :=
  (∀ k x, s.stepper k = some x →
      t.stepper k = some (if who = ⟨.stepper, k⟩ then { x with ctl := x.ctl.ended st none } else x)) ∧
    (∀ j x, s.servo j = some x →
      t.servo j = some (if who = ⟨.servo, j⟩ then { x with ctl := x.ctl.ended st none } else x)) ∧
    (∀ d x, s.qdec d = some x →
      t.qdec d = some (if who = ⟨.qdec, d⟩ then { x with ctl := x.ctl.ended st none } else x))

variable {st : Status}

/-- At an instance that is not bound there is no STATUS to write. -/
theorem State.noInstance_refusedAt {who : Target} (h : s.bound who = false) : State.RefusedAt who st s s.noInstance := by
  refine ⟨fun k x hx => ?_, fun j x hx => ?_, fun d x hx => ?_⟩
  all_goals
    refine hx.trans (congrArg some (if_neg ?_).symm)
    rintro rfl
    simp [State.bound, hx] at h

theorem State.putStepper_refusedAt {x : Stepper} {r : Stepper × World} (hx : s.stepper k = some x)
    (hr : r.1 = { x with ctl := x.ctl.ended st none }) : State.RefusedAt ⟨.stepper, k⟩ st s (s.putStepper k r) := by
  refine ⟨fun n y hy => ?_, fun j y hy => by simpa using hy, fun d y hy => by simpa using hy⟩
  by_cases hk : k = n
  · subst hk
    obtain rfl : x = y := Option.some.inj (hx.symm.trans hy)
    rw [State.putStepper_same hx, if_pos rfl, hr]
  · rw [State.putStepper_other s hk, if_neg (by simpa using hk), hy]

theorem State.putServo_refusedAt {x : Servo} {r : Servo × World} (hx : s.servo k = some x)
    (hr : r.1 = { x with ctl := x.ctl.ended st none }) : State.RefusedAt ⟨.servo, k⟩ st s (s.putServo k r) := by
  refine ⟨fun n y hy => by simpa using hy, fun j y hy => ?_, fun d y hy => by simpa using hy⟩
  by_cases hk : k = j
  · subst hk
    obtain rfl : x = y := Option.some.inj (hx.symm.trans hy)
    rw [State.putServo_same hx, if_pos rfl, hr]
  · rw [State.putServo_other s hk, if_neg (by simpa using hk), hy]

theorem State.putQdec_refusedAt {x : Qdec} {r : Qdec × World} (hx : s.qdec k = some x)
    (hr : r.1 = { x with ctl := x.ctl.ended st none }) : State.RefusedAt ⟨.qdec, k⟩ st s (s.putQdec k r) := by
  refine ⟨fun n y hy => by simpa using hy, fun j y hy => by simpa using hy, fun d y hy => ?_⟩
  by_cases hk : k = d
  · subst hk
    obtain rfl : x = y := Option.some.inj (hx.symm.trans hy)
    rw [State.putQdec_same hx, if_pos rfl, hr]
  · rw [State.putQdec_other s hk, if_neg (by simpa using hk), hy]

/-- A command that answers a status that changes no state: it found no instance, or it started, ran to its end and refused
cleanly; had it been left to wait, it would have answered nothing. -/
theorem exec_refuses {i : Instr} {b : Answer} (h : exec i s = .next t) (hb : t.world.answers = s.world.answers ++ [b])
    (hst : b.status.refuses = true) : SamePort s.world t.world ∧ State.RefusedAt i.target b.status s t := by
  obtain ⟨-, ⟨hn, rfl⟩ | ⟨k, x, hi, hx, hr⟩ | ⟨j, x, hi, hx, hr⟩ | ⟨d, x, hi, hx, hr⟩⟩ := exec_next h
  · exact ⟨⟨rfl, rfl, rfl, rfl, rfl⟩, State.noInstance_refusedAt hn⟩
  · obtain ⟨-, rfl⟩ | ⟨hfree, rfl⟩ := hr
    · simp at hb
    · have hflight := Stepper.free_flight hfree
      obtain ⟨hport, hx'⟩ := Stepper.startJob_startsClean hflight i b hb hst
      exact ⟨hport, hi ▸ State.putStepper_refusedAt hx (hx'.trans (Stepper.finish_fst hflight))⟩
  · obtain ⟨-, rfl⟩ | ⟨hfree, rfl⟩ := hr
    · simp at hb
    · have hflight := Servo.free_flight hfree
      obtain ⟨hport, hx'⟩ := Servo.startJob_startsClean hflight i b hb hst
      exact ⟨hport, hi ▸ State.putServo_refusedAt hx (hx'.trans (Servo.finish_fst hflight))⟩
  · obtain ⟨-, rfl⟩ | ⟨-, rfl⟩ := hr
    · simp at hb
    · obtain ⟨hport, hx'⟩ := Qdec.startJob_endsClean i b hb hst
      exact ⟨hport, hi ▸ State.putQdec_refusedAt hx hx'⟩

/-- Settles O16: the STATUS byte is the status's code, and a command that answers one of the five statuses has refused cleanly. -/
theorem refusalsChangeNothing : Obligations.RefusalsChangeNothing :=
  ⟨fun c => by rw [Ctl.statusByte]; cases c.status <;> rfl, fun _ _ _ _ h hb hst => exec_refuses h hb hst⟩

end Sys2Proof.Machine
end

section
/-! PROOFS. How long a paced run lasts (40_stepper.md R138, 70_reset_and_hazards.md R341): a step goes on to the next no earlier
than T after its start, and the next reads its own start after that. -/

namespace Sys2Proof.Machine

variable {p : Params} {k n : Nat} {x : Stepper} {w : World} {todo : List RegW} {rest : Stepper → World → Stepper × World}

/-- Every outcome of the deadline check of a paced step: on to the next step, no earlier than T after the start; missed under
KILL; or a sleep. -/
theorem Stepper.pace_cases (hp : p.numeric = .exact) (hpos : 0 < x.interval) :
    (x.interval * 10 ^ 6 ≤ x.elapsed w.nowValue ∧ x.pace p w = (.onward, w.afterNow)) ∨
      x.pace p w = (.late, w.afterNow) ∨
      x.pace p w =
        (.sleep (w.nowValue.toNat + (x.interval * 10 ^ 6 - x.elapsed w.nowValue).ceil.toNat), w.afterNow) := by
  obtain hearly | hmet | hlate := lt_trichotomy (x.elapsed w.nowValue : Rat) (x.interval * 10 ^ 6)
  · exact .inr (.inr (Stepper.pace_early hp hpos rfl hearly))
  · exact .inl ⟨hmet.ge, Stepper.pace_onward hp hpos rfl (.inl hmet)⟩
  · cases hkill : x.kill with
    | false => exact .inl ⟨hlate.le, Stepper.pace_onward hp hpos rfl (.inr ⟨hlate, hkill⟩)⟩
    | true => exact .inr (.inl (Stepper.pace_late hp hpos rfl hlate hkill))

/-- The start of the current step plus T: the earliest time the run may go on (R138). -/
def Stepper.stepEnd (x : Stepper) : Rat := ((x.startTime.getD 0).toNat : Rat) + x.interval * 10 ^ 6

/-- A step is over at the time `t` exactly where T has elapsed. -/
theorem Stepper.stepEnd_le_iff {t : Word64} : x.stepEnd ≤ (t.toNat : Rat) ↔ x.interval * 10 ^ 6 ≤ x.elapsed t := by
  rw [Stepper.stepEnd, Stepper.elapsed, Int.cast_sub, Int.cast_natCast, Int.cast_natCast, le_sub_iff_add_le']

/-- The sleep of an early step ends no earlier than the step may end: the remainder is rounded up. -/
theorem Stepper.stepEnd_le_wakeAt (x : Stepper) (t : Word64) :
    x.stepEnd ≤ ((t.toNat + (x.interval * 10 ^ 6 - x.elapsed t).ceil.toNat : Nat) : Rat) := by
  have hremainder : x.interval * 10 ^ 6 - x.elapsed t ≤ ((x.interval * 10 ^ 6 - x.elapsed t).ceil.toNat : Rat) :=
    Rat.le_ceil.trans (by exact_mod_cast Int.self_le_toNat _)
  have helapsed : (x.elapsed t : Rat) = (t.toNat : Rat) - ((x.startTime.getD 0).toNat : Rat) := by
    simp [Stepper.elapsed]
  rw [Stepper.stepEnd, Nat.cast_add]
  linarith

theorem Stepper.finishPaced_sleeps (hbus : w.busOk todo.length) {w' : World} {wakeAt : Nat}
    (hpace : x.pace p (w.wrote p todo) = (.sleep wakeAt, w')) (hwake : canWake wakeAt = false) :
    Stepper.finishPaced p k rest todo x w = ({ x with flight := some (.sleeping wakeAt) }, w') := by
  simp [Stepper.finishPaced, issueWrites_ok hbus, hpace, hwake]

theorem Stepper.finishPaced_fails {j : Nat} (hj : j < todo.length) (hbus : w.busOk j) (hfail : w.busAt j ≠ .ok) :
    Stepper.finishPaced p k rest todo x w =
      Stepper.stopAndEnd p k .busError x ((w.wrote p (todo.take j)).regWrite p todo[j]) := by
  simp [Stepper.finishPaced, issueWrites_fails hj hbus hfail]

/-- A paced step of a run that answers OK went on, and did so no earlier than T after its start. -/
theorem Stepper.finishPaced_answeredOk (hp : p.numeric = .exact) (hinterval : 0 ≤ x.interval)
    (hstart : (x.startTime.getD 0).toNat ≤ w.clock.toNat)
    (hok : w.AnsweredOk (Stepper.finishPaced p k rest todo x w).2) :
    ∃ w', w'.answers = w.answers ∧ x.stepEnd ≤ (w'.clock.toNat : Rat) ∧
      Stepper.finishPaced p k rest todo x w = rest x.stepDone w' := by
  obtain ⟨-, hbus⟩ | ⟨j, hj, hbus, hfail, -⟩ := issueWrites_spec p todo w
  · obtain hpos | hzero := hinterval.lt_or_eq
    · obtain ⟨hover, hpace⟩ | hpace | hpace := Stepper.pace_cases (x := x) (w := w.wrote p todo) hp hpos
      · exact ⟨(w.wrote p todo).afterNow, rfl, Stepper.stepEnd_le_iff.mpr hover, Stepper.finishPaced_onward hbus hpace⟩
      · rw [Stepper.finishPaced_late hbus hpace] at hok
        exact absurd hok (World.not_answeredOk rfl Status.noConfusion)
      · cases hwake : canWake _ with
        | true =>
          have hreached := World.wake_reaches _ (w.wrote p todo).afterNow hwake
          exact ⟨(w.wrote p todo).afterNow.wake _, rfl, (x.stepEnd_le_wakeAt _).trans (Nat.cast_le.mpr hreached),
            Stepper.finishPaced_wakes hbus hpace hwake⟩
        | false =>
          rw [Stepper.finishPaced_sleeps hbus hpace hwake] at hok
          exact absurd hok (World.not_answeredOk_of_eq rfl)
    · have hpace : x.pace p (w.wrote p todo) = (.onward, w.wrote p todo) := if_neg hzero.not_lt
      refine ⟨w.wrote p todo, rfl, ?_, Stepper.finishPaced_onward hbus hpace⟩
      rw [Stepper.stepEnd, ← hzero, zero_mul, add_zero]
      exact Nat.cast_le.mpr hstart
  · rw [Stepper.finishPaced_fails hj hbus hfail] at hok
    exact absurd hok (World.not_answeredOk rfl Status.noConfusion)

/-- The first step of a run that answers OK: the rest of the run follows it, no earlier than T after the step read its
start. -/
theorem Stepper.runLoop_succ_answeredOk (hp : p.numeric = .exact) (hinterval : 0 ≤ x.interval)
    (hok : w.AnsweredOk (Stepper.runLoop p k (n + 1) x w).2) :
    ∃ y w', y.interval = x.interval ∧ w'.answers = w.answers ∧
      (w.nowValue.toNat : Rat) + x.interval * 10 ^ 6 ≤ (w'.clock.toNat : Rat) ∧
      Stepper.runLoop p k (n + 1) x w = Stepper.runLoop p k n y w' := by
  obtain ⟨w', hans, hend, he⟩ := Stepper.finishPaced_answeredOk (x := (Stepper.beginPaced p x w).1) (w := w.afterNow) hp
    hinterval le_rfl hok
  exact ⟨(Stepper.beginPaced p x w).1.stepDone, w', rfl, hans, hend, he⟩

/-- A run of n + 1 steps that answers OK lasts (n + 1) · T from the first step's start on. -/
theorem Stepper.runLoop_lasts (hp : p.numeric = .exact) (hinterval : 0 ≤ x.interval)
    (hok : w.AnsweredOk (Stepper.runLoop p k (n + 1) x w).2) :
    (w.nowValue.toNat : Rat) + ((n + 1 : Nat) : Rat) * (x.interval * 10 ^ 6) ≤
      ((Stepper.runLoop p k (n + 1) x w).2.clock.toNat : Rat) := by
  induction n generalizing x w with
  | zero =>
    obtain ⟨y, w', -, -, hend, he⟩ := Stepper.runLoop_succ_answeredOk hp hinterval hok
    rw [he, Nat.cast_one, one_mul]
    exact hend
  | succ n ih =>
    obtain ⟨y, w', hy, hans, hend, he⟩ := Stepper.runLoop_succ_answeredOk hp hinterval hok
    rw [he] at hok ⊢
    have hrest := ih (hy ▸ hinterval) ((World.answeredOk_congr hans).mpr hok)
    have hnow : (w'.clock.toNat : Rat) ≤ (w'.nowValue.toNat : Rat) := Nat.cast_le.mpr w'.nowValue_ge
    rw [hy] at hrest
    rw [Nat.cast_succ, add_one_mul]
    linarith

/-- Settles O33: a run of n ≠ 0 steps has a first step, and lasts |n| · T from its start on. -/
theorem pacedRunLastsAtLeastNTimesT : Obligations.PacedRunLastsAtLeastNTimesT := by
  intro s t k x n b h hn hp hinterval ht hb hok
  have hne := toInt_ne_zero hn
  obtain ⟨m, hm⟩ := Nat.exists_eq_succ_of_ne_zero (Int.natAbs_ne_zero.mpr hne)
  obtain rfl := Host.Outcome.next.inj ((exec_stStep h n).symm.trans ht)
  rw [Stepper.runCount_of_ne_zero s.params k hne, hm] at hb ⊢
  exact le_sub_iff_add_le'.mpr (Stepper.runLoop_lasts (x := x.begun n.toInt) hp hinterval ⟨b, hb, hok⟩)

end Sys2Proof.Machine
end

section
/-! PROOFS. What launch binds, and in which state (70_reset_and_hazards.md R310, R311). -/

namespace Sys2Proof.Machine

variable (p : Params) (freq : Rat) (b : Bindings)

theorem State.launch_stepper (k : Nat) : (State.launch p freq b).stepper k =
    if k < 2 ∧ k ∈ b.stepper then some (Stepper.reset (if k = 0 then p.sm1 else p.sm2)) else none := by
  match k with
  | 0 | 1 => simp [State.stepper, State.launch]
  | k + 2 => simp [State.stepper, State.launch]

theorem State.launch_servo (j : Nat) : (State.launch p freq b).servo j =
    if j < 16 ∧ j ∈ b.servo then some (Servo.reset p.servoLimits (p.servoChans.getD j 0)) else none := by
  obtain hlt | hge := Nat.lt_or_ge j 16
  · simp [State.servo, State.launch, hlt]
  · simp [State.servo, State.launch, hge.not_gt]

theorem State.launch_qdec (d : Nat) :
    (State.launch p freq b).qdec d = p.qdecPins[d]?.map (Qdec.reset p.ringSize) :=
  List.getElem?_map

/-- The instances a launch binds are those claimed, and the decoders the parameters name (R296 to R298). -/
theorem State.launch_bound (t : Target) : (State.launch p freq b).bound t = true ↔
    (t.kind = .stepper ∧ t.inst < 2 ∧ t.inst ∈ b.stepper) ∨ (t.kind = .servo ∧ t.inst < 16 ∧ t.inst ∈ b.servo) ∨
      (t.kind = .qdec ∧ t.inst < p.qdecPins.length) := by
  obtain ⟨kind, i⟩ := t
  cases kind with
  | stepper => simp [State.bound, State.launch_stepper]
  | servo => simp [State.bound, State.launch_servo]
  | qdec => simp [State.bound, State.launch_qdec]

/-- Settles O6: what launch binds, it binds in the reset state of its unit. -/
theorem launchLeavesResetValues : Obligations.LaunchLeavesResetValues := by
  intro p freq b
  refine ⟨fun k x hx => ?stepper, fun j x hx => ?servo, fun d x hx => ?qdec, rfl, rfl, State.launch_bound p freq b⟩
  case stepper =>
    rw [State.launch_stepper] at hx
    obtain rfl := Option.some.inj (Option.ite_none_right_eq_some.mp hx).2
    exact ⟨rfl, rfl, rfl, rfl, rfl, rfl, rfl, rfl, rfl, rfl, rfl, rfl⟩
  case servo =>
    rw [State.launch_servo] at hx
    obtain rfl := Option.some.inj (Option.ite_none_right_eq_some.mp hx).2
    exact ⟨rfl, rfl, rfl, rfl, rfl, rfl, rfl, rfl, rfl⟩
  case qdec =>
    rw [State.launch_qdec] at hx
    obtain ⟨pins, -, rfl⟩ := Option.map_eq_some_iff.mp hx
    exact ⟨rfl, rfl, rfl, rfl, rfl, rfl, rfl, List.length_replicate, rfl, rfl, rfl⟩

end Sys2Proof.Machine
end
